-- ==== Sys2Proof/Word.lean ====
section
/-! DEFINITION. The plain values of the TH128 codec core: bytes, 32-bit words, and the two byte memories' names. -/

namespace Sys2Proof

/-- One byte: what SRC, DST, HIST and SCRATCH hold, and a bit mask (20_memory.md R78). -/
abbrev Byte := BitVec 8

/-- One 32-bit interface word: a command word or a register slot (10_state.md R31, 30_encoding.md R100). -/
abbrev Word := BitVec 32

/-- The two byte memories an operand can name (20_memory.md R70). CMD.SEL selects one of them: 0 is SRC, 1 is DST
(10_state.md R34). -/
inductive Space where
  | src
  | dst
deriving DecidableEq, Repr

end Sys2Proof
end

