-- ==== Sys2Proof/Config.lean ====
section
/-! DEFINITION. The constants of the format LZSS-13/4 and the cipher pair TC-A/TC-B (00_scope.md R7), and the launch
parameters the spec leaves open (00_scope.md R8). -/

namespace Sys2Proof

namespace Config

/-- IDX_BITS of 00_scope.md R7. -/
def idxBits : Nat := 13

/-- LEN_BITS of 00_scope.md R7. -/
def lenBits : Nat := 4

/-- HIST_SIZE of 00_scope.md R7. -/
def histSize : Nat := 8192

/-- MIN_MATCH of 00_scope.md R7. -/
def minMatch : Nat := 3

/-- MAX_MATCH of 00_scope.md R7. -/
def maxMatch : Nat := 18

/-- SKIP_POS of 00_scope.md R7: the residue no candidate may have. -/
def skipPos : Nat := 8191

/-- BITS_MIN of 00_scope.md R7. -/
def bitsMin : Nat := 1

/-- BITS_MAX of 00_scope.md R7. -/
def bitsMax : Nat := 16

/-- The bound 00_scope.md R8 puts on SRC_MEM. -/
def srcMemMax : Nat := 134217728

/-- The bound 00_scope.md R8 puts on DST_MEM. -/
def dstMemMax : Nat := 2147483648

/-- DESIGN CHOICE (log 6): what a byte of SRC or DST that nothing has written reads as. For HIST_INIT it is the
spec's default (00_scope.md R8). -/
def unwritten : Byte := 0x00

end Config

/-- One cipher layer's parameter triple (00_scope.md R7, 43_cipher.md). -/
structure Layer where
  blockSize : Nat
  baseMask  : Byte
  maskInc   : Byte
deriving DecidableEq, Repr

/-- Layer A, the outer layer (00_scope.md R7). -/
def Config.layerA : Layer := { blockSize := 0x800, baseMask := 0x5e, maskInc := 0xe7 }

/-- Layer B, the inner layer (00_scope.md R7). -/
def Config.layerB : Layer := { blockSize := 0x80, baseMask := 0x7d, maskInc := 0x36 }

/-- A byte memory: the bytes that differ from `Config.unwritten`, at strictly rising addresses. Its canonical form is
`Memory.wf` (Sys2Proof/Machine/Memory.lean). -/
abbrev Memory := List Host.Cell

/-- The three parameters 00_scope.md R8 leaves open, which a model takes as arguments of the launch (92 D6, D14;
93 I5, I23). No step changes them. -/
structure Launch where
  /-- SRC_MEM, the byte capacity of SRC. -/
  srcMem   : Nat
  /-- DST_MEM, the byte capacity of DST. -/
  dstMem   : Nat
  /-- HIST_INIT, what HIST holds when a DECOMPRESS starts. -/
  histInit : Memory
deriving DecidableEq, Repr

/-- DESIGN CHOICE (log 4): the launch that `State.reset` carries has the largest memories 00_scope.md R8 allows, and
HIST_INIT at the spec's default of zeros (log 5). Statements quantify over every launch. -/
def Config.launch : Launch := { srcMem := Config.srcMemMax, dstMem := Config.dstMemMax, histInit := [] }

end Sys2Proof
end

