-- ==== Sys2Proof/Machine/BitEngine.lean ====
section
/-! DEFINITION. The bit-stream engine's positions and its reader (40_bitstream.md R140 to R144). The reader takes the
bytes from a function, so that the decompressor, READ_BITS and the decoder of a plain list of bytes are one reader. -/

namespace Sys2Proof

/-- A bit position: a byte index and a one-hot mask of the next bit in that byte (40_bitstream.md R140). -/
structure BitPos where
  cur  : Nat
  mask : Byte
deriving DecidableEq, Repr

/-- Where a stream starts: bit 7 of byte 0 (40_bitstream.md R140). -/
def BitPos.first : BitPos := { cur := 0, mask := 0x80 }

/-- The eight masks that name a bit (10_state.md R42). -/
def oneHot (mask : Byte) : Bool :=
  decide (mask ∈ [0x80#8, 0x40#8, 0x20#8, 0x10#8, 0x08#8, 0x04#8, 0x02#8, 0x01#8])

/-- The linear bit offset of a position (40_bitstream.md R140). -/
def bitOffset (pos : BitPos) : Nat := 8 * pos.cur + (7 - pos.mask.toNat.log2)

/-- One bit forward in stream order; the move to the next byte is eager (40_bitstream.md R142). -/
def advance (pos : BitPos) : BitPos :=
  if pos.mask >>> 1 = 0#8 then { cur := pos.cur + 1, mask := 0x80 } else { cur := pos.cur, mask := pos.mask >>> 1 }

/-- ReadBit (40_bitstream.md R141, R143): at or past the end the bit is 0, no byte is read and the position holds. -/
def readBit (rd : Nat → Option Byte) (len : Nat) (pos : BitPos) : Option (Bool × BitPos) :=
  if len ≤ pos.cur then some (false, pos)
  else (rd pos.cur).map fun byte => (byte &&& pos.mask != 0#8, advance pos)

/-- The loop of ReadBits, with the bits read so far in `v` (40_bitstream.md R144). -/
def readBitsFrom (rd : Nat → Option Byte) (len : Nat) : Nat → Nat → BitPos → Option (Nat × BitPos)
  | 0, v, pos => some (v, pos)
  | n + 1, v, pos =>
    (readBit rd len pos).bind fun r => readBitsFrom rd len n (2 * v + r.1.toNat) r.2

/-- ReadBits: `n` bits as an unsigned number, the first bit most significant (40_bitstream.md R144). -/
def readBits (rd : Nat → Option Byte) (len n : Nat) (pos : BitPos) : Option (Nat × BitPos) :=
  readBitsFrom rd len n 0 pos

/-- Where a read of `n` bits leaves the position (40_bitstream.md R141 to R143). -/
def skipBits (len : Nat) : Nat → BitPos → BitPos
  | 0, pos => pos
  | n + 1, pos => skipBits len n (if len ≤ pos.cur then pos else advance pos)

end Sys2Proof
end

