-- ==== Sys2Proof/Machine/State.lean ====
section
/-! DEFINITION. The state of the TH128 codec core: every piece of state 10_state.md and 20_memory.md give it, the
launch parameters of 00_scope.md R8, and three fields of the model's own (the fault log, the host's queue and the
replies to its reads). -/

namespace Sys2Proof.Machine

/-- IDLE or BUSY (10_state.md R30). Every state a host can observe is IDLE. -/
inductive CoreState where
  | idle
  | busy
deriving DecidableEq, Repr

/-- The six fault causes of 60_exceptions.md R245. Codes 7 to 15 are never written. -/
inductive FaultCode where
  | badOp
  | badWidth
  | badMask
  | badLen
  | badBlock
  | noSpace
deriving DecidableEq, Repr

/-- The interface registers (10_state.md R31); slots 11 to 15 are reserved. -/
inductive Reg where
  | cmd
  | status
  | srcLen
  | dstLen
  | resultLen
  | ciphBlock
  | ciphKey
  | bitCursor
  | bitMask
  | bitN
  | bitData
  | reserved
deriving DecidableEq, Repr

/-- One host transaction (30_encoding.md R102, R114). -/
inductive HostOp where
  /-- `WR NAME, v`: write the 32-bit `data` to a register slot. -/
  | wr (slot : Fin 16) (data : Word)
  /-- `RD NAME`: read a register slot. -/
  | rd (slot : Fin 16)
  /-- `MW S[a] = v`: write one byte of SRC or DST. -/
  | mw (space : Space) (offset : Nat) (byte : Byte)
  /-- `MR S[a]`: read one byte of SRC or DST. -/
  | mr (space : Space) (offset : Nat)
deriving DecidableEq, Repr

/-- What a host read returned. -/
inductive Reply where
  | reg (slot : Fin 16) (data : Word)
  | byte (space : Space) (offset : Nat) (byte : Byte)
deriving DecidableEq, Repr

/-- The machine's state. Names are the spec's. Counters the spec gives as u32 are naturals (00_scope.md R8, R10;
log 8). -/
structure State where
  /-- IDLE or BUSY (10_state.md R30). -/
  core       : CoreState
  /-- STATUS, slot 1 (10_state.md R35). -/
  status     : Word
  /-- SRC_LEN, slot 2 (10_state.md R36). -/
  srcLen     : Word
  /-- DST_LEN, slot 3 (10_state.md R37). -/
  dstLen     : Word
  /-- RESULT_LEN, slot 4 (10_state.md R38). -/
  resultLen  : Word
  /-- CIPH_BLOCK, slot 5 (10_state.md R39). -/
  ciphBlock  : Word
  /-- CIPH_KEY, slot 6, its 16 used bits (10_state.md R40). -/
  ciphKey    : BitVec 16
  /-- BIT_CURSOR, slot 7 (10_state.md R41). -/
  bitCursor  : Word
  /-- BIT_MASK, slot 8, its 8 used bits (10_state.md R42). -/
  bitMask    : Byte
  /-- BIT_N, slot 9, its 5 used bits (10_state.md R43). -/
  bitN       : BitVec 5
  /-- BIT_DATA, slot 10, its 16 used bits (10_state.md R44). -/
  bitData    : BitVec 16
  /-- The SRC memory (20_memory.md R70). -/
  src        : Memory
  /-- The DST memory (20_memory.md R70). -/
  dst        : Memory
  /-- HIST, 8192 bytes (10_state.md R45). -/
  hist       : Memory
  /-- SCRATCH (10_state.md R50). -/
  scratch    : Memory
  /-- The read engine (`rd_cur`, `rd_mask`) (10_state.md R46). -/
  rd         : BitPos
  /-- The write engine (`wr_cur`, `wr_mask`) (10_state.md R47). -/
  wr         : BitPos
  /-- Bytes produced by the decompressor (10_state.md R48). -/
  q          : Nat
  /-- A terminator was decoded (10_state.md R48). -/
  term       : Bool
  /-- A byte fell outside DST_LEN (10_state.md R48). -/
  ovr        : Bool
  /-- The compressor's source position (10_state.md R49). -/
  p          : Nat
  /-- The best match's length (10_state.md R49). -/
  best       : Nat
  /-- The best match's start (10_state.md R49). -/
  bs         : Nat
  /-- The candidate's distance (10_state.md R49). -/
  d          : Nat
  /-- The candidate's match extent (10_state.md R49). -/
  k          : Nat
  /-- The worst-case output size (10_state.md R49). -/
  cap        : Nat
  /-- The running mask (10_state.md R50). -/
  m          : Byte
  /-- The ascending byte cursor (10_state.md R50). -/
  c          : Nat
  /-- The current block's offset (10_state.md R50). -/
  start      : Nat
  /-- The current block's size (10_state.md R50). -/
  b          : Nat
  /-- The descending target position (10_state.md R50). -/
  t          : Nat
  /-- The processed length (10_state.md R50). -/
  P          : Nat
  /-- SRC_MEM, DST_MEM and HIST_INIT (00_scope.md R8). -/
  launch     : Launch
  /-- MODEL's own: the fault log 60_exceptions.md R248 allows beside STATUS, oldest first (log 3). -/
  faultLog   : List FaultCode
  /-- MODEL's own: the host's pending transactions, the next one first (log 1). -/
  host       : List HostOp
  /-- MODEL's own: what the host's reads returned, oldest first (log 2). -/
  replies    : List Reply
deriving DecidableEq, Repr

/-- Why the model stops. Neither is a fault of the core: the core's own faults are next states
(60_exceptions.md R241). -/
inductive Fault where
  /-- Raised by a meaning whose rule met a `MemRead` or `MemWrite` outside its space. 20_memory.md R74 and 93 I26 ask
  for this stop and say it means a defect in the model; the checks of 60_exceptions.md R244 rule it out for every
  command. Safe. -/
  | outOfRange
  /-- Raised by `step` for a host transaction at an offset of SRC or DST that does not exist (20_memory.md R70, R73;
  log 13). Safe. -/
  | hostOutOfRange
deriving DecidableEq, Repr

/-- What the model has no move for. -/
inductive Refusal where
  /-- Raised by `exec` alone, for an instruction that has no meaning yet. No arm raises it. Safe. -/
  | notModelled (mnemonic : String)
  /-- Raised by `step` for a host transaction other than a STATUS read while the core is BUSY: "the model has no move
  for it" (70_reset_and_hazards.md R281, 93 I24; log 14). Safe. -/
  | hostAccessWhileBusy
deriving DecidableEq, Repr

/-- Power-on reset (70_reset_and_hazards.md R270). The registers hold the table's values. SRC and DST (log 6), HIST,
SCRATCH and the engine registers (log 7) are unspecified there and hold the values the log names; the launch
parameters are those of log 4 and log 5. -/
def State.reset : State where
  core       := .idle
  status     := 0#32
  srcLen     := 0#32
  dstLen     := 0#32
  resultLen  := 0#32
  ciphBlock  := 0#32
  ciphKey    := 0#16
  bitCursor  := 0#32
  bitMask    := 0x80#8
  bitN       := 0#5
  bitData    := 0#16
  src        := []
  dst        := []
  hist       := []
  scratch    := []
  rd         := BitPos.first
  wr         := BitPos.first
  q          := 0
  term       := false
  ovr        := false
  p          := 0
  best       := 0
  bs         := 0
  d          := 0
  k          := 0
  cap        := 0
  m          := 0#8
  c          := 0
  start      := 0
  b          := 0
  t          := 0
  P          := 0
  launch     := Config.launch
  faultLog   := []
  host       := []
  replies    := []

end Sys2Proof.Machine
end

