-- ==== Sys2Proof/Machine/Flags.lean ====
section
/-! DEFINITION. STATUS: where its flags stand, and how each is set (10_state.md R35, R52). -/

namespace Sys2Proof.Machine

/-- DONE's place (10_state.md R35). -/
def flagDone : Word := 0x00000002

/-- WARN_NOTERM's place (10_state.md R35). -/
def flagWarnNoterm : Word := 0x00000004

/-- ERR_SIZE's place (10_state.md R35). -/
def flagErrSize : Word := 0x00000008

/-- OVERRUN's place (10_state.md R35). -/
def flagOverrun : Word := 0x00000010

/-- FAULT's place (10_state.md R35). -/
def flagFault : Word := 0x00000020

/-- FCODE's place, bits 11:8 (10_state.md R35). -/
def fieldFcode : Word := 0x00000F00

/-- `STATUS.<flag> <- v`: the flag's bit takes the value, every other bit keeps its own. -/
def setFlag (status flag : Word) (v : Bool) : Word :=
  if v then status ||| flag else status &&& ~~~flag

/-- The value of a flag. -/
def getFlag (status flag : Word) : Bool := status &&& flag != 0#32

/-- The numbers of the fault codes (60_exceptions.md R245). -/
def FaultCode.number : FaultCode → BitVec 4
  | .badOp => 1#4
  | .badWidth => 2#4
  | .badMask => 3#4
  | .badLen => 4#4
  | .badBlock => 5#4
  | .noSpace => 6#4

/-- `STATUS.FCODE <- code` (60_exceptions.md R241). -/
def setFcode (status : Word) (code : BitVec 4) : Word :=
  (status &&& ~~~fieldFcode) ||| (code.setWidth 32 <<< 8)

/-- FCODE, bits 11:8 of STATUS (10_state.md R35). -/
def getFcode (status : Word) : BitVec 4 := status.extractLsb' 8 4

/-- What a fault does to STATUS: FAULT, FCODE and DONE (60_exceptions.md R241). -/
def faultStatus (status : Word) (code : FaultCode) : Word :=
  setFlag (setFcode (setFlag status flagFault true) code.number) flagDone true

/-- The flags DECOMPRESS writes: WARN_NOTERM and OVERRUN (41_lzss_decompress.md R171). -/
def decompressStatus (status : Word) (term ovr : Bool) : Word :=
  setFlag (setFlag status flagWarnNoterm (!term)) flagOverrun ovr

/-- The STATUS values a host can ever read: 0 after reset, DONE with any set of the three status conditions
(60_exceptions.md R243, R246), or DONE and FAULT with one of the six codes (60_exceptions.md R245). -/
def legalStatus (status : Word) : Bool :=
  decide (status ∈
    [0x000#32, 0x002#32, 0x006#32, 0x00A#32, 0x00E#32, 0x012#32, 0x016#32, 0x01A#32, 0x01E#32,
     0x122#32, 0x222#32, 0x322#32, 0x422#32, 0x522#32, 0x622#32])

end Sys2Proof.Machine
end

