-- ==== Sys2Proof/Machine/Memory.lean ====
section
/-! DEFINITION. Reading and writing a byte memory held in its canonical form, and that form. -/

namespace Sys2Proof.Machine

/-- The byte at an address; an unlisted one reads as `Config.unwritten` (log 6). -/
def Memory.read : Memory → Nat → Byte
  | [], _ => Config.unwritten
  | (x, v) :: rest, a => if a < x then Config.unwritten else if a = x then v else Memory.read rest a

/-- Put one byte in front of a rising list, unless it is what an unlisted address reads as. -/
def Memory.put (a : Nat) (v : Byte) (rest : Memory) : Memory :=
  if v = Config.unwritten then rest else (a, v) :: rest

/-- Store one byte, keeping the canonical form (20_memory.md R74). -/
def Memory.write : Memory → Nat → Byte → Memory
  | [], a, v => Memory.put a v []
  | (x, w) :: rest, a, v =>
    if a < x then Memory.put a v ((x, w) :: rest)
    else if a = x then Memory.put a v rest
    else (x, w) :: Memory.write rest a v

/-- Addresses strictly rising from `lo` on, no entry equal to what an unlisted address reads as. -/
def Memory.wfFrom : Nat → Memory → Bool
  | _, [] => true
  | lo, (a, v) :: rest => decide (lo ≤ a) && v != Config.unwritten && Memory.wfFrom (a + 1) rest

/-- The canonical form. -/
def Memory.wf (mem : Memory) : Bool := Memory.wfFrom 0 mem

/-- Every listed address lies below `size`: the memory lists no address the spec says does not exist. -/
def Memory.below (size : Nat) (mem : Memory) : Bool := mem.all fun cell => decide (cell.1 < size)

/-- Store consecutive bytes from `a` on: what `MW S[a] = b0 b1 ...` expands to (30_encoding.md R114). -/
def Memory.writeBytes (mem : Memory) (a : Nat) : List Byte → Memory
  | [] => mem
  | v :: rest => Memory.writeBytes (Memory.write mem a v) (a + 1) rest

end Sys2Proof.Machine
end

