-- ==== Sys2Proof/Machine/Ops.lean ====
section
/-! DEFINITION. The named operations every meaning is built from: the memory primitives, the bit writer, and the life
cycle of a command: issue, fault, completion. An operation that could reach outside its memory answers `none` there. -/

namespace Sys2Proof.Machine

open Host (Outcome)

/-- The contents of a memory space (20_memory.md R70). -/
def State.mem (s : State) : Space → Memory
  | .src => s.src
  | .dst => s.dst

/-- The capacity of a memory space: SRC_MEM or DST_MEM (00_scope.md R8). -/
def State.size (s : State) : Space → Nat
  | .src => s.launch.srcMem
  | .dst => s.launch.dstMem

/-- The state with a memory space replaced. -/
def State.withMem (s : State) (sp : Space) (mem : Memory) : State :=
  match sp with
  | .src => { s with src := mem }
  | .dst => { s with dst := mem }

/-- What a space reads at an offset, in range or not. -/
def State.byteAt (s : State) (sp : Space) (a : Nat) : Byte := Memory.read (s.mem sp) a

/-- `MemRead(S, a, 1)` (20_memory.md R74); `none` outside the space. -/
def State.memRead (s : State) (sp : Space) (a : Nat) : Option Byte :=
  if a < s.size sp then some (s.byteAt sp a) else none

/-- `MemWrite(S, a, 1, v)` (20_memory.md R74); `none` outside the space. -/
def State.memWrite (s : State) (sp : Space) (a : Nat) (v : Byte) : Option State :=
  if a < s.size sp then some (s.withMem sp (Memory.write (s.mem sp) a v)) else none

/-- `HIST[i]`, the index taken modulo 8192 (10_state.md R45). -/
def State.histRead (s : State) (i : Nat) : Byte := Memory.read s.hist (i % Config.histSize)

/-- `HIST[i] <- v`, the index taken modulo 8192 (10_state.md R45). -/
def State.histWrite (s : State) (i : Nat) (v : Byte) : State :=
  { s with hist := Memory.write s.hist (i % Config.histSize) v }

/-- WriteBit: a 1 is ORed into its byte, a 0 changes nothing; the position advances either way
(40_bitstream.md R145, 20_memory.md R79). -/
def State.writeBit (s : State) (sp : Space) (bit : Bool) (pos : BitPos) : Option (State × BitPos) :=
  if bit then
    (s.memRead sp pos.cur).bind fun old =>
      (s.memWrite sp pos.cur (old ||| pos.mask)).map fun s' => (s', advance pos)
  else some (s, advance pos)

/-- WriteBits: bits n-1 down to 0 of `v` (40_bitstream.md R145). -/
def State.writeBits (s : State) (sp : Space) (v : Nat) : Nat → BitPos → Option (State × BitPos)
  | 0, pos => some (s, pos)
  | n + 1, pos => (s.writeBit sp (v.testBit n) pos).bind fun r => r.1.writeBits sp v n r.2

/-- The start of a command: STATUS is cleared and the core is BUSY (60_exceptions.md R240). It is also the only
"return" from a fault: the next CMD write clears the record (60_exceptions.md R248). -/
def State.issue (s : State) : State := { s with status := 0#32, core := .busy }

/-- TAKING A FAULT (60_exceptions.md R241): FAULT, FCODE and DONE are recorded, the core is IDLE, nothing else of the
core changes. The model's fault log records the code (60_exceptions.md R248, log 3). -/
def State.takeFault (s : State) (code : FaultCode) : State :=
  { s with status := faultStatus s.status code, core := .idle, faultLog := s.faultLog ++ [code] }

/-- The end of a command that passed its checks: DONE, and the core is IDLE (60_exceptions.md R242). -/
def State.complete (s : State) : State :=
  { s with status := setFlag s.status flagDone true, core := .idle }

/-- An operation's answer as a step's outcome: out of range is the model's fault (20_memory.md R74). -/
def outcome : Option State → Outcome State Fault Refusal
  | some s => .next s
  | none => .fault .outOfRange

/-- A command from issue to its end (60_exceptions.md R240): STATUS is cleared, the first check that fails raises its
fault, else the command's rule runs and the command completes. -/
def runCommand (check : State → Option FaultCode) (rule : State → Option State) (s : State) :
    Outcome State Fault Refusal :=
  match check s.issue with
  | some code => .next (s.issue.takeFault code)
  | none => outcome ((rule s.issue).map State.complete)

end Sys2Proof.Machine
end

