-- ==== Sys2Proof/Machine/Operands.lean ====
section
/-! DEFINITION. The operands a command takes from the interface registers, and the issue checks on them
(60_exceptions.md R244). -/

namespace Sys2Proof.Machine

/-- The position operand of READ_BITS and WRITE_BITS (10_state.md R41, R42). -/
def State.bitPos (s : State) : BitPos := { cur := s.bitCursor.toNat, mask := s.bitMask }

/-- `(BIT_CURSOR, BIT_MASK) <- pos` (40_bitstream.md R146, R147). -/
def State.setBitPos (s : State) (pos : BitPos) : State :=
  { s with bitCursor := BitVec.ofNat 32 pos.cur, bitMask := pos.mask }

/-- The cipher's length operand: SRC_LEN for SRC, DST_LEN for DST (43_cipher.md R205). -/
def State.cipherLen (s : State) : Space → Nat
  | .src => s.srcLen.toNat
  | .dst => s.dstLen.toNat

/-- The cipher's parameters from CIPH_BLOCK and CIPH_KEY (43_cipher.md R205, 10_state.md R40). -/
def State.keyLayer (s : State) : Layer :=
  { blockSize := s.ciphBlock.toNat, baseMask := s.ciphKey.extractLsb' 0 8, maskInc := s.ciphKey.extractLsb' 8 8 }

/-- The worst-case output size of COMPRESS: `ceil(9 N / 8) + 2` (42_lzss_compress.md R189). -/
def compressCap (n : Nat) : Nat := (9 * n + 7) / 8 + 2

/-- A check of 60_exceptions.md R244: the fault when the condition does not hold, else the checks after it. -/
def unlessFault (ok : Bool) (code : FaultCode) (next : Option FaultCode) : Option FaultCode :=
  if ok then next else some code

/-- SRC_LEN ≤ SRC_MEM (60_exceptions.md R244). -/
def State.srcLenOk (s : State) : Bool := decide (s.srcLen.toNat ≤ s.launch.srcMem)

/-- DST_LEN ≤ DST_MEM (60_exceptions.md R244). -/
def State.dstLenOk (s : State) : Bool := decide (s.dstLen.toNat ≤ s.launch.dstMem)

/-- 1 ≤ BIT_N ≤ 16 (60_exceptions.md R244). -/
def State.widthOk (s : State) : Bool :=
  decide (Config.bitsMin ≤ s.bitN.toNat) && decide (s.bitN.toNat ≤ Config.bitsMax)

/-- The last bit WRITE_BITS writes lies in DST (60_exceptions.md R244). -/
def State.writeFits (s : State) : Bool :=
  decide ((bitOffset s.bitPos + s.bitN.toNat - 1) / 8 < s.launch.dstMem)

/-- The worst-case output fits in DST (60_exceptions.md R244). -/
def State.capFits (s : State) : Bool := decide (compressCap s.srcLen.toNat ≤ s.launch.dstMem)

/-- The checks of READ_BITS, in order (60_exceptions.md R244). -/
def checkReadBits (s : State) : Option FaultCode :=
  unlessFault s.srcLenOk .badLen <| unlessFault s.widthOk .badWidth <| unlessFault (oneHot s.bitMask) .badMask none

/-- The checks of WRITE_BITS, in order (60_exceptions.md R244). -/
def checkWriteBits (s : State) : Option FaultCode :=
  unlessFault s.widthOk .badWidth <| unlessFault (oneHot s.bitMask) .badMask <| unlessFault s.writeFits .noSpace none

/-- The checks of DECOMPRESS and of DECODE, in order (60_exceptions.md R244). -/
def checkBothLens (s : State) : Option FaultCode :=
  unlessFault s.srcLenOk .badLen <| unlessFault s.dstLenOk .badLen none

/-- The checks of COMPRESS and of ENCODE, in order (60_exceptions.md R244). -/
def checkCompress (s : State) : Option FaultCode :=
  unlessFault s.srcLenOk .badLen <| unlessFault s.capFits .noSpace none

/-- The checks of DECRYPT and of ENCRYPT, in order (60_exceptions.md R244). -/
def checkCipher (sel : Space) (s : State) : Option FaultCode :=
  unlessFault (decide (s.cipherLen sel ≤ s.size sel)) .badLen <|
    unlessFault (decide (s.ciphBlock ≠ 0#32)) .badBlock none

end Sys2Proof.Machine
end

