-- ==== Sys2Proof/Machine/BitIO.lean ====
section
/-! DEFINITION. READ_BITS and WRITE_BITS (40_bitstream.md section 2). -/

namespace Sys2Proof.Machine

open Host (Outcome)

/-- The rule of READ_BITS after its checks (40_bitstream.md R146): read BIT_N bits of SRC at the position, put them
in BIT_DATA zero-extended, and move the position. -/
def readBitsRule (s : State) : Option State :=
  (readBits (s.memRead .src) s.srcLen.toNat s.bitN.toNat s.bitPos).map fun r =>
    { s with bitData := BitVec.ofNat 16 r.1 }.setBitPos r.2

/-- The rule of WRITE_BITS after its checks (40_bitstream.md R147): write the low BIT_N bits of BIT_DATA into DST at
the position, and move the position. -/
def writeBitsRule (s : State) : Option State :=
  (s.writeBits .dst s.bitData.toNat s.bitN.toNat s.bitPos).map fun r => r.1.setBitPos r.2

/-- READ_BITS (40_bitstream.md R146). SEL is ignored (10_state.md R34). -/
def execReadBits (_sel : Space) (s : State) : Outcome State Fault Refusal := runCommand checkReadBits readBitsRule s

/-- WRITE_BITS (40_bitstream.md R147). SEL is ignored (10_state.md R34). -/
def execWriteBits (_sel : Space) (s : State) : Outcome State Fault Refusal := runCommand checkWriteBits writeBitsRule s

end Sys2Proof.Machine
end

