-- ==== Sys2Proof/Machine/Cipher.lean ====
section
/-! DEFINITION. The transposition cipher, DECRYPT and ENCRYPT (43_cipher.md). -/

namespace Sys2Proof.Machine

open Host (Outcome)

/-- The processed length P of a total length and a block size (43_cipher.md R201): the small remainder comes off
first, then the odd byte of the total length, never below 0. -/
def processedLen (len block : Nat) : Nat :=
  let p := if len % block < block / 4 then len - len % block else len
  if len % 2 = 1 then p - 1 else p

/-- The copy aside (43_cipher.md R202): `todo` bytes of S from `a` on into SCRATCH. -/
def copyAside (sp : Space) : Nat → Nat → State → Option State
  | 0, _, s => some s
  | todo + 1, a, s =>
    (s.memRead sp a).bind fun v => copyAside sp todo (a + 1) { s with scratch := Memory.write s.scratch a v }

/-- Xfer (43_cipher.md R203): decryption scatters `SCRATCH[c]` to `t`, encryption gathers `SCRATCH[t]` to `c`. -/
def State.xfer (s : State) (decrypting : Bool) (sp : Space) : Option State :=
  if decrypting then s.memWrite sp s.t (Memory.read s.scratch s.c ^^^ s.m)
  else s.memWrite sp s.c (Memory.read s.scratch s.t ^^^ s.m)

/-- One pass over half a block: `todo` transfers, each with the mask, the target and the cursor moving on
(43_cipher.md R203). -/
def cipherPass (decrypting : Bool) (sp : Space) (inc : Byte) : Nat → State → Option State
  | 0, s => some s
  | todo + 1, s =>
    (s.xfer decrypting sp).bind fun s' =>
      cipherPass decrypting sp inc todo { s' with m := s'.m + inc, t := s'.t - 2, c := s'.c + 1 }

/-- One block (43_cipher.md R203): the pass from its last byte down, then the pass from its second-to-last down. -/
def cipherBlock (decrypting : Bool) (sp : Space) (layer : Layer) (s : State) : Option State :=
  let b := min layer.blockSize (s.P - s.c)
  let s0 := { s with start := s.c, b := b, t := s.c + b - 1 }
  (cipherPass decrypting sp layer.maskInc ((b + 1) / 2) s0).bind fun s1 =>
    cipherPass decrypting sp layer.maskInc (s1.b / 2) { s1 with t := s1.start + s1.b - 2 }

/-- The block loop (43_cipher.md R203). Every block has at least one byte, so P iterations suffice (log 15). -/
def cipherLoop (decrypting : Bool) (sp : Space) (layer : Layer) : Nat → State → Option State
  | 0, s => some s
  | fuel + 1, s =>
    if s.c < s.P then (cipherBlock decrypting sp layer s).bind (cipherLoop decrypting sp layer fuel) else some s

/-- `CipherRun(S, L, B, M0, I, dir)` (43_cipher.md R203); its result is the state's `P`. -/
def cipherRun (decrypting : Bool) (sp : Space) (len : Nat) (layer : Layer) (s : State) : Option State :=
  let P := processedLen len layer.blockSize
  (copyAside sp P 0 { s with P := P, scratch := [] }).bind fun s1 =>
    cipherLoop decrypting sp layer P { s1 with m := layer.baseMask, c := 0 }

/-- The rule of DECRYPT and ENCRYPT after their checks (43_cipher.md R205, R206): one run over the selected memory
with the key of the registers; RESULT_LEN is P. -/
def cipherRule (decrypting : Bool) (sel : Space) (s : State) : Option State :=
  (cipherRun decrypting sel (s.cipherLen sel) s.keyLayer s).map fun s' =>
    { s' with resultLen := BitVec.ofNat 32 s'.P }

/-- DECRYPT (43_cipher.md R205). -/
def execDecrypt (sel : Space) (s : State) : Outcome State Fault Refusal :=
  runCommand (checkCipher sel) (cipherRule true sel) s

/-- ENCRYPT (43_cipher.md R206). -/
def execEncrypt (sel : Space) (s : State) : Outcome State Fault Refusal :=
  runCommand (checkCipher sel) (cipherRule false sel) s

end Sys2Proof.Machine
end

