-- ==== Sys2Proof/Machine/Compress.lean ====
section
/-! DEFINITION. COMPRESS (42_lzss_compress.md). -/

namespace Sys2Proof.Machine

open Host (Outcome)

/-- `C(x)`: a byte behind `p` is read from HIST, one inside the match being written from SRC
(42_lzss_compress.md R183). -/
def State.compared (s : State) (x : Nat) : Option Byte :=
  if x < s.p then some (s.histRead x) else s.memRead .src x

/-- Match extension for a candidate (42_lzss_compress.md R183): `k` grows while `k < 18`, `p + k < N` and the compared
bytes agree. The first argument is `18 - k`. -/
def State.extendMatch (s : State) (n cand : Nat) : Nat → Nat → Option Nat
  | 0, k => some k
  | fuel + 1, k =>
    if s.p + k < n then
      (s.compared (cand + k)).bind fun x =>
        (s.memRead .src (s.p + k)).bind fun y => if x = y then s.extendMatch n cand fuel (k + 1) else some k
    else some k

/-- Best match: only a strictly longer one replaces the nearer (42_lzss_compress.md R184). -/
def State.noteMatch (s : State) (cand k : Nat) : State :=
  if s.best < k then { s with k := k, best := k, bs := cand } else { s with k := k }

/-- The candidates at distances `d`, `d + 1`, ..., as many as the first argument says, nearest first
(42_lzss_compress.md R181); residue 8191 is skipped (R182) and a match of 18 stops the search (R184). -/
def searchFrom (n : Nat) : Nat → Nat → State → Option State
  | 0, _, s => some s
  | todo + 1, d, s =>
    if (s.p - d) % Config.histSize = Config.skipPos then searchFrom n todo (d + 1) { s with d := d }
    else
      (s.extendMatch n (s.p - d) Config.maxMatch 0).bind fun k =>
        let s' := { s with d := d }.noteMatch (s.p - d) k
        if s'.best = Config.maxMatch then some s' else searchFrom n todo (d + 1) s'

/-- The whole search at `p` (42_lzss_compress.md R181 to R184). -/
def searchMatch (n : Nat) (s : State) : Option State :=
  searchFrom n (min s.p Config.histSize) 1 { s with best := 0, bs := 0 }

/-- `WriteBits(DST, v, n)` through the write engine (42_lzss_compress.md R187). -/
def State.putBits (s : State) (v n : Nat) : Option State :=
  (s.writeBits .dst v n s.wr).map fun r => { r.1 with wr := r.2 }

/-- The history update (42_lzss_compress.md R186): `HIST[(p + i) mod 8192] <- SRC[p + i]`, `i` rising. -/
def State.keepHist : Nat → Nat → State → Option State
  | 0, _, s => some s
  | n + 1, i, s => (s.memRead .src (s.p + i)).bind fun v => State.keepHist n (i + 1) (s.histWrite (s.p + i) v)

/-- The token for the match found (42_lzss_compress.md R185), the history update and the move of `p`. -/
def emitToken (s : State) : Option State :=
  if s.best < Config.minMatch then
    (s.putBits 1 1).bind fun s1 =>
      (s1.memRead .src s1.p).bind fun v =>
        (s1.putBits v.toNat 8).bind fun s2 =>
          (State.keepHist 1 0 s2).map fun s3 => { s3 with p := s3.p + 1 }
  else
    (s.putBits 0 1).bind fun s1 =>
      (s1.putBits (s1.bs % Config.histSize + 1) Config.idxBits).bind fun s2 =>
        (s2.putBits (s2.best - Config.minMatch) Config.lenBits).bind fun s3 =>
          (State.keepHist s3.best 0 s3).map fun s4 => { s4 with p := s4.p + s4.best }

/-- The source loop (42_lzss_compress.md R180). Every token covers at least one byte, so N iterations suffice
(log 15). -/
def compressLoop (n : Nat) : Nat → State → Option State
  | 0, s => some s
  | fuel + 1, s =>
    if s.p < n then (searchMatch n s).bind fun s1 => (emitToken s1).bind (compressLoop n fuel) else some s

/-- Zero-fill: `todo` bytes of DST from `a` on (42_lzss_compress.md R189). -/
def zeroFill : Nat → Nat → State → Option State
  | 0, _, s => some s
  | todo + 1, a, s => (s.memWrite .dst a 0#8).bind (zeroFill todo (a + 1))

/-- `Compress(N)` with `N = SRC_LEN` (42_lzss_compress.md R187): zero-fill, the source loop, the truncated terminator
(R188). HIST is not initialised (10_state.md R54). -/
def compressRun (s : State) : Option State :=
  (zeroFill (compressCap s.srcLen.toNat) 0 { s with cap := compressCap s.srcLen.toNat }).bind fun s1 =>
    (compressLoop s.srcLen.toNat s.srcLen.toNat { s1 with wr := BitPos.first, p := 0 }).bind fun s2 =>
      s2.putBits 0 2

/-- The rule of COMPRESS after its checks (42_lzss_compress.md R187): RESULT_LEN is `wr_cur + 1` (R188). -/
def compressRule (s : State) : Option State :=
  (compressRun s).map fun s' => { s' with resultLen := BitVec.ofNat 32 (s'.wr.cur + 1) }

/-- COMPRESS (42_lzss_compress.md R187). SEL is ignored (10_state.md R34). -/
def execCompress (_sel : Space) (s : State) : Outcome State Fault Refusal := runCommand checkCompress compressRule s

end Sys2Proof.Machine
end

