-- ==== Sys2Proof/Syntax.lean ====
section
/-! DEFINITION. The instructions of the TH128 codec core: one constructor per row of spec/opcode_table.json. Eight
commands and the reserved command words (30_encoding.md R100), and the four token forms of the compressed stream
(30_encoding.md R103 to R106). -/

namespace Sys2Proof

/-- One instruction. The commands keep the SEL bit of their word, which only DECRYPT and ENCRYPT read (10_state.md
R34); the reserved row keeps the whole word (log 12). -/
inductive Instr where
  /-- READ_BITS, OP 0x1 (40_bitstream.md R146). SEL is ignored. -/
  | readBits (sel : Space)
  /-- WRITE_BITS, OP 0x2 (40_bitstream.md R147). SEL is ignored. -/
  | writeBits (sel : Space)
  /-- DECOMPRESS, OP 0x3 (41_lzss_decompress.md R171). SEL is ignored. -/
  | decompress (sel : Space)
  /-- COMPRESS, OP 0x4 (42_lzss_compress.md R187). SEL is ignored. -/
  | compress (sel : Space)
  /-- DECRYPT, OP 0x5 (43_cipher.md R205), over the memory SEL names. -/
  | decrypt (sel : Space)
  /-- ENCRYPT, OP 0x6 (43_cipher.md R206), over the memory SEL names. -/
  | encrypt (sel : Space)
  /-- DECODE, OP 0x7 (44_pipeline.md R220). SEL is ignored. -/
  | decode (sel : Space)
  /-- ENCODE, OP 0x8 (44_pipeline.md R222). SEL is ignored. -/
  | encode (sel : Space)
  /-- Every other command word (60_exceptions.md R244, R245). -/
  | badOp (w : Word)
  /-- The literal token (30_encoding.md R103): the byte value. -/
  | lit (v : Byte)
  /-- The back-reference token (30_encoding.md R104): the raw fields, encoded index and encoded length. -/
  | ref (e : BitVec 13) (l : BitVec 4)
  /-- The terminator token, 14 bits (30_encoding.md R105). -/
  | term
  /-- The truncated terminator, 2 bits (30_encoding.md R106). -/
  | term2
deriving DecidableEq, Repr

end Sys2Proof
end

