-- ==== Sys2Proof/WellFormed.lean ====
section
/-! DEFINITION. The operand values an encoding of each instruction can hold. -/

namespace Sys2Proof

/-- A command word that encodes no command: a reserved bit set, or OP 0x0 or 0x9 to 0xF (30_encoding.md R100, R101). -/
def Word.reserved (w : Word) : Bool :=
  w.extractLsb' 5 27 != 0#27 || w.extractLsb' 0 4 == 0#4 || decide (9#4 ≤ w.extractLsb' 0 4)

/-- The well-formed instructions: BAD_OP carries a reserved word (60_exceptions.md R245), and a REF has a non-zero
encoded index (30_encoding.md R104, R109). Every other operand may have any value. -/
def Instr.wellFormed : Instr → Bool
  | .readBits _ => true
  | .writeBits _ => true
  | .decompress _ => true
  | .compress _ => true
  | .decrypt _ => true
  | .encrypt _ => true
  | .decode _ => true
  | .encode _ => true
  | .badOp w => Word.reserved w
  | .lit _ => true
  | .ref e _ => e != 0#13
  | .term => true
  | .term2 => true

end Sys2Proof
end

