-- ==== Sys2Proof/Decode.lean ====
section
/-! DEFINITION. The two decoders (the command word, 30_encoding.md R101, and the token, R108), the encoder, and the
decoding of a word of spec/opcode_table.json. -/

namespace Sys2Proof

/-- SEL, bit 4 of a command word (10_state.md R34). -/
def selOfBit (bit : Bool) : Space := if bit then .dst else .src

/-- SEL's bit (10_state.md R34). -/
def selBit : Space → BitVec 1
  | .src => 0#1
  | .dst => 1#1

/-- `decode_cmd` of 30_encoding.md R101: total, every word that is no command is BAD_OP by name. -/
def decodeCmd (w : Word) : Instr :=
  if w.extractLsb' 5 27 ≠ 0#27 then .badOp w
  else
    let sel := selOfBit (w.getLsbD 4)
    match (w.extractLsb' 0 4).toNat with
    | 1 => .readBits sel
    | 2 => .writeBits sel
    | 3 => .decompress sel
    | 4 => .compress sel
    | 5 => .decrypt sel
    | 6 => .encrypt sel
    | 7 => .decode sel
    | 8 => .encode sel
    | _ => .badOp w

/-- A decoded token (30_encoding.md R103 to R106), with the fields as the stream holds them. -/
inductive Token where
  | lit (v : Byte)
  | ref (e : BitVec 13) (l : BitVec 4)
  | term
  | term2
deriving DecidableEq, Repr

/-- A token as the instruction of its row of spec/opcode_table.json. -/
def Token.instr : Token → Instr
  | .lit v => .lit v
  | .ref e l => .ref e l
  | .term => .term
  | .term2 => .term2

/-- How many bits a decoder reads for a token (30_encoding.md R108). For TERM2 that is 14 too: the 2 bits stored and
12 zeros after them (30_encoding.md R106). -/
def Token.width : Token → Nat
  | .lit _ => 9
  | .ref _ _ => 18
  | .term => 14
  | .term2 => 14

/-- The token at a position of a buffer of `len` bytes (30_encoding.md R108, 41_lzss_decompress.md R160 to R168):
the tag, then the byte, or the index and, when the index is not zero, the length. Total on any bytes
(30_encoding.md R110); `none` only where `rd` has no byte below `len`. DESIGN CHOICE (log 10): a terminator whose 14
bits all lie below `len` is TERM, one completed by end-of-buffer zeros is TERM2. -/
def decodeToken (rd : Nat → Option Byte) (len : Nat) (pos : BitPos) : Option Token :=
  (readBits rd len 1 pos).bind fun tag =>
    if tag.1 = 1 then
      (readBits rd len 8 tag.2).map fun v => .lit (BitVec.ofNat 8 v.1)
    else
      (readBits rd len Config.idxBits tag.2).bind fun e =>
        if e.1 = 0 then
          some (if (skipBits len Config.idxBits pos).cur < len then .term else .term2)
        else
          (readBits rd len Config.lenBits e.2).map fun l => .ref (BitVec.ofNat 13 e.1) (BitVec.ofNat 4 l.1)

/-- The first token of a buffer; an empty buffer holds none (41_lzss_decompress.md R162). -/
def decodeStream (bytes : List Byte) : Option Token :=
  if bytes.length = 0 then none else decodeToken (fun a => bytes[a]?) bytes.length BitPos.first

/-- What an instruction is written as: a command word for CMD (30_encoding.md R100), or the bytes of a stream that
hold one token from bit 7 of the first byte on, zero-filled to the end of the last (30_encoding.md R107, R112). -/
inductive Encoding where
  | word (w : Word)
  | stream (bytes : List Byte)
deriving DecidableEq, Repr

/-- The command word `[31:5] = 0 | SEL | OP` (30_encoding.md R100). -/
def cmdWord (op : BitVec 4) (sel : Space) : Word := 0#27 ++ selBit sel ++ op

/-- The `width` bits of `val`, most significant first, packed from bit 7 of the first byte and zero-filled
(30_encoding.md R107). -/
def packBits (width val : Nat) : List Byte :=
  (List.range ((width + 7) / 8)).map fun i =>
    BitVec.ofNat 8 ((val <<< (8 * ((width + 7) / 8) - width)) >>> (8 * ((width + 7) / 8 - 1 - i)))

/-- The encoder, from the encoding tables of 30_encoding.md R100 and R103 to R106. -/
def encode : Instr → Encoding
  | .readBits sel => .word (cmdWord 0x1 sel)
  | .writeBits sel => .word (cmdWord 0x2 sel)
  | .decompress sel => .word (cmdWord 0x3 sel)
  | .compress sel => .word (cmdWord 0x4 sel)
  | .decrypt sel => .word (cmdWord 0x5 sel)
  | .encrypt sel => .word (cmdWord 0x6 sel)
  | .decode sel => .word (cmdWord 0x7 sel)
  | .encode sel => .word (cmdWord 0x8 sel)
  | .badOp w => .word w
  | .lit v => .stream (packBits 9 (1#1 ++ v).toNat)
  | .ref e l => .stream (packBits 18 (0#1 ++ e ++ l).toNat)
  | .term => .stream (packBits 14 0)
  | .term2 => .stream (packBits 2 0)

/-- The instruction an encoding holds. -/
def decode : Encoding → Option Instr
  | .word w => some (decodeCmd w)
  | .stream bytes => (decodeStream bytes).map Token.instr

/-- The bytes of a token row's word: byte `i` of the stream is bits `8 i + 7 .. 8 i` of `w` (log 17). -/
def tableBytes (nbits w : Nat) : List Byte :=
  (List.range (nbits / 8)).map fun i => BitVec.ofNat 8 (w >>> (8 * i))

/-- The instruction of a word of spec/opcode_table.json: a row of 32 bits is a command word, a shorter row a token's
bytes (log 17). -/
def decodeTableWord (nbits w : Nat) : Option Instr :=
  if nbits = 32 then decode (.word (BitVec.ofNat 32 w)) else decode (.stream (tableBytes nbits w))

end Sys2Proof
end

