-- ==== Sys2Proof/Machine/Tokens.lean ====
section
/-! DEFINITION. The meanings of the tokens LIT, REF, TERM and TERM2 (41_lzss_decompress.md section 1). A token's
meaning stands at its first bit: it moves the read engine over the token and does what the token does (log 11). -/

namespace Sys2Proof.Machine

open Host (Outcome)

/-- The read engine moves over `n` bits of SRC (40_bitstream.md R141 to R143, 10_state.md R46). -/
def State.skipToken (s : State) (n : Nat) : State := { s with rd := skipBits s.srcLen.toNat n s.rd }

/-- Emit (41_lzss_decompress.md R165): the byte is stored below DST_LEN, else `ovr` is set; it always enters HIST and
always counts. -/
def State.emit (s : State) (v : Byte) : Option State :=
  (if s.q < s.dstLen.toNat then s.memWrite .dst s.q v else some { s with ovr := true }).map fun s' =>
    { s'.histWrite s'.q v with q := s'.q + 1 }

/-- The copy loop of a REF: `n` bytes from HIST index `i` on, each read before its own Emit and after the one before
it (41_lzss_decompress.md R164, R166). -/
def State.copyHist : Nat → Nat → State → Option State
  | 0, _, s => some s
  | n + 1, i, s => (s.emit (s.histRead i)).bind (State.copyHist n (i + 1))

/-- LIT (41_lzss_decompress.md R163). -/
def litRule (v : Byte) (s : State) : Option State := (s.skipToken 9).emit v

/-- A terminator: the tag and the 13 index bits are read, `term` is set, no length is read
(41_lzss_decompress.md R168). -/
def termRule (s : State) : Option State := some { s.skipToken 14 with term := true }

/-- REF (41_lzss_decompress.md R164): start `e - 1`, length `l + 3`. Its rule sends an index of 0 to the
terminator's. -/
def refRule (e : BitVec 13) (l : BitVec 4) (s : State) : Option State :=
  if e = 0#13 then termRule s
  else State.copyHist (l.toNat + Config.minMatch) (e.toNat - 1) (s.skipToken 18)

/-- LIT (41_lzss_decompress.md R163). -/
def execLit (v : Byte) (s : State) : Outcome State Fault Refusal := outcome (litRule v s)

/-- REF (41_lzss_decompress.md R164). -/
def execRef (e : BitVec 13) (l : BitVec 4) (s : State) : Outcome State Fault Refusal := outcome (refRule e l s)

/-- TERM (41_lzss_decompress.md R168). -/
def execTerm (s : State) : Outcome State Fault Refusal := outcome (termRule s)

/-- TERM2, the truncated terminator: it decodes and acts as TERM (41_lzss_decompress.md R168, R175). -/
def execTerm2 (s : State) : Outcome State Fault Refusal := outcome (termRule s)

end Sys2Proof.Machine
end

