-- ==== Sys2Proof/Machine/Decompress.lean ====
section
/-! DEFINITION. DECOMPRESS (41_lzss_decompress.md section 2). -/

namespace Sys2Proof.Machine

open Host (Outcome)

/-- One token's effect (41_lzss_decompress.md R160). -/
def runToken : Token → State → Option State
  | .lit v, s => litRule v s
  | .ref e l, s => refRule e l s
  | .term, s => termRule s
  | .term2, s => termRule s

/-- The token at the read position of SRC (41_lzss_decompress.md R160). -/
def State.fetchToken (s : State) : Option Token := decodeToken (s.memRead .src) s.srcLen.toNat s.rd

/-- What DECOMPRESS sets before its loop (41_lzss_decompress.md R171, 10_state.md R54). -/
def decompressInit (s : State) : State :=
  { s with rd := BitPos.first, q := 0, term := false, ovr := false, hist := s.launch.histInit }

/-- The token loop (41_lzss_decompress.md R171): the exhaustion test at the head of each token only (R162), then one
token; a terminator ends it. The count bounds the iterations (R172, log 15). -/
def decompressLoop : Nat → State → Option State
  | 0, s => some s
  | n + 1, s =>
    if s.srcLen.toNat ≤ s.rd.cur then some s
    else
      s.fetchToken.bind fun tok =>
        (runToken tok s).bind fun s' => if s'.term then some s' else decompressLoop n s'

/-- `Decompress(len)` with `len = SRC_LEN` (41_lzss_decompress.md R171): the loop, then WARN_NOTERM and OVERRUN. Every
token read below the end moves the read position at least one bit, so 8 × len iterations suffice. -/
def decompressRun (s : State) : Option State :=
  (decompressLoop (8 * s.srcLen.toNat) (decompressInit s)).map fun s' =>
    { s' with status := decompressStatus s'.status s'.term s'.ovr }

/-- The rule of DECOMPRESS after its checks (41_lzss_decompress.md R171). -/
def decompressRule (s : State) : Option State :=
  (decompressRun s).map fun s' => { s' with resultLen := BitVec.ofNat 32 s'.q }

/-- DECOMPRESS (41_lzss_decompress.md R171). SEL is ignored (10_state.md R34). -/
def execDecompress (_sel : Space) (s : State) : Outcome State Fault Refusal :=
  runCommand checkBothLens decompressRule s

end Sys2Proof.Machine
end

