-- ==== Sys2Proof/Machine/Pipeline.lean ====
section
/-! DEFINITION. The fixed pipelines DECODE and ENCODE (44_pipeline.md). -/

namespace Sys2Proof.Machine

open Host (Outcome)

/-- The rule of DECODE after its checks (44_pipeline.md R220): layer A, then layer B, each decrypting SRC in place,
then decompression into DST; RESULT_LEN is `q` and ERR_SIZE says `q ≠ DST_LEN` (R221). -/
def decodeRule (s : State) : Option State :=
  (cipherRun true .src s.srcLen.toNat Config.layerA s).bind fun s1 =>
    (cipherRun true .src s.srcLen.toNat Config.layerB s1).bind fun s2 =>
      (decompressRun s2).map fun s3 =>
        { s3 with
          resultLen := BitVec.ofNat 32 s3.q
          status := setFlag s3.status flagErrSize (decide (s3.q ≠ s3.dstLen.toNat)) }

/-- The rule of ENCODE after its checks (44_pipeline.md R222): compression into DST, then layer B and layer A
encrypting the compressed length `Lc` of DST; RESULT_LEN is `Lc`. -/
def encodeRule (s : State) : Option State :=
  (compressRun s).bind fun s1 =>
    (cipherRun false .dst (s1.wr.cur + 1) Config.layerB s1).bind fun s2 =>
      (cipherRun false .dst (s1.wr.cur + 1) Config.layerA s2).map fun s3 =>
        { s3 with resultLen := BitVec.ofNat 32 (s1.wr.cur + 1) }

/-- DECODE (44_pipeline.md R220). SEL is ignored (10_state.md R34). -/
def execDecode (_sel : Space) (s : State) : Outcome State Fault Refusal := runCommand checkBothLens decodeRule s

/-- ENCODE (44_pipeline.md R222). SEL is ignored (10_state.md R34). -/
def execEncode (_sel : Space) (s : State) : Outcome State Fault Refusal := runCommand checkCompress encodeRule s

end Sys2Proof.Machine
end

