-- ==== Sys2Proof/Machine/Reserved.lean ====
section
/-! DEFINITION. BAD_OP, every reserved command word (60_exceptions.md R244, R245). -/

namespace Sys2Proof.Machine

open Host (Outcome)

/-- BAD_OP (60_exceptions.md R240, R241, 30_encoding.md R101): STATUS is cleared and the fault is taken. The word is
not stored (10_state.md R34). -/
def execBadOp (_w : Word) (s : State) : Outcome State Fault Refusal := .next (s.issue.takeFault .badOp)

end Sys2Proof.Machine
end

