-- ==== Sys2Proof/Machine/Dispatch.lean ====
section
/-! DEFINITION. One arm per instruction of spec/opcode_table.json. -/

namespace Sys2Proof.Machine

def exec (i : Instr) (s : State) : Host.Outcome State Fault Refusal :=
  match i with
  | .readBits sel => Sys2Proof.Machine.execReadBits sel s
  | .writeBits sel => Sys2Proof.Machine.execWriteBits sel s
  | .decompress sel => Sys2Proof.Machine.execDecompress sel s
  | .compress sel => Sys2Proof.Machine.execCompress sel s
  | .decrypt sel => Sys2Proof.Machine.execDecrypt sel s
  | .encrypt sel => Sys2Proof.Machine.execEncrypt sel s
  | .decode sel => Sys2Proof.Machine.execDecode sel s
  | .encode sel => Sys2Proof.Machine.execEncode sel s
  | .badOp w => Sys2Proof.Machine.execBadOp w s
  | .lit v => Sys2Proof.Machine.execLit v s
  | .ref e l => Sys2Proof.Machine.execRef e l s
  | .term => Sys2Proof.Machine.execTerm s
  | .term2 => Sys2Proof.Machine.execTerm2 s

end Sys2Proof.Machine
end

