-- ==== Sys2Proof/Machine/HostPort.lean ====
section
/-! DEFINITION. The host's four transactions (30_encoding.md R102): register read and write, memory read and write.
A write of CMD runs the command it encodes. -/

namespace Sys2Proof.Machine

open Host (Outcome)

/-- The register map (10_state.md R31). -/
def regOfSlot (slot : Fin 16) : Reg :=
  match slot.val with
  | 0 => .cmd
  | 1 => .status
  | 2 => .srcLen
  | 3 => .dstLen
  | 4 => .resultLen
  | 5 => .ciphBlock
  | 6 => .ciphKey
  | 7 => .bitCursor
  | 8 => .bitMask
  | 9 => .bitN
  | 10 => .bitData
  | _ => .reserved

/-- What a host read of a register returns (10_state.md R31, R53): CMD and the reserved slots read 0, and so do the
reserved bits of every register. -/
def State.readReg (s : State) : Reg → Word
  | .cmd => 0#32
  | .status => s.status
  | .srcLen => s.srcLen
  | .dstLen => s.dstLen
  | .resultLen => s.resultLen
  | .ciphBlock => s.ciphBlock
  | .ciphKey => s.ciphKey.setWidth 32
  | .bitCursor => s.bitCursor
  | .bitMask => s.bitMask.setWidth 32
  | .bitN => s.bitN.setWidth 32
  | .bitData => s.bitData.setWidth 32
  | .reserved => 0#32

/-- A host write of a register other than CMD (10_state.md R31, R53): reserved bits are dropped, and a write of
STATUS, RESULT_LEN or a reserved slot is ignored. CMD stores nothing (10_state.md R34). -/
def State.writeReg (s : State) (data : Word) : Reg → State
  | .cmd => s
  | .status => s
  | .srcLen => { s with srcLen := data }
  | .dstLen => { s with dstLen := data }
  | .resultLen => s
  | .ciphBlock => { s with ciphBlock := data }
  | .ciphKey => { s with ciphKey := data.setWidth 16 }
  | .bitCursor => { s with bitCursor := data }
  | .bitMask => { s with bitMask := data.setWidth 8 }
  | .bitN => { s with bitN := data.setWidth 5 }
  | .bitData => { s with bitData := data.setWidth 16 }
  | .reserved => s

/-- The host gets a value back (20_memory.md R87; log 2). -/
def State.reply (s : State) (r : Reply) : State := { s with replies := s.replies ++ [r] }

/-- What the host may do while BUSY: read STATUS, nothing else (70_reset_and_hazards.md R281). -/
def HostOp.whileBusy : HostOp → Bool
  | .wr _ _ => false
  | .rd slot => decide (regOfSlot slot = .status)
  | .mw _ _ _ => false
  | .mr _ _ => false

/-- A host register write: of CMD, the command it encodes (60_exceptions.md R240); else the register's write. -/
def hostWrite (slot : Fin 16) (data : Word) (s : State) : Outcome State Fault Refusal :=
  if regOfSlot slot = .cmd then exec (decodeCmd data) s else .next (s.writeReg data (regOfSlot slot))

/-- One host transaction, the core IDLE (30_encoding.md R102, 20_memory.md R73). An offset outside the memory stops
(log 13). -/
def hostAccess (op : HostOp) (s : State) : Outcome State Fault Refusal :=
  match op with
  | .wr slot data => hostWrite slot data s
  | .rd slot => .next (s.reply (.reg slot (s.readReg (regOfSlot slot))))
  | .mw sp a v =>
    match s.memWrite sp a v with
    | some s' => .next s'
    | none => .fault .hostOutOfRange
  | .mr sp a =>
    match s.memRead sp a with
    | some v => .next (s.reply (.byte sp a v))
    | none => .fault .hostOutOfRange

/-- One host transaction. While BUSY the model has no move but a STATUS read (70_reset_and_hazards.md R281, 93 I24;
log 14). -/
def hostStep (op : HostOp) (s : State) : Outcome State Fault Refusal :=
  if s.core = .busy ∧ op.whileBusy = false then .refused .hostAccessWhileBusy else hostAccess op s

/-- `CMD MNEMONIC[, SEL]` of 30_encoding.md R114: a write of the word to CMD. -/
def HostOp.cmd (w : Word) : HostOp := .wr 0 w

/-- Place a token row's bytes at the start of SRC, in SRC_LEN bytes, in an SRC large enough for them (log 17). -/
def State.withStream (s : State) (bytes : List Byte) : State :=
  { s with
    src := Memory.writeBytes s.src 0 bytes
    srcLen := BitVec.ofNat 32 bytes.length
    launch := { s.launch with srcMem := max s.launch.srcMem bytes.length } }

/-- The next host transaction is a write of `w` to CMD, the core IDLE (log 1). -/
def State.withCommand (s : State) (w : Word) : State := { s with core := .idle, host := HostOp.cmd w :: s.host }

end Sys2Proof.Machine
end

