-- ==== Sys2Proof/Machine/Step.lean ====
section
/-! DEFINITION. One step of the machine: the host's next transaction. -/

namespace Sys2Proof.Machine

open Host (Outcome)

/-- One step (00_scope.md R6, R30): the host's next transaction is taken off its queue and done. With none pending the
core stays as it is (60_exceptions.md R256; log 1). -/
def step (s : State) : Outcome State Fault Refusal :=
  match s.host with
  | [] => .next s
  | op :: rest => hostStep op { s with host := rest }

/-- `s` with an instruction of spec/opcode_table.json to run next. A command row (32 bits) is the next host
transaction, a write of CMD. A token row's bytes stand at the start of SRC and the next host transaction is DECOMPRESS,
whose loop runs the token first (log 11, log 17). -/
def State.withFetchWord (s : State) (nbits w : Nat) : State :=
  if nbits = 32 then s.withCommand (BitVec.ofNat 32 w)
  else (s.withStream (tableBytes nbits w)).withCommand (cmdWord 0x3 .src)

end Sys2Proof.Machine
end

