-- ==== Sys2Proof/Safety.lean ====
section
/-! DEFINITION. The terms claims are stated in: the launch premises of 70_reset_and_hazards.md R274, the invariant of
the reachable states, and the spec's own ways to read a result (stream bits, the cipher's position map, match
lengths). Nothing here is used by the machine. -/

/-- Whether a token ends its stream (41_lzss_decompress.md R168). -/
def Sys2Proof.Token.ends : Sys2Proof.Token → Bool
  | .lit _ => false
  | .ref _ _ => false
  | .term => true
  | .term2 => true

namespace Sys2Proof.Machine

/-- `MemSizes` (70_reset_and_hazards.md R274, 00_scope.md R8). -/
def MemSizes (s : State) : Prop :=
  s.launch.srcMem ≤ Config.srcMemMax ∧ s.launch.dstMem ≤ Config.dstMemMax

/-- The register values of `PowerOnReset` (70_reset_and_hazards.md R270, R274), and the core IDLE. -/
def PowerOnReset (s : State) : Prop :=
  s.core = .idle ∧ s.status = 0#32 ∧ s.srcLen = 0#32 ∧ s.dstLen = 0#32 ∧ s.resultLen = 0#32 ∧ s.ciphBlock = 0#32 ∧
    s.ciphKey = 0#16 ∧ s.bitCursor = 0#32 ∧ s.bitMask = 0x80#8 ∧ s.bitN = 0#5 ∧ s.bitData = 0#16

/-- `NoFault` (70_reset_and_hazards.md R274, R291): no command of the run so far faulted. -/
def NoFault (s : State) : Prop := s.faultLog = []

/-- The host's part of `HostDuties` that the model can see (20_memory.md R73): its memory transactions stay within the
memories. -/
def HostOp.inRange (s : State) : HostOp → Prop
  | .wr _ _ => True
  | .rd _ => True
  | .mw sp a _ => a < s.size sp
  | .mr sp a => a < s.size sp

/-- `n` steps: the first `n` transactions of the host's program (30_encoding.md R114, 70_reset_and_hazards.md R291). -/
def run (n : Nat) (s : State) : Host.Outcome State Fault Refusal :=
  Host.Core.run { State := State, Fault := Fault, Refusal := Refusal, step := step, reset := State.reset } n s

/-- A safe run (70_reset_and_hazards.md R291): `n` steps reach a state, and no command of them faulted. -/
def SafeRun (n : Nat) (s : State) : Prop := ∃ t, run n s = .next t ∧ NoFault t

/-- `HistInit` (70_reset_and_hazards.md R274): the HIST_INIT that every DECOMPRESS of the run starts with. -/
def HistInit (init : Memory) (s : State) : Prop := s.launch.histInit = init

/-- The host's duty of 70_reset_and_hazards.md R281 at a state: while BUSY its next transaction is a STATUS read. -/
def KeepsBusyDuty (s : State) : Prop := s.core = .busy → ∀ op rest, s.host = op :: rest → op.whileBusy = true

/-- The host's duty of 70_reset_and_hazards.md R282 where a stream of `width` bits starts: every DST byte that a bit of the
stream will reach, from the bit position on, is zero. -/
def DstZeroed (width : Nat) (s : State) : Prop :=
  ∀ a, s.bitCursor.toNat ≤ a → 8 * a < bitOffset s.bitPos + width → s.byteAt .dst a = 0#8

end Sys2Proof.Machine

/-- A sequence of WRITE_BITS whose result a claim speaks of (70_reset_and_hazards.md R282): how many host transactions of
the run come before its first WRITE_BITS, and how many bits the sequence writes. -/
structure Sys2Proof.ClaimedStream where
  first : Nat
  width : Nat
deriving DecidableEq, Repr

namespace Sys2Proof.Machine

/-- `HostDuties` (70_reset_and_hazards.md R274): along the run from `s` the host keeps R281, and R282 for every claimed
stream of WRITE_BITS. -/
def HostDuties (streams : List ClaimedStream) (s : State) : Prop :=
  (∀ n t, run n s = .next t → KeepsBusyDuty t) ∧
    ∀ w, w ∈ streams → ∀ t, run w.first s = .next t → DstZeroed w.width t

/-- The launch premises of a claim about a host program of `n` transactions, by the names of 70_reset_and_hazards.md R274.
`noFault` holds the table of R273 too: an operand outside it fails an issue check (60_exceptions.md R244). -/
structure LaunchPremises (n : Nat) (init : Memory) (streams : List ClaimedStream) (s : State) : Prop where
  powerOnReset : PowerOnReset s
  memSizes     : MemSizes s
  histInit     : HistInit init s
  hostDuties   : HostDuties streams s
  noFault      : SafeRun n s

/-- A host's WRITE_BITS sequence: for each field, BIT_N, BIT_DATA and the command (30_encoding.md R114). -/
def fieldProgram : List (BitVec 5 × BitVec 16) → List HostOp
  | [] => []
  | f :: rest => .wr 9 (f.1.setWidth 32) :: .wr 10 (f.2.setWidth 32) :: .cmd (cmdWord 0x2 .src) :: fieldProgram rest

/-- Every memory is in its canonical form. -/
def MemoriesCanonical (s : State) : Prop :=
  Memory.wf s.src = true ∧ Memory.wf s.dst = true ∧ Memory.wf s.hist = true ∧ Memory.wf s.scratch = true ∧
    Memory.wf s.launch.histInit = true

/-- No memory lists an address its space does not have (20_memory.md R70). -/
def MemoriesInRange (s : State) : Prop :=
  Memory.below s.launch.srcMem s.src = true ∧ Memory.below s.launch.dstMem s.dst = true ∧
    Memory.below Config.histSize s.hist = true ∧ Memory.below Config.histSize s.launch.histInit = true

/-- The counters the spec gives as u32 fit 32 bits, and `best` and `k` stay in 0 to 18 (00_scope.md R8,
10_state.md R33, R49). -/
def CountersFit (s : State) : Prop :=
  s.rd.cur < 2 ^ 32 ∧ s.wr.cur < 2 ^ 32 ∧ s.q < 2 ^ 32 ∧ s.p < 2 ^ 32 ∧ s.bs < 2 ^ 32 ∧ s.cap < 2 ^ 32 ∧ s.c < 2 ^ 32 ∧
    s.start < 2 ^ 32 ∧ s.b < 2 ^ 32 ∧ s.t < 2 ^ 32 ∧ s.P < 2 ^ 32 ∧ s.d ≤ Config.histSize ∧ s.best ≤ Config.maxMatch ∧
    s.k ≤ Config.maxMatch

/-- The invariant of the reachable states. -/
structure Inv (s : State) : Prop where
  memSizes  : MemSizes s
  canonical : MemoriesCanonical s
  inRange   : MemoriesInRange s
  idle      : s.core = .idle
  status    : legalStatus s.status = true
  masks     : oneHot s.rd.mask = true ∧ oneHot s.wr.mask = true
  counters  : CountersFit s

/-- Bit `o` of a memory in stream order: bit 7 of byte 0 is bit 0 of the stream (00_scope.md R11, R12). -/
def streamBit (mem : Memory) (o : Nat) : Bool := (Memory.read mem (o / 8)).getLsbD (7 - o % 8)

/-- Bit `o` as the reader sees it: 0 from the end of the buffer on (40_bitstream.md R143). -/
def readableBit (mem : Memory) (len o : Nat) : Bool := decide (o < 8 * len) && streamBit mem o

/-- The `n` bits from `o` on as an unsigned number, the first bit most significant (00_scope.md R12). -/
def bitField (bits : Nat → Bool) : Nat → Nat → Nat
  | _, 0 => 0
  | o, n + 1 => 2 ^ n * (bits o).toNat + bitField bits (o + 1) n

/-- The position at linear bit offset `o` (40_bitstream.md R140). -/
def posAt (o : Nat) : BitPos := { cur := o / 8, mask := 0x80#8 >>> (o % 8) }

/-- The position a read of `n` bits from offset `o` ends at (40_bitstream.md R143, R146): past the end it holds. -/
def readEnd (len o n : Nat) : BitPos :=
  if o + n ≤ 8 * len then posAt (o + n) else if 8 * len ≤ o then posAt o else posAt (8 * len)

/-- The token whose first bit is bit `o` of a stream of `len` bytes, read off its bits (30_encoding.md R103 to R108):
`bits` is the stream as the reader sees it. -/
def tokenAt (bits : Nat → Bool) (len o : Nat) : Token :=
  if bits o then .lit (BitVec.ofNat 8 (bitField bits (o + 1) 8))
  else if bitField bits (o + 1) 13 = 0 then if o + 13 < 8 * len then .term else .term2
  else .ref (BitVec.ofNat 13 (bitField bits (o + 1) 13)) (BitVec.ofNat 4 (bitField bits (o + 14) 4))

/-- The position map `T_b` of a cipher block (43_cipher.md R204). -/
def targetOffset (b j : Nat) : Nat :=
  if j < (b + 1) / 2 then b - 1 - 2 * j else b - 2 - 2 * (j - (b + 1) / 2)

/-- The size of the cipher block that holds the processed offset `x` (43_cipher.md R203). -/
def blockSizeAt (layer : Layer) (P x : Nat) : Nat :=
  min layer.blockSize (P - x / layer.blockSize * layer.blockSize)

/-- The offset that the ascending cursor `x` pairs with: `start + T_b(x - start)` (43_cipher.md R204). -/
def cipherTarget (layer : Layer) (P x : Nat) : Nat :=
  x / layer.blockSize * layer.blockSize + targetOffset (blockSizeAt layer P x) (x % layer.blockSize)

/-- The running mask at cursor `c`: `(M0 + c I) mod 256` (43_cipher.md R207). -/
def maskAt (layer : Layer) (c : Nat) : Byte := layer.baseMask + BitVec.ofNat 8 c * layer.maskInc

/-- What one cipher run does to a memory, in closed form (43_cipher.md R207): from `before` to `after`, `P` bytes
processed. -/
def CipherRelates (decrypting : Bool) (layer : Layer) (P : Nat) (before after : Memory) : Prop :=
  (∀ x, x < P →
    if decrypting then
      Memory.read after (cipherTarget layer P x) = Memory.read before x ^^^ maskAt layer x
    else Memory.read after x = Memory.read before (cipherTarget layer P x) ^^^ maskAt layer x) ∧
  ∀ x, P ≤ x → Memory.read after x = Memory.read before x

/-- `T_b` is a bijection of `0..b-1` (43_cipher.md R204, R208). -/
def PositionMapBijective (b : Nat) : Prop :=
  (∀ j, j < b → targetOffset b j < b) ∧
    (∀ i j, i < b → j < b → targetOffset b i = targetOffset b j → i = j) ∧
    ∀ x, x < b → ∃ j, j < b ∧ targetOffset b j = x

/-- The inverse law for one run over `len` bytes of a memory with one key (43_cipher.md R208): the run of the other
direction after it computes the same P and restores every byte. -/
def RunIsUndone (decrypting : Bool) (sp : Space) (len : Nat) (layer : Layer) (s : State) : Prop :=
  ∃ t u, cipherRun decrypting sp len layer s = some t ∧ cipherRun (!decrypting) sp len layer t = some u ∧ u.P = t.P ∧
    ∀ a, u.byteAt sp a = s.byteAt sp a

/-- How far `SRC[a + k]` and `SRC[p + k]` agree, for `k` below 18 and `p + k` below N: the match length of candidate
`a` at `p` (42_lzss_compress.md R183, R186). -/
def matchLength (src : Memory) (n a p : Nat) : Nat :=
  ((List.range Config.maxMatch).takeWhile fun k =>
    decide (p + k < n) && (Memory.read src (a + k) == Memory.read src (p + k))).length

/-- A candidate start of the search at `p` (42_lzss_compress.md R181, R182): in the window, its residue not 8191. -/
def IsCandidate (p a : Nat) : Prop := a < p ∧ p ≤ a + Config.histSize ∧ a % Config.histSize ≠ Config.skipPos

/-- HIST holds the source bytes behind `p` (42_lzss_compress.md R186 (a)). -/
def HistMirrorsSrc (s : State) : Prop :=
  ∀ x, x < s.p → s.p ≤ x + Config.histSize → s.histRead x = Memory.read s.src x

/-- What HIST index `i` holds once the bytes `out` have been produced, oldest first: the byte at the largest position
congruent to `i`, else HIST_INIT's (10_state.md R45, 41_lzss_decompress.md R167). -/
def histAfter (init : Memory) (out : List Byte) (i : Nat) : Byte :=
  if i % Config.histSize < out.length then
    out.getD (out.length - 1 - (out.length - 1 - i % Config.histSize) % Config.histSize) 0#8
  else Memory.read init (i % Config.histSize)

/-- The state's HIST and count agree with the bytes produced so far, in the words of 10_state.md R45: every entry that a
produced position names holds the byte of the largest such position, every other its start value. -/
def HistHolds (s : State) (out : List Byte) : Prop :=
  s.q = out.length ∧
    (∀ x, x < out.length → out.length ≤ x + Config.histSize → s.histRead x = out.getD x 0#8) ∧
    ∀ i, i < Config.histSize → out.length ≤ i → s.histRead i = Memory.read s.launch.histInit i

/-- The `n` bytes a REF from history index `r` on copies after `out`, each one looked up with the ones before it produced
(41_lzss_decompress.md R164, R166). -/
def copiedBytes (init : Memory) (out : List Byte) (r : Nat) : Nat → List Byte
  | 0 => []
  | n + 1 => histAfter init out r :: copiedBytes init (out ++ [histAfter init out r]) (r + 1) n

/-- The bytes a token produces after `out` (41_lzss_decompress.md R163, R164, R168). -/
def tokenBytes (init : Memory) (out : List Byte) : Token → List Byte
  | .lit v => [v]
  | .ref e l => copiedBytes init out (e.toNat - 1) (l.toNat + Config.minMatch)
  | .term => []
  | .term2 => []

/-- The bytes a stream of `len` bytes produces from bit `o` on, after `out`, and whether a terminator ended it: the loop
of 41_lzss_decompress.md R171 on a plain list instead of HIST and DST. The first argument counts tokens. -/
def streamOutput (init : Memory) (bits : Nat → Bool) (len : Nat) : Nat → Nat → List Byte → List Byte × Bool
  | 0, _, out => (out, false)
  | n + 1, o, out =>
    if 8 * len ≤ o then (out, false)
    else if (tokenAt bits len o).ends then (out, true)
    else streamOutput init bits len n (o + (tokenAt bits len o).width) (out ++ tokenBytes init out (tokenAt bits len o))

/-- The bit string `bits(v, n)`: `n` bits, the first one `v[n-1]` (00_scope.md R12). -/
def bitString (v n : Nat) : List Bool := (List.range n).map fun i => v.testBit (n - 1 - i)

/-- The bits that a sequence of fields writes, in stream order (40_bitstream.md R145, R149). -/
def fieldString (fields : List (BitVec 5 × BitVec 16)) : List Bool :=
  fields.flatMap fun f => bitString f.2.toNat f.1.toNat

/-- A token as a bit string (30_encoding.md R103 to R106). -/
def tokenString : Token → List Bool
  | .lit v => true :: bitString v.toNat 8
  | .ref e l => false :: (bitString e.toNat 13 ++ bitString l.toNat 4)
  | .term => false :: bitString 0 13
  | .term2 => [false, false]

/-- A canonical stream's bits: its data tokens, then the truncated terminator (30_encoding.md R112). -/
def canonicalString (toks : List Token) : List Bool := toks.flatMap tokenString ++ tokenString .term2

/-- The start that COMPRESS chooses at `p`: the longest match of any candidate, the nearest among the longest
(42_lzss_compress.md R184). -/
def IsBestStart (src : Memory) (n p a : Nat) : Prop :=
  IsCandidate p a ∧ ∀ a', IsCandidate p a' →
    matchLength src n a' p ≤ matchLength src n a p ∧ (a < a' → matchLength src n a' p < matchLength src n a p)

/-- The token list that 42_lzss_compress.md R180 to R185 give the source from position `p` on. -/
def CanonicalTokens (src : Memory) (n : Nat) : Nat → List Token → Prop
  | p, [] => p = n
  | p, .lit v :: rest =>
    p < n ∧ v = Memory.read src p ∧ (∀ a, IsCandidate p a → matchLength src n a p < Config.minMatch) ∧
      CanonicalTokens src n (p + 1) rest
  | p, .ref e l :: rest =>
    p < n ∧ (∃ a, IsBestStart src n p a ∧ matchLength src n a p = l.toNat + Config.minMatch ∧
      e.toNat = a % Config.histSize + 1) ∧ CanonicalTokens src n (p + (l.toNat + Config.minMatch)) rest
  | _, .term :: _ => False
  | _, .term2 :: _ => False

/-- The source bytes that a list of compressor's tokens covers (42_lzss_compress.md R185). -/
def coveredBytes (toks : List Token) : Nat :=
  (toks.map fun tok => match tok with
    | .lit _ => 1
    | .ref _ l => l.toNat + Config.minMatch
    | .term => 0
    | .term2 => 0).sum

/-- What a host sees: the interface registers other than STATUS, which a command clears, SRC, DST and the launch
parameters (10_state.md R51). -/
def SameVisible (s t : State) : Prop :=
  s.srcLen = t.srcLen ∧ s.dstLen = t.dstLen ∧ s.resultLen = t.resultLen ∧ s.ciphBlock = t.ciphBlock ∧
    s.ciphKey = t.ciphKey ∧ s.bitCursor = t.bitCursor ∧ s.bitMask = t.bitMask ∧ s.bitN = t.bitN ∧
    s.bitData = t.bitData ∧ s.src = t.src ∧ s.dst = t.dst ∧ s.launch = t.launch

/-- The interface registers that no command writes (10_state.md R36, R37, R39, R40, R43), the launch parameters and
the host's queue and replies. -/
def SameOperands (s t : State) : Prop :=
  t.srcLen = s.srcLen ∧ t.dstLen = s.dstLen ∧ t.ciphBlock = s.ciphBlock ∧ t.ciphKey = s.ciphKey ∧ t.bitN = s.bitN ∧
    t.launch = s.launch ∧ t.host = s.host ∧ t.replies = s.replies

/-- The BIT_* registers READ_BITS and WRITE_BITS own (70_reset_and_hazards.md R287). -/
def SameBitRegs (s t : State) : Prop :=
  t.bitCursor = s.bitCursor ∧ t.bitMask = s.bitMask ∧ t.bitData = s.bitData

/-- The read engine and the decompressor's registers, HIST among them (10_state.md R45, R46, R48). -/
def SameDecompressor (s t : State) : Prop :=
  t.rd = s.rd ∧ t.q = s.q ∧ t.term = s.term ∧ t.ovr = s.ovr

/-- The write engine and the compressor's registers (10_state.md R47, R49). -/
def SameCompressor (s t : State) : Prop :=
  t.wr = s.wr ∧ t.p = s.p ∧ t.best = s.best ∧ t.bs = s.bs ∧ t.d = s.d ∧ t.k = s.k ∧ t.cap = s.cap

/-- The cipher's registers and SCRATCH (10_state.md R50). -/
def SameCipher (s t : State) : Prop :=
  t.m = s.m ∧ t.c = s.c ∧ t.start = s.start ∧ t.b = s.b ∧ t.t = s.t ∧ t.P = s.P ∧ t.scratch = s.scratch

/-- STATUS at the end of a command that did not fault: DONE, and the three conditions (60_exceptions.md R242, R243). -/
def endStatus (warnNoterm errSize overrun : Bool) : Word :=
  0x00000002#32 ||| (if warnNoterm then 0x00000004#32 else 0#32) ||| (if errSize then 0x00000008#32 else 0#32) |||
    (if overrun then 0x00000010#32 else 0#32)

/-- The FCODE of each fault, as the table of 60_exceptions.md R245 numbers them. -/
def faultNumber : FaultCode → Word
  | .badOp => 1#32
  | .badWidth => 2#32
  | .badMask => 3#32
  | .badLen => 4#32
  | .badBlock => 5#32
  | .noSpace => 6#32

/-- The state after a fault (60_exceptions.md R241): STATUS holds FAULT, DONE and FCODE and nothing else, the core is
IDLE, and the model's fault log has the code; everything else is as it was. -/
def afterFault (s : State) (code : FaultCode) : State :=
  { s with
    core := .idle
    status := 0x00000022#32 ||| (faultNumber code <<< 8)
    faultLog := s.faultLog ++ [code] }

/-- Taking the fault `code` in the words of 60_exceptions.md R241: STATUS holds FAULT, DONE and FCODE, the core is IDLE,
nothing else of the core changes. Of the model's own fault log it says nothing. -/
def TakesFault (i : Instr) (s : State) (code : FaultCode) : Prop :=
  ∃ t, exec i s = .next t ∧
    t = { s with core := .idle, status := 0x00000022#32 ||| (faultNumber code <<< 8), faultLog := t.faultLog }

/-- How a command with this row of the check table ends (60_exceptions.md R244): the first check that fails raises its
fault; with none, the command runs and ends with FAULT = 0. -/
def EndsByChecks (i : Instr) (s : State) : List (Prop × FaultCode) → Prop
  | [] => ∃ t, exec i s = .next t ∧ getFlag t.status flagFault = false
  | (ok, code) :: rest => (¬ ok → TakesFault i s code) ∧ (ok → EndsByChecks i s rest)

end Sys2Proof.Machine

/-- Whether an instruction is a command word's (a move of the core by itself) and not a token's (00_scope.md R6,
30_encoding.md R100). -/
def Sys2Proof.Instr.isCommand : Sys2Proof.Instr → Bool
  | .readBits _ => true
  | .writeBits _ => true
  | .decompress _ => true
  | .compress _ => true
  | .decrypt _ => true
  | .encrypt _ => true
  | .decode _ => true
  | .encode _ => true
  | .badOp _ => true
  | .lit _ => false
  | .ref _ _ => false
  | .term => false
  | .term2 => false
end

