-- ==== Sys2Proof/Certificates/Slice0/Obligations.lean ====
section
/-! DEFINITION. The statements for the provers, from the numbered rules of spec/. -/

open Sys2Proof Sys2Proof.Machine

/-! ## Encodings -/

/-- Decoding what the encoder writes gives the instruction back, for every well-formed instruction and every operand
value (30_encoding.md R100 to R108). Which of the names TERM and TERM2 a terminator gets back is the model's choice (log
10), and so is that a command keeps its ignored SEL bit and BAD_OP its word (log 12). -/
def Obligations.DecodeEncodeRoundTrip : Prop :=
  ∀ i : Instr, i.wellFormed = true → decode (encode i) = some i

/-- The command decoder is total: every 32-bit word is a well-formed command or BAD_OP, BAD_OP exactly for the reserved
words (30_encoding.md R100, R101), and encoding the answer gives the word back. That no bit is dropped is the model's
choice: the constructors keep the ignored SEL bit, and BAD_OP its word (log 12). -/
def Obligations.CommandDecoderTotal : Prop :=
  ∀ w : Word, (decodeCmd w).isCommand = true ∧ (decodeCmd w).wellFormed = true ∧ encode (decodeCmd w) = .word w ∧
    (decodeCmd w = .badOp w ↔ Word.reserved w = true)

/-- The sixteen legal command words, each with the command it stands for; SEL counts for DECRYPT and ENCRYPT alone; every
other word faults BAD_OP (30_encoding.md R100). -/
def Obligations.CommandWordTable : Prop :=
  (decodeCmd 0x01#32 = .readBits .src ∧ decodeCmd 0x11#32 = .readBits .dst ∧
    decodeCmd 0x02#32 = .writeBits .src ∧ decodeCmd 0x12#32 = .writeBits .dst ∧
    decodeCmd 0x03#32 = .decompress .src ∧ decodeCmd 0x13#32 = .decompress .dst ∧
    decodeCmd 0x04#32 = .compress .src ∧ decodeCmd 0x14#32 = .compress .dst ∧
    decodeCmd 0x05#32 = .decrypt .src ∧ decodeCmd 0x15#32 = .decrypt .dst ∧
    decodeCmd 0x06#32 = .encrypt .src ∧ decodeCmd 0x16#32 = .encrypt .dst ∧
    decodeCmd 0x07#32 = .decode .src ∧ decodeCmd 0x17#32 = .decode .dst ∧
    decodeCmd 0x08#32 = .encode .src ∧ decodeCmd 0x18#32 = .encode .dst) ∧
  (∀ s : State, exec (.readBits .dst) s = exec (.readBits .src) s ∧ exec (.writeBits .dst) s = exec (.writeBits .src) s ∧
    exec (.decompress .dst) s = exec (.decompress .src) s ∧ exec (.compress .dst) s = exec (.compress .src) s ∧
    exec (.decode .dst) s = exec (.decode .src) s ∧ exec (.encode .dst) s = exec (.encode .src) s) ∧
  ∀ w : Word, w ∉ [0x01#32, 0x02#32, 0x03#32, 0x04#32, 0x05#32, 0x15#32, 0x06#32, 0x16#32, 0x07#32, 0x08#32,
      0x11#32, 0x12#32, 0x13#32, 0x14#32, 0x17#32, 0x18#32] →
    ∀ s : State, TakesFault (decodeCmd w) s .badOp

/-- A few words written out from the encoding tables decode to the instruction they stand for (30_encoding.md R100,
R103 to R106, and the examples of 41_lzss_decompress.md R163, R164, R168). That the byte 00 is read as TERM2 and the
bytes 00 00 as TERM is the model's choice (log 10). -/
def Obligations.KnownWordsDecode : Prop :=
  decodeTableWord 32 0x00000001 = some (.readBits .src) ∧ decodeTableWord 32 0x00000015 = some (.decrypt .dst) ∧
    decodeTableWord 32 0x00000008 = some (.encode .src) ∧ decodeTableWord 32 0x00000009 = some (.badOp 0x00000009#32) ∧
    decodeTableWord 32 0x00000021 = some (.badOp 0x00000021#32) ∧
    decode (.stream [0xA0#8, 0x80#8, 0x00#8]) = some (.lit 0x41#8) ∧
    decode (.stream [0x7F#8, 0xFF#8]) = some (.ref 8191#13 12#4) ∧
    decode (.stream [0x00#8, 0x04#8, 0x80#8]) = some (.ref 1#13 2#4) ∧
    decode (.stream [0x00#8, 0x00#8]) = some .term ∧ decode (.stream [0x00#8]) = some .term2

/-- The token decoder is total: every stream of at least one byte starts with a token, and a REF it gives has a non-zero
index (30_encoding.md R109, R110). -/
def Obligations.TokenDecoderTotal : Prop :=
  ∀ bytes : List Byte, bytes ≠ [] → ∃ tok, decodeStream bytes = some tok ∧ tok.instr.wellFormed = true

/-! ## The bit-stream engine -/

/-- Progress and round trip of the bit engine (40_bitstream.md R148). -/
def Obligations.BitEngineRoundTrip : Prop :=
  (∀ (s : State) (sp : Space) (len n : Nat) (pos : BitPos), oneHot pos.mask = true → len ≤ s.size sp →
    (∀ i, i < n → (bitOffset pos + i) / 8 < len) →
    ∃ v pos', readBits (s.memRead sp) len n pos = some (v, pos') ∧ oneHot pos'.mask = true ∧
      bitOffset pos' = bitOffset pos + n) ∧
  (∀ (s : State) (sp : Space) (v n : Nat) (pos : BitPos), oneHot pos.mask = true →
    (∀ i, i < n → (bitOffset pos + i) / 8 < s.size sp) →
    ∃ t pos', s.writeBits sp v n pos = some (t, pos') ∧ oneHot pos'.mask = true ∧ bitOffset pos' = bitOffset pos + n) ∧
  ∀ (s t : State) (sp : Space) (v n len : Nat) (pos pos' : BitPos), oneHot pos.mask = true →
    Memory.wf (s.mem sp) = true → len ≤ s.size sp → (∀ i, i < n → (bitOffset pos + i) / 8 < len) →
    (∀ i, i < n → streamBit (s.mem sp) (bitOffset pos + i) = false) → s.writeBits sp v n pos = some (t, pos') →
    readBits (t.memRead sp) len n pos = some (v % 2 ^ n, pos')

/-- Reading `n1` bits and then `n2` is reading `n1 + n2` bits split at `n2`, and the same holds for writing
(40_bitstream.md R149). -/
def Obligations.BitEngineConcatenation : Prop :=
  (∀ (s : State) (sp : Space) (len n1 n2 : Nat) (pos : BitPos), len ≤ s.size sp →
    ∃ v1 v2 pos1 pos2, readBits (s.memRead sp) len n1 pos = some (v1, pos1) ∧
      readBits (s.memRead sp) len n2 pos1 = some (v2, pos2) ∧ v2 < 2 ^ n2 ∧
      readBits (s.memRead sp) len (n1 + n2) pos = some (v1 * 2 ^ n2 + v2, pos2)) ∧
  ∀ (s t u : State) (sp : Space) (v1 v2 n1 n2 : Nat) (pos pos1 pos2 : BitPos),
    s.writeBits sp v1 n1 pos = some (t, pos1) → t.writeBits sp v2 n2 pos1 = some (u, pos2) →
    s.writeBits sp (v1 * 2 ^ n2 + v2 % 2 ^ n2) (n1 + n2) pos = some (u, pos2)

/-- READ_BITS: BIT_DATA takes the `n` bits of SRC at the position, zero-extended, bits past SRC_LEN read as 0; the
position moves over them and stops at the end; only DONE is set and nothing else changes (40_bitstream.md R143, R144,
R146). -/
def Obligations.ReadBitsReadsField : Prop :=
  ∀ (sel : Space) (s : State), s.srcLen.toNat ≤ s.launch.srcMem → 1 ≤ s.bitN.toNat → s.bitN.toNat ≤ 16 →
    oneHot s.bitMask = true →
    ∃ t, exec (.readBits sel) s = .next t ∧
      t = { s with
        core := .idle
        status := 0x00000002#32
        bitData := BitVec.ofNat 16
          (bitField (readableBit s.src s.srcLen.toNat) (bitOffset { cur := s.bitCursor.toNat, mask := s.bitMask })
            s.bitN.toNat)
        bitCursor := BitVec.ofNat 32
          (readEnd s.srcLen.toNat (bitOffset { cur := s.bitCursor.toNat, mask := s.bitMask }) s.bitN.toNat).cur
        bitMask :=
          (readEnd s.srcLen.toNat (bitOffset { cur := s.bitCursor.toNat, mask := s.bitMask }) s.bitN.toNat).mask } ∧
      ∀ sp a, t.byteAt sp a = s.byteAt sp a

/-- WRITE_BITS: bit `i` of the field is ORed into DST at the position, most significant bit first; every other bit of
DST, and every byte outside the field, is as before; the position moves on by `n`; only DONE is set and nothing else
changes (40_bitstream.md R145, R147, 70_reset_and_hazards.md R282). -/
def Obligations.WriteBitsOrsField : Prop :=
  ∀ (sel : Space) (s : State) (o : Nat), Memory.wf s.dst = true → 1 ≤ s.bitN.toNat → s.bitN.toNat ≤ 16 →
    oneHot s.bitMask = true → bitOffset { cur := s.bitCursor.toNat, mask := s.bitMask } = o →
    (o + s.bitN.toNat - 1) / 8 < s.launch.dstMem →
    ∃ t, exec (.writeBits sel) s = .next t ∧
      t = { s with
        core := .idle
        status := 0x00000002#32
        bitCursor := BitVec.ofNat 32 ((o + s.bitN.toNat) / 8)
        bitMask := 0x80#8 >>> ((o + s.bitN.toNat) % 8)
        dst := t.dst } ∧
      (∀ x, streamBit t.dst x = (streamBit s.dst x ||
        (decide (o ≤ x ∧ x < o + s.bitN.toNat) && s.bitData.toNat.testBit (o + s.bitN.toNat - 1 - x)))) ∧
      (∀ a, a < o / 8 ∨ (o + s.bitN.toNat - 1) / 8 < a → t.byteAt .dst a = s.byteAt .dst a) ∧
      ∀ a, t.byteAt .src a = s.byteAt .src a

/-! ## Tokens -/

/-- LIT and Emit: below DST_LEN the byte is stored at DST[q], else OVERRUN is remembered; the byte always enters HIST at
`q mod 8192` and always counts; no other byte of DST, of SRC or of HIST changes (41_lzss_decompress.md R160, R163, R165).
That the read position moves over all 9 bits, the tag among them, is the model's choice: a token's meaning stands at its
first bit (log 11). -/
def Obligations.LitEmitsByte : Prop :=
  ∀ (v : Byte) (s : State), s.dstLen.toNat ≤ s.launch.dstMem → oneHot s.rd.mask = true → Memory.wf s.dst = true →
    Memory.wf s.hist = true →
    ∃ t, exec (.lit v) s = .next t ∧
      t = { s with
        rd := readEnd s.srcLen.toNat (bitOffset s.rd) 9
        ovr := s.ovr || decide (s.dstLen.toNat ≤ s.q)
        q := s.q + 1
        dst := t.dst
        hist := t.hist } ∧
      (∀ a, t.byteAt .dst a = if a = s.q ∧ s.q < s.dstLen.toNat then v else s.byteAt .dst a) ∧
      (∀ a, t.byteAt .src a = s.byteAt .src a) ∧
      ∀ i, t.histRead i = if i % 8192 = s.q % 8192 then v else s.histRead i

/-- REF: `l + 3` bytes are copied from HIST index `e - 1` on, each one read after the ones before it were written; each is
stored below DST_LEN, enters HIST and counts; no other byte of DST, of SRC or of HIST changes
(41_lzss_decompress.md R160, R164, R165). That the read position moves over all 18 bits, the tag among them, is the model's
choice: a token's meaning stands at its first bit (log 11). -/
def Obligations.RefCopiesHistory : Prop :=
  ∀ (e : BitVec 13) (l : BitVec 4) (s : State), e ≠ 0#13 → s.dstLen.toNat ≤ s.launch.dstMem → oneHot s.rd.mask = true →
    Memory.wf s.dst = true → Memory.wf s.hist = true →
    ∃ (t : State) (out : List Byte), exec (.ref e l) s = .next t ∧ out.length = l.toNat + 3 ∧
      t = { s with
        rd := readEnd s.srcLen.toNat (bitOffset s.rd) 18
        ovr := s.ovr || decide (s.dstLen.toNat < s.q + (l.toNat + 3))
        q := s.q + (l.toNat + 3)
        dst := t.dst
        hist := t.hist } ∧
      (∀ j, j < l.toNat + 3 →
        (∀ i, i < j → (s.q + i) % 8192 = (e.toNat - 1 + j) % 8192 → out[j]? = out[i]?) ∧
        ((∀ i, i < j → (s.q + i) % 8192 ≠ (e.toNat - 1 + j) % 8192) → out[j]? = some (s.histRead (e.toNat - 1 + j)))) ∧
      (∀ a, t.byteAt .dst a =
        if s.q ≤ a ∧ a < s.q + (l.toNat + 3) ∧ a < s.dstLen.toNat then out.getD (a - s.q) 0#8 else s.byteAt .dst a) ∧
      (∀ a, t.byteAt .src a = s.byteAt .src a) ∧
      ∀ i, (∀ j, j < l.toNat + 3 → (s.q + j) % 8192 = i % 8192 → out[j]? = some (t.histRead i)) ∧
        ((∀ j, j < l.toNat + 3 → (s.q + j) % 8192 ≠ i % 8192) → t.histRead i = s.histRead i)

/-- The overlapping copy: at distance `D` the output repeats the last `D` bytes with period `D` (for `D` from 1 to
`n - 1`), and at distance 0 modulo 8192 it copies the bytes at distance 8192 (41_lzss_decompress.md R166). -/
def Obligations.OverlappingCopyRepeats : Prop :=
  ∀ (e : BitVec 13) (l : BitVec 4) (s t : State) (D : Nat), e ≠ 0#13 → s.dstLen.toNat ≤ s.launch.dstMem →
    Memory.wf s.dst = true → Memory.wf s.hist = true → D < 8192 → (e.toNat - 1 + D) % 8192 = s.q % 8192 →
    exec (.ref e l) s = .next t →
    (∀ j, j < l.toNat + 3 → s.q + j < s.dstLen.toNat → t.byteAt .dst (s.q + j) = t.histRead (s.q + j)) ∧
    (1 ≤ D → ∀ j, j < l.toNat + 3 →
      (j < D → t.histRead (s.q + j) = s.histRead (e.toNat - 1 + j)) ∧
      (D ≤ j → t.histRead (s.q + j) = t.histRead (s.q + (j - D)))) ∧
    (D = 0 → ∀ j, j < l.toNat + 3 → t.histRead (s.q + j) = s.histRead (s.q + j))

/-- TERM and TERM2: the read position moves over the tag and the 13 index bits, `term` is set, nothing else changes: no
length field is read and no byte is emitted (41_lzss_decompress.md R160, R168). That the tag is among the bits moved over
is the model's choice (log 11). A REF whose index is 0 is no instruction of the
decoder's; that the model runs one as a terminator is its choice (log 11). -/
def Obligations.TerminatorsEndStream : Prop :=
  ∀ s : State, oneHot s.rd.mask = true →
    exec .term s = .next { s with rd := readEnd s.srcLen.toNat (bitOffset s.rd) 14, term := true } ∧
    exec .term2 s = .next { s with rd := readEnd s.srcLen.toNat (bitOffset s.rd) 14, term := true } ∧
    ∀ l : BitVec 4,
      exec (.ref 0#13 l) s = .next { s with rd := readEnd s.srcLen.toNat (bitOffset s.rd) 14, term := true }

/-- The token loop runs the decoded token: while the read position is below SRC_LEN, one iteration is exec of the token
read there, and a terminator ends the loop; at or past SRC_LEN no token is read (41_lzss_decompress.md R160, R162). A
token's meaning standing at its first bit is the model's choice (log 11), and so is which of the names TERM and TERM2 the
token read gets (log 10). -/
def Obligations.TokenLoopRunsDecodedToken : Prop :=
  (∀ (s t : State) (tok : Token) (n : Nat), s.rd.cur < s.srcLen.toNat → s.fetchToken = some tok →
    exec tok.instr s = .next t → decompressLoop (n + 1) s = if t.term then some t else decompressLoop n t) ∧
  (∀ (s : State) (n : Nat), s.srcLen.toNat ≤ s.rd.cur → decompressLoop (n + 1) s = some s) ∧
  ∀ s : State, s.srcLen.toNat ≤ s.launch.srcMem → oneHot s.rd.mask = true → s.rd.cur < s.srcLen.toNat →
    s.fetchToken = some (tokenAt (readableBit s.src s.srcLen.toNat) s.srcLen.toNat (bitOffset s.rd))

/-- HIST's invariant during DECOMPRESS: it holds when the loop starts, with no byte produced, and every token keeps it,
with the bytes the token produces (10_state.md R45, R54). That a token runs by itself is the model's choice (log 11). -/
def Obligations.HistoryHoldsProducedBytes : Prop :=
  (∀ s : State, HistHolds (decompressInit s) []) ∧
  ∀ (tok : Token) (s t : State) (out : List Byte), tok.instr.wellFormed = true → s.dstLen.toNat ≤ s.launch.dstMem →
    Memory.wf s.hist = true → HistHolds s out → exec tok.instr s = .next t →
    HistHolds t (out ++ tokenBytes s.launch.histInit out tok)

/-! ## DECOMPRESS -/

/-- DECOMPRESS against the reference decoder of plain lists: with `out` the bytes the stream's bits give and `ended`
whether a terminator ended it, RESULT_LEN is the count, DST holds the bytes below min(q, DST_LEN) and is unchanged
elsewhere, STATUS is DONE with WARN_NOTERM and OVERRUN as the rules say; SRC, the operand and BIT_* registers and the
other units' registers are unchanged (41_lzss_decompress.md R170, R171, R173). -/
def Obligations.DecompressProducesStream : Prop :=
  ∀ (sel : Space) (s : State), MemSizes s → MemoriesCanonical s → s.srcLen.toNat ≤ s.launch.srcMem →
    s.dstLen.toNat ≤ s.launch.dstMem →
    ∃ (t : State) (out : List Byte) (ended : Bool), exec (.decompress sel) s = .next t ∧
      streamOutput s.launch.histInit (readableBit s.src s.srcLen.toNat) s.srcLen.toNat (8 * s.srcLen.toNat) 0 [] =
        (out, ended) ∧
      t.resultLen.toNat = out.length ∧ t.q = out.length ∧ t.term = ended ∧
      t.ovr = decide (s.dstLen.toNat < out.length) ∧
      t.status = endStatus (!ended) false (decide (s.dstLen.toNat < out.length)) ∧ HistHolds t out ∧
      (∀ a, t.byteAt .dst a = if a < out.length ∧ a < s.dstLen.toNat then out.getD a 0#8 else s.byteAt .dst a) ∧
      (∀ a, t.byteAt .src a = s.byteAt .src a) ∧
      t.core = .idle ∧ t.faultLog = s.faultLog ∧ SameOperands s t ∧ SameBitRegs s t ∧ SameCompressor s t ∧ SameCipher s t

/-- DECOMPRESS always ends: at most `ceil(8 len / 9)` tokens run, the bytes produced are at most 18 times that and at
most `16 len + 18`, no register wraps, and the read position does not pass the end (41_lzss_decompress.md R172). -/
def Obligations.DecompressBounded : Prop :=
  ∀ (sel : Space) (s t : State), s.launch.srcMem ≤ 2 ^ 27 → s.srcLen.toNat ≤ s.launch.srcMem →
    s.dstLen.toNat ≤ s.launch.dstMem → exec (.decompress sel) s = .next t →
    (∀ k, (8 * s.srcLen.toNat + 8) / 9 ≤ k →
      decompressLoop k (decompressInit s) = decompressLoop ((8 * s.srcLen.toNat + 8) / 9) (decompressInit s)) ∧
    t.q ≤ 18 * ((8 * s.srcLen.toNat + 8) / 9) ∧ 18 * ((8 * s.srcLen.toNat + 8) / 9) ≤ 16 * s.srcLen.toNat + 18 ∧
    t.q < 2 ^ 32 ∧ t.rd.cur ≤ s.srcLen.toNat ∧ t.resultLen.toNat = t.q

/-! ## COMPRESS -/

/-- The search at a source position, where HIST holds the source behind it: only the search registers change, and the
match found is the longest of any candidate, the nearest of the longest (42_lzss_compress.md R181 to R184, R186). -/
def Obligations.SearchFindsNearestLongest : Prop :=
  ∀ (n : Nat) (s : State), HistMirrorsSrc s → n ≤ s.launch.srcMem → s.p ≤ n →
    ∃ t, searchMatch n s = some t ∧ t = { s with best := t.best, bs := t.bs, d := t.d, k := t.k } ∧
      (t.best = 0 → ∀ a, IsCandidate s.p a → matchLength s.src n a s.p = 0) ∧
      (0 < t.best → IsBestStart s.src n s.p t.bs ∧ matchLength s.src n t.bs s.p = t.best)

/-- What a REF of the compressor can hold (42_lzss_compress.md R190): its length, index and distance are in range, its
start never has the residue 8191, and its match lies in the source. First of the search's registers, where a REF will be
emitted; then of every REF in the stream that COMPRESS leaves in DST, `p` being the bytes the tokens before it cover and
`bs` its start. -/
def Obligations.EmittedReferencesInRange : Prop :=
  (∀ (n : Nat) (s t : State), n ≤ s.launch.srcMem → s.p ≤ n → searchMatch n s = some t → Config.minMatch ≤ t.best →
    t.best ≤ 18 ∧ 1 ≤ t.bs % 8192 + 1 ∧ t.bs % 8192 + 1 ≤ 8191 ∧ t.bs % 8192 ≠ 8191 ∧ 1 ≤ t.p - t.bs ∧
      t.p - t.bs ≤ 8192 ∧ t.p + t.best ≤ n) ∧
  ∀ (sel : Space) (s t : State), MemSizes s → MemoriesCanonical s → s.srcLen.toNat ≤ s.launch.srcMem →
    (9 * s.srcLen.toNat + 7) / 8 + 2 ≤ s.launch.dstMem → exec (.compress sel) s = .next t →
    ∃ toks, CanonicalTokens s.src s.srcLen.toNat 0 toks ∧
      (∀ x, x < 8 * ((9 * s.srcLen.toNat + 7) / 8 + 2) → streamBit t.dst x = (canonicalString toks).getD x false) ∧
      ∀ (before after : List Token) (e : BitVec 13) (l : BitVec 4) (p : Nat), toks = before ++ .ref e l :: after →
        p = coveredBytes before →
        l.toNat + 3 ≤ 18 ∧ 1 ≤ e.toNat ∧ e.toNat ≤ 8191 ∧ p + (l.toNat + 3) ≤ s.srcLen.toNat ∧
        ∃ bs, e.toNat - 1 = bs % 8192 ∧ bs % 8192 ≠ 8191 ∧ bs < p ∧ p - bs ≤ 8192 ∧
          ∀ k, k < l.toNat + 3 → s.byteAt .src (bs + k) = s.byteAt .src (p + k)

/-- COMPRESS against the token list that the search rules give: DST holds the canonical stream, zero bits after it up to
`cap`, and its old bytes from `cap` on; RESULT_LEN is the byte of the stream's end plus one; SRC, the operand and BIT_*
registers and the other units' registers are unchanged (42_lzss_compress.md R180, R185, R187, R188). -/
def Obligations.CompressWritesCanonicalStream : Prop :=
  ∀ (sel : Space) (s : State), MemSizes s → MemoriesCanonical s → s.srcLen.toNat ≤ s.launch.srcMem →
    (9 * s.srcLen.toNat + 7) / 8 + 2 ≤ s.launch.dstMem →
    ∃ (t : State) (toks : List Token), exec (.compress sel) s = .next t ∧
      CanonicalTokens s.src s.srcLen.toNat 0 toks ∧
      t.resultLen.toNat = (canonicalString toks).length / 8 + 1 ∧
      (∀ x, x < 8 * ((9 * s.srcLen.toNat + 7) / 8 + 2) → streamBit t.dst x = (canonicalString toks).getD x false) ∧
      (∀ a, (9 * s.srcLen.toNat + 7) / 8 + 2 ≤ a → t.byteAt .dst a = s.byteAt .dst a) ∧
      (∀ a, t.byteAt .src a = s.byteAt .src a) ∧ t.status = 0x00000002#32 ∧ t.core = .idle ∧ t.faultLog = s.faultLog ∧
      SameOperands s t ∧ SameBitRegs s t ∧ SameDecompressor s t ∧ SameCipher s t

/-- COMPRESS never writes past its worst case: the length is at most `cap`, which fits DST; the bytes from the length to
`cap` are zero and the bytes from `cap` on are untouched (42_lzss_compress.md R189). -/
def Obligations.CompressStaysWithinBound : Prop :=
  ∀ (sel : Space) (s t : State), MemSizes s → MemoriesCanonical s → s.srcLen.toNat ≤ s.launch.srcMem →
    (9 * s.srcLen.toNat + 7) / 8 + 2 ≤ s.launch.dstMem → exec (.compress sel) s = .next t →
    t.resultLen.toNat = t.wr.cur + 1 ∧ t.wr.cur ≤ (9 * s.srcLen.toNat + 2) / 8 ∧
      bitOffset t.wr ≤ 9 * s.srcLen.toNat + 2 ∧ t.resultLen.toNat ≤ (9 * s.srcLen.toNat + 7) / 8 + 2 ∧
      t.cap = (9 * s.srcLen.toNat + 7) / 8 + 2 ∧
      (∀ a, t.resultLen.toNat ≤ a → a < (9 * s.srcLen.toNat + 7) / 8 + 2 → t.byteAt .dst a = 0#8) ∧
      ∀ a, (9 * s.srcLen.toNat + 7) / 8 + 2 ≤ a → t.byteAt .dst a = s.byteAt .dst a

/-- COMPRESS is a function of the N source bytes alone: two states with the same N and the same first N bytes of SRC,
whatever else they hold, give the same length and the same output (42_lzss_compress.md R191). -/
def Obligations.CompressDependsOnSourceOnly : Prop :=
  ∀ (sel : Space) (s s' t t' : State), MemSizes s → MemSizes s' → MemoriesCanonical s → MemoriesCanonical s' →
    s.srcLen = s'.srcLen → (∀ a, a < s.srcLen.toNat → s.byteAt .src a = s'.byteAt .src a) →
    s.srcLen.toNat ≤ s.launch.srcMem → s.srcLen.toNat ≤ s'.launch.srcMem →
    (9 * s.srcLen.toNat + 7) / 8 + 2 ≤ s.launch.dstMem → (9 * s.srcLen.toNat + 7) / 8 + 2 ≤ s'.launch.dstMem →
    exec (.compress sel) s = .next t → exec (.compress sel) s' = .next t' →
    t.resultLen = t'.resultLen ∧
      ∀ a, a < (9 * s.srcLen.toNat + 7) / 8 + 2 → t.byteAt .dst a = t'.byteAt .dst a

/-- Fidelity: DECOMPRESS of the stream COMPRESS made gives the source back, ends on the terminator without OVERRUN,
whatever HIST_INIT is (41_lzss_decompress.md R174). -/
def Obligations.CompressThenDecompressRestores : Prop :=
  ∀ (sel sel' : Space) (s t u : State), MemSizes s → MemSizes u → MemoriesCanonical s → MemoriesCanonical u →
    s.srcLen.toNat ≤ s.launch.srcMem → (9 * s.srcLen.toNat + 7) / 8 + 2 ≤ s.launch.dstMem →
    exec (.compress sel) s = .next t →
    u.srcLen = t.resultLen → u.srcLen.toNat ≤ u.launch.srcMem →
    (∀ a, a < t.resultLen.toNat → u.byteAt .src a = t.byteAt .dst a) →
    u.dstLen.toNat ≤ u.launch.dstMem → s.srcLen.toNat ≤ u.dstLen.toNat →
    ∃ v, exec (.decompress sel') u = .next v ∧ v.resultLen = s.srcLen ∧ v.term = true ∧ v.q = s.srcLen.toNat ∧
      v.ovr = false ∧ v.status = 0x00000002#32 ∧ ∀ a, a < s.srcLen.toNat → v.byteAt .dst a = s.byteAt .src a

/-! ## The cipher -/

/-- DECRYPT and ENCRYPT in closed form: the byte at ascending cursor `c` pairs with its target of the position map of its
block, under the mask `(M0 + c I) mod 256` counted over the whole prefix; the bytes from P on and every byte of the other
memory are unchanged; RESULT_LEN is P, only DONE is set, and nothing else changes but the cipher's own registers
(43_cipher.md R205, R206, R207). -/
def Obligations.CipherClosedForm : Prop :=
  ∀ (sel : Space) (s : State) (layer : Layer) (P : Nat), MemoriesCanonical s → s.cipherLen sel ≤ s.size sel →
    s.ciphBlock ≠ 0#32 →
    layer = { blockSize := s.ciphBlock.toNat, baseMask := s.ciphKey.extractLsb' 0 8,
              maskInc := s.ciphKey.extractLsb' 8 8 } →
    P = processedLen (s.cipherLen sel) s.ciphBlock.toNat →
    (∃ t, exec (.decrypt sel) s = .next t ∧ CipherRelates true layer P (s.mem sel) (t.mem sel) ∧
      (∀ sp a, sp ≠ sel → t.byteAt sp a = s.byteAt sp a) ∧ t.resultLen = BitVec.ofNat 32 P ∧
      t.status = 0x00000002#32 ∧ t.core = .idle ∧ t.hist = s.hist ∧ t.faultLog = s.faultLog ∧ SameOperands s t ∧
      SameBitRegs s t ∧ SameDecompressor s t ∧ SameCompressor s t) ∧
    ∃ t, exec (.encrypt sel) s = .next t ∧ CipherRelates false layer P (s.mem sel) (t.mem sel) ∧
      (∀ sp a, sp ≠ sel → t.byteAt sp a = s.byteAt sp a) ∧ t.resultLen = BitVec.ofNat 32 P ∧
      t.status = 0x00000002#32 ∧ t.core = .idle ∧ t.hist = s.hist ∧ t.faultLog = s.faultLog ∧ SameOperands s t ∧
      SameBitRegs s t ∧ SameDecompressor s t ∧ SameCompressor s t

/-- The processed length: the small trailing remainder comes off, then the odd last byte, never below 0, and the bytes
of the excluded suffix pass through unmodified (43_cipher.md R201). -/
def Obligations.ProcessedLengthRule : Prop :=
  ∀ (sel : Space) (i : Instr) (s t : State) (L B : Nat), (i = .decrypt sel ∨ i = .encrypt sel) → MemoriesCanonical s →
    L = s.cipherLen sel → B = s.ciphBlock.toNat → L ≤ s.size sel → B ≠ 0 → exec i s = .next t →
    t.resultLen.toNat =
      (if L % 2 = 1 then (if L % B < B / 4 then L - L % B else L) - 1 else if L % B < B / 4 then L - L % B else L) ∧
    ∀ a, t.resultLen.toNat ≤ a → t.byteAt sel a = s.byteAt sel a

/-- Inverse law: the position map is a bijection; for every memory, length and key with B ≥ 1 a run of one direction
after a run of the other computes the same P and restores the memory; so DECRYPT undoes ENCRYPT and ENCRYPT undoes
DECRYPT. Neither direction is its own inverse: DECRYPT twice on 01 02 03 04 with B = 4, M0 = 0, I = 1 gives 02 02 03
07 (43_cipher.md R208). -/
def Obligations.CipherInverseLaw : Prop :=
  (∀ b, PositionMapBijective b) ∧
  (∀ (decrypting : Bool) (sp : Space) (len : Nat) (layer : Layer) (s : State), 1 ≤ layer.blockSize → len ≤ s.size sp →
    Memory.wf (s.mem sp) = true → RunIsUndone decrypting sp len layer s) ∧
  ∀ (sel : Space) (s : State), MemoriesCanonical s → s.cipherLen sel ≤ s.size sel → s.ciphBlock ≠ 0#32 →
    (∃ t u, exec (.encrypt sel) s = .next t ∧ exec (.decrypt sel) t = .next u ∧ u.resultLen = t.resultLen ∧
      ∀ a, u.byteAt sel a = s.byteAt sel a) ∧
    (∃ t u, exec (.decrypt sel) s = .next t ∧ exec (.encrypt sel) t = .next u ∧ u.resultLen = t.resultLen ∧
      ∀ a, u.byteAt sel a = s.byteAt sel a) ∧
    (s.cipherLen sel = 4 → s.ciphBlock = 4#32 → s.ciphKey = 0x0100#16 →
      (List.range 4).map (s.byteAt sel) = [0x01#8, 0x02#8, 0x03#8, 0x04#8] →
      ∃ t u, exec (.decrypt sel) s = .next t ∧ exec (.decrypt sel) t = .next u ∧
        (List.range 4).map (u.byteAt sel) = [0x02#8, 0x02#8, 0x03#8, 0x07#8])

/-- Short streams: layer B leaves a stream shorter than 0x20 bytes as it is and layer A one shorter than 0x200; each
leaves its small trailing remainder and the last byte of an odd length (44_pipeline.md R226). -/
def Obligations.LayersLeaveShortStreams : Prop :=
  ∀ (decrypting : Bool) (sp : Space) (L : Nat) (s : State), MemoriesCanonical s → L ≤ s.size sp →
    (∃ t, cipherRun decrypting sp L Config.layerB s = some t ∧
      (L < 0x20 → ∀ a, t.byteAt sp a = s.byteAt sp a) ∧
      (L % 0x80 < 0x20 → ∀ a, L - L % 0x80 ≤ a → t.byteAt sp a = s.byteAt sp a) ∧
      (L % 2 = 1 → t.byteAt sp (L - 1) = s.byteAt sp (L - 1))) ∧
    ∃ t, cipherRun decrypting sp L Config.layerA s = some t ∧
      (L < 0x200 → ∀ a, t.byteAt sp a = s.byteAt sp a) ∧
      (L % 0x800 < 0x200 → ∀ a, L - L % 0x800 ≤ a → t.byteAt sp a = s.byteAt sp a) ∧
      (L % 2 = 1 → t.byteAt sp (L - 1) = s.byteAt sp (L - 1))

/-! ## The pipelines -/

/-- DECODE: layer A and then layer B are decrypted in SRC in place, and the stream left there is decompressed into DST;
RESULT_LEN is the count, STATUS is DONE with WARN_NOTERM, ERR_SIZE (the count differs from DST_LEN) and OVERRUN; the
operand and BIT_* registers and the compressor's registers are unchanged (44_pipeline.md R220, R221, R225). -/
def Obligations.DecodeDeciphersThenDecompresses : Prop :=
  ∀ (sel : Space) (s : State), MemSizes s → MemoriesCanonical s → s.srcLen.toNat ≤ s.launch.srcMem →
    s.dstLen.toNat ≤ s.launch.dstMem →
    ∃ (t : State) (mid : Memory) (out : List Byte) (ended : Bool), exec (.decode sel) s = .next t ∧
      CipherRelates true { blockSize := 0x800, baseMask := 0x5e#8, maskInc := 0xe7#8 } (processedLen s.srcLen.toNat 0x800)
        s.src mid ∧
      CipherRelates true { blockSize := 0x80, baseMask := 0x7d#8, maskInc := 0x36#8 } (processedLen s.srcLen.toNat 0x80)
        mid t.src ∧
      streamOutput s.launch.histInit (readableBit t.src s.srcLen.toNat) s.srcLen.toNat (8 * s.srcLen.toNat) 0 [] =
        (out, ended) ∧
      t.resultLen.toNat = out.length ∧
      t.status = endStatus (!ended) (decide (out.length ≠ s.dstLen.toNat)) (decide (s.dstLen.toNat < out.length)) ∧
      (∀ a, t.byteAt .dst a = if a < out.length ∧ a < s.dstLen.toNat then out.getD a 0#8 else s.byteAt .dst a) ∧
      t.core = .idle ∧ t.faultLog = s.faultLog ∧ SameOperands s t ∧ SameBitRegs s t ∧ SameCompressor s t

/-- ENCODE: the source is compressed into DST, then layer B and layer A encrypt the compressed length of it; RESULT_LEN
is that length and only DONE is set; the bytes of DST from the length to `cap` are zero and the later ones unchanged;
SRC, the operand and BIT_* registers and the decompressor's registers are unchanged (44_pipeline.md R222). -/
def Obligations.EncodeCompressesThenEnciphers : Prop :=
  ∀ (sel : Space) (s : State), MemSizes s → MemoriesCanonical s → s.srcLen.toNat ≤ s.launch.srcMem →
    (9 * s.srcLen.toNat + 7) / 8 + 2 ≤ s.launch.dstMem →
    ∃ (t : State) (toks : List Token) (plain mid : Memory) (Lc : Nat), exec (.encode sel) s = .next t ∧
      CanonicalTokens s.src s.srcLen.toNat 0 toks ∧ Lc = (canonicalString toks).length / 8 + 1 ∧
      Lc ≤ (9 * s.srcLen.toNat + 7) / 8 + 2 ∧
      (∀ x, x < 8 * ((9 * s.srcLen.toNat + 7) / 8 + 2) → streamBit plain x = (canonicalString toks).getD x false) ∧
      (∀ a, (9 * s.srcLen.toNat + 7) / 8 + 2 ≤ a → Memory.read plain a = s.byteAt .dst a) ∧
      CipherRelates false { blockSize := 0x80, baseMask := 0x7d#8, maskInc := 0x36#8 } (processedLen Lc 0x80) plain mid ∧
      CipherRelates false { blockSize := 0x800, baseMask := 0x5e#8, maskInc := 0xe7#8 } (processedLen Lc 0x800) mid
        t.dst ∧
      t.resultLen.toNat = Lc ∧
      (∀ a, Lc ≤ a → a < (9 * s.srcLen.toNat + 7) / 8 + 2 → t.byteAt .dst a = 0#8) ∧
      (∀ a, (9 * s.srcLen.toNat + 7) / 8 + 2 ≤ a → t.byteAt .dst a = s.byteAt .dst a) ∧
      (∀ a, t.byteAt .src a = s.byteAt .src a) ∧ t.status = 0x00000002#32 ∧ t.core = .idle ∧ t.faultLog = s.faultLog ∧
      SameOperands s t ∧ SameBitRegs s t ∧ SameDecompressor s t

/-- A host that composes the pipelines by hand gets what DECODE and ENCODE give: DECRYPT with layer A, DECRYPT with layer
B, DECOMPRESS; and COMPRESS, DST_LEN from RESULT_LEN, ENCRYPT with layer B, ENCRYPT with layer A
(70_reset_and_hazards.md R285, 44_pipeline.md R223). -/
def Obligations.PipelinesEqualByHand : Prop :=
  (∀ (sel : Space) (s : State), MemSizes s → MemoriesCanonical s → s.srcLen.toNat ≤ s.launch.srcMem →
    s.dstLen.toNat ≤ s.launch.dstMem →
    ∃ t a b c, exec (.decode sel) s = .next t ∧
      exec (.decrypt .src) { s with ciphBlock := 0x800#32, ciphKey := 0xE75E#16 } = .next a ∧
      exec (.decrypt .src) { a with ciphBlock := 0x80#32, ciphKey := 0x367D#16 } = .next b ∧
      exec (.decompress .src) b = .next c ∧
      t.src = c.src ∧ t.dst = c.dst ∧ t.resultLen = c.resultLen ∧
      t.status = c.status ||| (if c.resultLen ≠ s.dstLen then 0x00000008#32 else 0#32)) ∧
  ∀ (sel : Space) (s : State), MemSizes s → MemoriesCanonical s → s.srcLen.toNat ≤ s.launch.srcMem →
    (9 * s.srcLen.toNat + 7) / 8 + 2 ≤ s.launch.dstMem →
    ∃ t a b c, exec (.encode sel) s = .next t ∧ exec (.compress .src) s = .next a ∧
      exec (.encrypt .dst) { a with dstLen := a.resultLen, ciphBlock := 0x80#32, ciphKey := 0x367D#16 } = .next b ∧
      exec (.encrypt .dst) { b with ciphBlock := 0x800#32, ciphKey := 0xE75E#16 } = .next c ∧
      t.src = c.src ∧ t.dst = c.dst ∧ t.resultLen = a.resultLen ∧ t.status = c.status

/-- Pipeline round trip: DECODE of what ENCODE wrote, copied into SRC by the host, gives the raw bytes back with STATUS
0x00000002 (44_pipeline.md R224). -/
def Obligations.EncodeThenDecodeRestores : Prop :=
  ∀ (sel sel' : Space) (s t u : State), MemSizes s → MemSizes u → MemoriesCanonical s → MemoriesCanonical u →
    s.srcLen.toNat ≤ s.launch.srcMem → (9 * s.srcLen.toNat + 7) / 8 + 2 ≤ s.launch.dstMem →
    exec (.encode sel) s = .next t →
    u.srcLen = t.resultLen → u.srcLen.toNat ≤ u.launch.srcMem →
    (∀ a, a < t.resultLen.toNat → u.byteAt .src a = t.byteAt .dst a) →
    u.dstLen = s.srcLen → u.dstLen.toNat ≤ u.launch.dstMem →
    ∃ v, exec (.decode sel') u = .next v ∧ v.resultLen = s.srcLen ∧ v.status = 0x00000002#32 ∧
      ∀ a, a < s.srcLen.toNat → v.byteAt .dst a = s.byteAt .src a

/-! ## Faults and the command life cycle -/

/-- A reserved command word takes the BAD_OP fault: STATUS is cleared and records it, the core is IDLE, nothing else
changes (30_encoding.md R101, 60_exceptions.md R240, R241, R245) but the model's own fault log, which gets the code
(R248, log 3). -/
def Obligations.BadOpTakesFault : Prop :=
  ∀ (w : Word) (s : State), Word.reserved w = true →
    decodeCmd w = .badOp w ∧ exec (.badOp w) s = .next (afterFault s .badOp) ∧
      (afterFault s .badOp).status = 0x00000122#32 ∧ ∀ sp a, (afterFault s .badOp).byteAt sp a = s.byteAt sp a

/-- The issue checks of every command, in the order of the table; the first that fails raises its fault, and once they
pass the command raises nothing more (60_exceptions.md R244). -/
def Obligations.IssueChecksInOrder : Prop :=
  ∀ (sel : Space) (s : State),
    EndsByChecks (.readBits sel) s
      [(s.srcLen.toNat ≤ s.launch.srcMem, .badLen), (1 ≤ s.bitN.toNat ∧ s.bitN.toNat ≤ 16, .badWidth),
       (s.bitMask ∈ [0x01#8, 0x02#8, 0x04#8, 0x08#8, 0x10#8, 0x20#8, 0x40#8, 0x80#8], .badMask)] ∧
    EndsByChecks (.writeBits sel) s
      [(1 ≤ s.bitN.toNat ∧ s.bitN.toNat ≤ 16, .badWidth),
       (s.bitMask ∈ [0x01#8, 0x02#8, 0x04#8, 0x08#8, 0x10#8, 0x20#8, 0x40#8, 0x80#8], .badMask),
       ((8 * s.bitCursor.toNat + (7 - s.bitMask.toNat.log2) + s.bitN.toNat - 1) / 8 < s.launch.dstMem, .noSpace)] ∧
    EndsByChecks (.decompress sel) s
      [(s.srcLen.toNat ≤ s.launch.srcMem, .badLen), (s.dstLen.toNat ≤ s.launch.dstMem, .badLen)] ∧
    EndsByChecks (.compress sel) s
      [(s.srcLen.toNat ≤ s.launch.srcMem, .badLen), ((9 * s.srcLen.toNat + 7) / 8 + 2 ≤ s.launch.dstMem, .noSpace)] ∧
    EndsByChecks (.decrypt .src) s [(s.srcLen.toNat ≤ s.launch.srcMem, .badLen), (s.ciphBlock ≠ 0#32, .badBlock)] ∧
    EndsByChecks (.encrypt .src) s [(s.srcLen.toNat ≤ s.launch.srcMem, .badLen), (s.ciphBlock ≠ 0#32, .badBlock)] ∧
    EndsByChecks (.decrypt .dst) s [(s.dstLen.toNat ≤ s.launch.dstMem, .badLen), (s.ciphBlock ≠ 0#32, .badBlock)] ∧
    EndsByChecks (.encrypt .dst) s [(s.dstLen.toNat ≤ s.launch.dstMem, .badLen), (s.ciphBlock ≠ 0#32, .badBlock)] ∧
    EndsByChecks (.decode sel) s
      [(s.srcLen.toNat ≤ s.launch.srcMem, .badLen), (s.dstLen.toNat ≤ s.launch.dstMem, .badLen)] ∧
    EndsByChecks (.encode sel) s
      [(s.srcLen.toNat ≤ s.launch.srcMem, .badLen), ((9 * s.srcLen.toNat + 7) / 8 + 2 ≤ s.launch.dstMem, .noSpace)]

/-- A command that faults changes STATUS only: FAULT and DONE are set, FCODE is the code, every other interface and
internal register and every byte of SRC, DST, HIST and SCRATCH keeps its value, and the core is IDLE
(60_exceptions.md R241). Of the model's own fault log it says nothing (log 3). -/
def Obligations.FaultChangesStatusOnly : Prop :=
  ∀ (i : Instr) (s t : State), i.isCommand = true → exec i s = .next t → getFlag t.status flagFault = true →
    ∃ code : FaultCode, t = { s with
        core := .idle
        status := 0x00000022#32 ||| (faultNumber code <<< 8)
        faultLog := t.faultLog } ∧
      getFlag t.status flagDone = true ∧ getFcode t.status = code.number ∧ ∀ sp a, t.byteAt sp a = s.byteAt sp a

/-- The model's fault log, its device for the faults of a run (60_exceptions.md R248, 70_reset_and_hazards.md R291; log 3):
a command that ends with FAULT clear leaves the log as it was, one that faults appends the code that FCODE holds. -/
def Obligations.FaultLogRecordsFaults : Prop :=
  ∀ (i : Instr) (s t : State), i.isCommand = true → exec i s = .next t →
    (getFlag t.status flagFault = false → t.faultLog = s.faultLog) ∧
    (getFlag t.status flagFault = true →
      ∃ code : FaultCode, t.faultLog = s.faultLog ++ [code] ∧ getFcode t.status = code.number)

/-- Every command completes, from every state: it ends IDLE with DONE set, and, unless it faulted at issue, with FAULT
and FCODE 0. No command stops the model or leaves a memory's range (60_exceptions.md R242, 20_memory.md R74). That a fault
also enters the fault log is the model's device (60_exceptions.md R248, log 3). -/
def Obligations.EveryCommandCompletes : Prop :=
  ∀ (i : Instr) (s : State), i.isCommand = true →
    ∃ t, exec i s = .next t ∧ t.core = .idle ∧ getFlag t.status flagDone = true ∧
      ((∃ code, t = afterFault s code) ∨ (getFlag t.status flagFault = false ∧ getFcode t.status = 0#4))

/-- The STATUS values a command can leave: DONE and a fault code 1 to 6, or DONE and any of the status conditions that
the command can end with; a fault and a condition never come together, READ_BITS, WRITE_BITS, COMPRESS, DECRYPT, ENCRYPT
and ENCODE end with none, DECOMPRESS never with ERR_SIZE, and DECODE's OVERRUN implies ERR_SIZE (60_exceptions.md R243,
R246). -/
def Obligations.StatusConditionsByCommand : Prop :=
  ∀ (i : Instr) (s t : State), i.isCommand = true → exec i s = .next t →
    (∃ code, t.status = 0x00000022#32 ||| (faultNumber code <<< 8)) ∨
    ∃ warn err ovr, t.status = endStatus warn err ovr ∧
      ((∀ sel, i ≠ .decompress sel ∧ i ≠ .decode sel) → warn = false ∧ ovr = false) ∧
      ((∀ sel, i ≠ .decode sel) → err = false) ∧
      ((∃ sel, i = .decode sel) → ovr = true → err = true)

/-- No command writes SRC_LEN, DST_LEN, CIPH_BLOCK, CIPH_KEY or BIT_N, nor SRC_MEM, DST_MEM or HIST_INIT, nor the host's
queue and replies; only READ_BITS and WRITE_BITS write BIT_CURSOR and BIT_MASK, and only READ_BITS writes BIT_DATA
(10_state.md R36, R37, R39, R40, R43, 40_bitstream.md R146, R147). The queue and the replies are the model's own devices
(log 1, log 2). -/
def Obligations.OperandRegistersNeverWritten : Prop :=
  ∀ (i : Instr) (s t : State), i.isCommand = true → exec i s = .next t →
    SameOperands s t ∧
    ((∀ sel, i ≠ .readBits sel) → t.bitData = s.bitData) ∧
    ((∀ sel, i ≠ .readBits sel ∧ i ≠ .writeBits sel) → t.bitCursor = s.bitCursor ∧ t.bitMask = s.bitMask)

/-- The BIT_* registers and the LZSS engines are separate: READ_BITS and WRITE_BITS do not move `rd` or `wr`,
DECOMPRESS and COMPRESS do not move BIT_CURSOR or BIT_MASK, and DECOMPRESS starts at bit 0 of SRC, byte 0 with mask
0x80, whatever `rd`, BIT_CURSOR and BIT_MASK hold: the run is the token loop from there, and the first token is the
one at bit 0 (70_reset_and_hazards.md R287). That the loop reads a token ahead of running it is the model's choice
(log 11), and so is which of the names TERM and TERM2 a first terminator gets (log 10). -/
def Obligations.BitRegistersSeparate : Prop :=
  (∀ (sel : Space) (s t : State), exec (.readBits sel) s = .next t ∨ exec (.writeBits sel) s = .next t →
    t.rd = s.rd ∧ t.wr = s.wr) ∧
  (∀ (sel : Space) (s t : State), exec (.decompress sel) s = .next t ∨ exec (.compress sel) s = .next t →
    t.bitCursor = s.bitCursor ∧ t.bitMask = s.bitMask) ∧
  (∀ (sel : Space) (s t : State), s.srcLen.toNat ≤ s.launch.srcMem → s.dstLen.toNat ≤ s.launch.dstMem →
    exec (.decompress sel) s = .next t →
    (decompressInit s.issue).rd = { cur := 0, mask := 0x80#8 } ∧
    (0 < s.srcLen.toNat → (decompressInit s.issue).fetchToken =
      some (tokenAt (readableBit s.src s.srcLen.toNat) s.srcLen.toNat 0)) ∧
    ∃ u, decompressLoop (8 * s.srcLen.toNat) (decompressInit s.issue) = some u ∧ t.rd = u.rd ∧ t.q = u.q ∧
      t.dst = u.dst ∧ t.hist = u.hist) ∧
  ∀ (sel : Space) (s t : State) (rd : BitPos) (cursor : Word) (mask : Byte), s.srcLen.toNat ≤ s.launch.srcMem →
    s.dstLen.toNat ≤ s.launch.dstMem → exec (.decompress sel) s = .next t →
    exec (.decompress sel) { s with rd := rd, bitCursor := cursor, bitMask := mask } =
      .next { t with bitCursor := cursor, bitMask := mask }

/-- No internal state is visible to the host, and none is carried from one command into the next: two states that agree
on the registers, SRC and DST, whatever their internal registers, HIST and SCRATCH hold, read the same through every
register and memory access, and still agree after any command (10_state.md R51). -/
def Obligations.NothingInternalCarriesOver : Prop :=
  (∀ s s' : State, SameVisible s s' → s.status = s'.status →
    (∀ slot : Fin 16, s.readReg (regOfSlot slot) = s'.readReg (regOfSlot slot)) ∧
      ∀ sp a, s.byteAt sp a = s'.byteAt sp a) ∧
  ∀ (i : Instr) (s s' t t' : State), i.isCommand = true → MemoriesCanonical s → MemoriesCanonical s' →
    SameVisible s s' → exec i s = .next t → exec i s' = .next t' → SameVisible t t' ∧ t.status = t'.status

/-! ## The machine -/

/-- Every step keeps the invariant of the reachable states: the launch bounds, the canonical form and the range of every
memory, the core IDLE, a legal STATUS, one-hot engine masks and counters that fit their widths (00_scope.md R8,
10_state.md R30, R46, R47, 20_memory.md R70, 60_exceptions.md R245). -/
def Obligations.StepKeepsInvariant : Prop :=
  ∀ s t : State, Inv s → step s = .next t → Inv t

/-- The machine after reset meets that invariant. -/
def Obligations.ResetMeetsInvariant : Prop := Inv State.reset

/-- A step runs the decoded command: with a write of `w` to CMD as the host's next transaction and the core IDLE, the
step is exec of the command `w` encodes on the state with that transaction taken off the queue, and for a well-formed
command instruction its encoding does the same (60_exceptions.md R240). The queue is the model's choice (log 1). -/
def Obligations.StepRunsDecodedCommand : Prop :=
  (∀ (s : State) (w : Word) (rest : List HostOp), s.core = .idle → s.host = .wr 0 w :: rest →
    step s = exec (decodeCmd w) { s with host := rest }) ∧
  ∀ (s : State) (i : Instr) (w : Word) (rest : List HostOp), s.core = .idle → i.wellFormed = true →
    encode i = .word w → s.host = .wr 0 w :: rest → step s = exec i { s with host := rest }

/-- Host register access: a write of slot 2, 3, 5, 6, 7, 8, 9 or 10 sets SRC_LEN, DST_LEN, CIPH_BLOCK, CIPH_KEY,
BIT_CURSOR, BIT_MASK, BIT_N or BIT_DATA to the bits of the written word that it has, and changes nothing else; writes of
STATUS, RESULT_LEN and slots 11 to 15 are ignored; a read returns the slot's register, its reserved bits 0, and CMD and
slots 11 to 15 read 0; what is written reads back without its reserved bits; a read changes nothing but the list of
replies; a CMD word with a reserved bit set faults BAD_OP (10_state.md R31, R53, 20_memory.md R78). The queue and the
replies are the model's devices (log 1, log 2), and so is the fault log that a fault enters (60_exceptions.md R248,
log 3). -/
def Obligations.RegisterAccessRules : Prop :=
  ∀ (s : State) (rest : List HostOp) (data : Word), s.core = .idle →
    (s.host = .wr 2 data :: rest → step s = .next { s with host := rest, srcLen := data }) ∧
    (s.host = .wr 3 data :: rest → step s = .next { s with host := rest, dstLen := data }) ∧
    (s.host = .wr 5 data :: rest → step s = .next { s with host := rest, ciphBlock := data }) ∧
    (s.host = .wr 6 data :: rest → step s = .next { s with host := rest, ciphKey := data.extractLsb' 0 16 }) ∧
    (s.host = .wr 7 data :: rest → step s = .next { s with host := rest, bitCursor := data }) ∧
    (s.host = .wr 8 data :: rest → step s = .next { s with host := rest, bitMask := data.extractLsb' 0 8 }) ∧
    (s.host = .wr 9 data :: rest → step s = .next { s with host := rest, bitN := data.extractLsb' 0 5 }) ∧
    (s.host = .wr 10 data :: rest → step s = .next { s with host := rest, bitData := data.extractLsb' 0 16 }) ∧
    (∀ slot : Fin 16, slot = 1 ∨ slot = 4 ∨ 11 ≤ slot.val → s.host = .wr slot data :: rest →
      step s = .next { s with host := rest }) ∧
    (∀ (slot : Fin 16) (v : Word),
      (slot, v) ∈ [((0 : Fin 16), 0#32), (1, s.status), (2, s.srcLen), (3, s.dstLen), (4, s.resultLen), (5, s.ciphBlock),
        (6, 0#16 ++ s.ciphKey), (7, s.bitCursor), (8, 0#24 ++ s.bitMask), (9, 0#27 ++ s.bitN), (10, 0#16 ++ s.bitData),
        (11, 0#32), (12, 0#32), (13, 0#32), (14, 0#32), (15, 0#32)] →
      s.host = .rd slot :: rest →
      step s = .next { s with host := rest, replies := s.replies ++ [.reg slot v] }) ∧
    (∀ (slot : Fin 16) (used : Word),
      (slot, used) ∈ [((2 : Fin 16), 0xFFFFFFFF#32), (3, 0xFFFFFFFF#32), (5, 0xFFFFFFFF#32), (6, 0x0000FFFF#32),
        (7, 0xFFFFFFFF#32), (8, 0x000000FF#32), (9, 0x0000001F#32), (10, 0x0000FFFF#32)] →
      s.host = .wr slot data :: .rd slot :: rest →
      ∃ t, step s = .next t ∧
        step t = .next { t with host := rest, replies := s.replies ++ [.reg slot (data &&& used)] }) ∧
    (s.host = .wr 0 data :: rest → data.extractLsb' 5 27 ≠ 0#27 →
      step s = .next (afterFault { s with host := rest } .badOp))

/-- Host memory access: in IDLE a write of an existing byte changes that byte alone and no register, a later read returns
it, and a read changes nothing but the list of replies (20_memory.md R73, R74; the replies are log 2). -/
def Obligations.HostMemoryAccess : Prop :=
  ∀ (s : State) (sp : Space) (a : Nat) (v : Byte) (rest : List HostOp), s.core = .idle → MemoriesCanonical s →
    a < s.size sp →
    (s.host = .mw sp a v :: rest →
      ∃ t, step s = .next t ∧ (∀ sp' x, t.byteAt sp' x = if sp' = sp ∧ x = a then v else s.byteAt sp' x) ∧
        t = { s with host := rest, src := t.src, dst := t.dst }) ∧
    (s.host = .mr sp a :: rest →
      step s = .next { s with host := rest, replies := s.replies ++ [.byte sp a (s.byteAt sp a)] })

/-- The model's own stops, its choices where the spec has no move: a host access outside a memory (log 13), and a host
transaction other than a STATUS read while BUSY (log 14); and with no transaction pending a step changes nothing
(log 1). -/
def Obligations.StopsOutsideTheSpec : Prop :=
  ∀ (s : State) (rest : List HostOp),
    (∀ (sp : Space) (a : Nat) (v : Byte), s.core = .idle → s.size sp ≤ a →
      s.host = .mw sp a v :: rest ∨ s.host = .mr sp a :: rest → step s = .fault .hostOutOfRange) ∧
    (∀ op, s.core = .busy → s.host = op :: rest → op ≠ .rd 1 → step s = .refused .hostAccessWhileBusy) ∧
    (s.core = .busy → s.host = .rd 1 :: rest →
      step s = .next { s with host := rest, replies := s.replies ++ [.reg 1 s.status] }) ∧
    (s.host = [] → step s = .next s)

/-- Power-on reset leaves the core IDLE, STATUS and every register at the values of 70_reset_and_hazards.md R270, and
slots 0 and 11 to 15 reading 0. -/
def Obligations.ResetValues : Prop :=
  PowerOnReset State.reset ∧
    (∀ slot : Fin 16, slot ≠ 8 → State.reset.readReg (regOfSlot slot) = 0#32) ∧
    State.reset.readReg (regOfSlot 8) = 0x00000080#32

/-- After reset the core accepts a command at once: a write of any word to CMD, with no register written before, is a
step to a next state in which the core is IDLE and DONE is set (70_reset_and_hazards.md R272). -/
def Obligations.AcceptsCommandAfterReset : Prop :=
  ∀ (s : State) (w : Word) (rest : List HostOp), PowerOnReset s → s.host = .wr 0 w :: rest →
    ∃ t, step s = .next t ∧ t.core = .idle ∧ getFlag t.status flagDone = true

/-! ## Host programs -/

/-- A host program ends: from an IDLE state whose pending memory transactions name bytes that exist, every transaction is
one step to an IDLE state, the launch parameters stay, and the host's duty while BUSY never arises
(70_reset_and_hazards.md R281, R291, 20_memory.md R73). The queue is the model's choice (log 1). -/
def Obligations.HostProgramRunsToItsEnd : Prop :=
  ∀ s : State, s.core = .idle → (∀ op, op ∈ s.host → op.inRange s) → ∀ k, k ≤ s.host.length →
    ∃ t, run k s = .next t ∧ t.core = .idle ∧ t.host = s.host.drop k ∧ t.launch = s.launch ∧ KeepsBusyDuty t

/-- Along a run from the launch premises that ends with no fault taken, no command has faulted at any point before,
STATUS never shows FAULT, and the premises on the memory sizes and HIST_INIT hold at every point
(70_reset_and_hazards.md R274, R291, 00_scope.md R8). Of the registers' reset values and the host's duties after the
launch it says nothing. The fault log that says so is the model's device (60_exceptions.md R248, log 3). -/
def Obligations.NoFaultAndLaunchParametersHoldThroughout : Prop :=
  ∀ (n : Nat) (init : Memory) (streams : List ClaimedStream) (s : State), LaunchPremises n init streams s →
    ∀ k, k ≤ n → ∃ t, run k s = .next t ∧ NoFault t ∧ getFlag t.status flagFault = false ∧ MemSizes t ∧ HistInit init t

/-- A sequence of WRITE_BITS leaves its bit string in DST, where the host kept its duties: for any fields of 1 to 16 bits,
with the DST bytes they reach zero before the first, the sequence ends with the fields' bits in DST from the bit position
on, every other bit of DST and all of SRC as before, the position moved over the string, and no fault
(70_reset_and_hazards.md R274, R282, 40_bitstream.md R145, R147, R149). The queue that holds the sequence is the model's
choice (log 1). -/
def Obligations.WriteBitsSequenceLeavesString : Prop :=
  ∀ (fields : List (BitVec 5 × BitVec 16)) (rest : List HostOp) (s : State) (o : Nat), MemSizes s →
    Memory.wf s.dst = true → s.core = .idle → oneHot s.bitMask = true → bitOffset s.bitPos = o →
    (∀ f, f ∈ fields → 1 ≤ f.1.toNat ∧ f.1.toNat ≤ 16) → s.host = fieldProgram fields ++ rest → fields ≠ [] →
    (o + (fieldString fields).length - 1) / 8 < s.launch.dstMem →
    HostDuties [{ first := 2, width := (fieldString fields).length }] s →
    ∃ t, run (3 * fields.length) s = .next t ∧ t.host = rest ∧ t.status = 0x00000002#32 ∧ t.faultLog = s.faultLog ∧
      bitOffset t.bitPos = o + (fieldString fields).length ∧
      (∀ i, i < (fieldString fields).length → streamBit t.dst (o + i) = (fieldString fields).getD i false) ∧
      (∀ x, x < o ∨ o + (fieldString fields).length ≤ x → streamBit t.dst x = streamBit s.dst x) ∧
      ∀ a, t.byteAt .src a = s.byteAt .src a
end

