-- ==== Sys2Proof/Laws/BitEngine.lean ====
section
/-! SUPPORT. The laws of the bit engine: one-hot positions are linear offsets, the reader reads the stream's bits and
ends where `readEnd` says. -/

namespace Sys2Proof.Machine

/-! Positions and offsets. -/

theorem oneHot_shift (i : Nat) (h : i < 8) : oneHot (0x80#8 >>> i) = true := by
  interval_cases i <;> rfl

theorem oneHot_cases {mask : Byte} (h : oneHot mask = true) : ∃ i, i < 8 ∧ mask = 0x80#8 >>> i := by
  simp only [oneHot, decide_eq_true_eq, List.mem_cons, List.not_mem_nil, or_false] at h
  rcases h with h | h | h | h | h | h | h | h
  exacts [⟨0, by omega, h⟩, ⟨1, by omega, h⟩, ⟨2, by omega, h⟩, ⟨3, by omega, h⟩, ⟨4, by omega, h⟩, ⟨5, by omega, h⟩,
    ⟨6, by omega, h⟩, ⟨7, by omega, h⟩]

theorem log2_shift (i : Nat) (h : i < 8) : (0x80#8 >>> i).toNat.log2 = 7 - i := by
  interval_cases i <;> decide

@[simp] theorem posAt_cur (o : Nat) : (posAt o).cur = o / 8 := rfl

theorem oneHot_posAt (o : Nat) : oneHot (posAt o).mask = true := oneHot_shift _ (Nat.mod_lt _ (by omega))

@[simp] theorem bitOffset_posAt (o : Nat) : bitOffset (posAt o) = o := by
  have h := log2_shift (o % 8) (Nat.mod_lt _ (by omega))
  simp only [bitOffset, posAt, h]
  omega

/-- A one-hot position is the position at its offset (40_bitstream.md R140). -/
theorem posAt_bitOffset {pos : BitPos} (h : oneHot pos.mask = true) : posAt (bitOffset pos) = pos := by
  obtain ⟨i, hi, hm⟩ := oneHot_cases h
  obtain ⟨cur, mask⟩ := pos
  simp only at hm
  subst hm
  have hl := log2_shift i hi
  have h1 : (8 * cur + (7 - (7 - i))) / 8 = cur := by omega
  have h2 : (8 * cur + (7 - (7 - i))) % 8 = i := by omega
  simp only [bitOffset, posAt, hl, h1, h2]

@[simp] theorem posAt_zero : posAt 0 = BitPos.first := rfl

/-- Advance moves the offset one on (40_bitstream.md R142). -/
theorem advance_posAt (o : Nat) : advance (posAt o) = posAt (o + 1) := by
  have h8 : o % 8 < 8 := Nat.mod_lt _ (by omega)
  have hm : (posAt o).mask = 0x80#8 >>> (o % 8) := rfl
  have hc : (posAt o).cur = o / 8 := rfl
  have hlast : (0x80#8 >>> 7) >>> 1 = 0#8 := by decide
  have hstep : ∀ i : Nat, i < 8 → i ≠ 7 →
      (0x80#8 >>> i) >>> 1 ≠ 0#8 ∧ (0x80#8 >>> i) >>> 1 = 0x80#8 >>> (i + 1) := by decide
  have key : ∀ pos : BitPos, pos.mask = 0x80#8 >>> (o % 8) → pos.cur = o / 8 → advance pos = posAt (o + 1) := by
    intro pos hm hc
    unfold advance
    rw [hm, hc]
    by_cases h7 : o % 8 = 7
    · have e1 : (o + 1) / 8 = o / 8 + 1 := by omega
      have e2 : (o + 1) % 8 = 0 := by omega
      rw [h7, if_pos hlast, posAt, e1, e2]
      rfl
    · have e1 : (o + 1) / 8 = o / 8 := by omega
      have e2 : (o + 1) % 8 = o % 8 + 1 := by omega
      obtain ⟨hne, heq⟩ := hstep _ h8 h7
      rw [if_neg hne, heq, posAt, e1, e2]
  exact key _ hm hc

/-- The bit a mask picks out of a byte. -/
theorem and_shift_ne_zero (byte : Byte) (i : Nat) (h : i < 8) :
    (byte &&& (0x80#8 >>> i) != 0#8) = byte.getLsbD (7 - i) := by
  revert byte
  interval_cases i <;> decide

theorem or_shift_getLsbD (byte : Byte) (i j : Nat) (hi : i < 8) (hj : j < 8) :
    (byte ||| (0x80#8 >>> i)).getLsbD j = (byte.getLsbD j || decide (j = 7 - i)) := by
  rw [BitVec.getLsbD_or]
  congr 1
  interval_cases i <;> interval_cases j <;> rfl

/-! The reader. -/

/-- One bit read at an offset (40_bitstream.md R141, R143). -/
theorem readBit_posAt (rd : Nat → Option Byte) (len o : Nat) :
    readBit rd len (posAt o) =
      if 8 * len ≤ o then some (false, posAt o)
      else (rd (o / 8)).map fun byte => (byte.getLsbD (7 - o % 8), posAt (o + 1)) := by
  have h8 : o % 8 < 8 := Nat.mod_lt _ (by omega)
  have hc : (posAt o).cur = o / 8 := rfl
  unfold readBit
  by_cases h : 8 * len ≤ o
  · rw [if_pos h, if_pos (by omega)]
  · rw [if_neg h, if_neg (by omega), advance_posAt, hc]
    congr 1
    funext byte
    rw [posAt, and_shift_ne_zero _ _ h8]

theorem skip_step (len o : Nat) :
    (if len ≤ (posAt o).cur then posAt o else advance (posAt o)) = if 8 * len ≤ o then posAt o else posAt (o + 1) := by
  have hc : (posAt o).cur = o / 8 := rfl
  rw [advance_posAt]
  by_cases h : 8 * len ≤ o
  · rw [if_pos h, if_pos (by omega)]
  · rw [if_neg h, if_neg (by omega)]

/-- A read of `n` bits ends at `readEnd` (40_bitstream.md R143, R148). -/
theorem skipBits_posAt (len n o : Nat) : skipBits len n (posAt o) = readEnd len o n := by
  induction n generalizing o with
  | zero =>
    simp only [skipBits, readEnd, Nat.add_zero]
    by_cases h1 : o ≤ 8 * len
    · rw [if_pos h1]
    · rw [if_neg h1, if_pos (by omega)]
  | succ n ih =>
    rw [skipBits, skip_step]
    by_cases h : 8 * len ≤ o
    · rw [if_pos h, ih]
      simp only [readEnd]
      by_cases ho : o + n ≤ 8 * len
      · have hn : n = 0 := by omega
        subst hn
        have : o = 8 * len := by omega
        simp [this]
      · rw [if_neg ho, if_neg (c := o + (n + 1) ≤ 8 * len) (by omega)]
    · rw [if_neg h, ih]
      simp only [readEnd]
      have e : o + 1 + n = o + (n + 1) := by omega
      rw [e]
      by_cases ho : o + (n + 1) ≤ 8 * len
      · rw [if_pos ho, if_pos ho]
      · rw [if_neg ho, if_neg ho, if_neg h]
        by_cases hl : 8 * len ≤ o + 1
        · have : o + 1 = 8 * len := by omega
          rw [if_pos hl, this]
        · rw [if_neg hl]

theorem bitField_lt (bits : Nat → Bool) (o n : Nat) : bitField bits o n < 2 ^ n := by
  induction n generalizing o with
  | zero => simp [bitField]
  | succ n ih =>
    have := ih (o + 1)
    simp only [bitField, Nat.pow_succ]
    cases bits o <;> simp <;> omega

theorem bitField_congr {f g : Nat → Bool} {o n : Nat} (h : ∀ x, o ≤ x → x < o + n → f x = g x) :
    bitField f o n = bitField g o n := by
  induction n generalizing o with
  | zero => rfl
  | succ n ih =>
    simp only [bitField]
    rw [h o (by omega) (by omega), ih fun x h1 h2 => h x (by omega) (by omega)]

/-- Bit `i` of a field is the bit read `i` places before its last. -/
theorem bitField_testBit (bits : Nat → Bool) (o n i : Nat) :
    (bitField bits o n).testBit i = (decide (i < n) && bits (o + (n - 1 - i))) := by
  induction n generalizing o with
  | zero => simp [bitField]
  | succ n ih =>
    simp only [bitField]
    rw [Nat.testBit_two_pow_mul_add _ (bitField_lt bits (o + 1) n)]
    split
    · rename_i h
      rw [ih]
      have e : o + 1 + (n - 1 - i) = o + (n + 1 - 1 - i) := by omega
      rw [e]
      simp [h, Nat.lt_succ_of_lt h]
    · rename_i h
      by_cases hi : i = n
      · subst hi
        cases hb : bits o <;> simp [hb]
      · have h1 : ¬ i < n + 1 := by omega
        have h2 : i - n ≠ 0 := by omega
        obtain ⟨j, hj⟩ := Nat.exists_eq_succ_of_ne_zero h2
        rw [hj]
        cases hb : bits o <;> simp [h1, Nat.testBit_succ]

theorem bitField_append (bits : Nat → Bool) (o n1 n2 : Nat) :
    bitField bits o (n1 + n2) = bitField bits o n1 * 2 ^ n2 + bitField bits (o + n1) n2 := by
  induction n1 generalizing o with
  | zero => simp [bitField]
  | succ n1 ih =>
    have e : n1 + 1 + n2 = (n1 + n2) + 1 := by omega
    have e2 : o + 1 + n1 = o + (n1 + 1) := by omega
    rw [e]
    simp only [bitField]
    rw [ih, e2, Nat.pow_add]
    ring

/-- The bits a reader sees in a buffer whose bytes below `len` are `bytes`. -/
def seenBit (bytes : Nat → Byte) (len o : Nat) : Bool := decide (o < 8 * len) && (bytes (o / 8)).getLsbD (7 - o % 8)

theorem readBitsFrom_posAt {rd : Nat → Option Byte} {bytes : Nat → Byte} {len : Nat}
    (hrd : ∀ a, a < len → rd a = some (bytes a)) (n v o : Nat) :
    readBitsFrom rd len n v (posAt o) = some (v * 2 ^ n + bitField (seenBit bytes len) o n, readEnd len o n) := by
  induction n generalizing v o with
  | zero =>
    simp only [readBitsFrom, bitField, Nat.pow_zero, Nat.mul_one, Nat.add_zero]
    rw [← skipBits_posAt]
    rfl
  | succ n ih =>
    have hend : readEnd len o (n + 1) = readEnd len (if 8 * len ≤ o then o else o + 1) n := by
      rw [← skipBits_posAt, skipBits, skip_step]
      split <;> rw [skipBits_posAt]
    simp only [readBitsFrom, readBit_posAt, bitField]
    by_cases h : 8 * len ≤ o
    · have hz : bitField (seenBit bytes len) (o + 1) n = 0 := by
        have := bitField_congr (f := seenBit bytes len) (g := fun _ => false) (o := o + 1) (n := n) fun x h1 _ => by
          simp [seenBit]; omega
        rw [this]
        clear this ih hend
        generalize o + 1 = y
        induction n generalizing y with
        | zero => rfl
        | succ n ih => simp [bitField, ih]
      have hz' : bitField (seenBit bytes len) o n = 0 := by
        have := bitField_congr (f := seenBit bytes len) (g := fun _ => false) (o := o) (n := n) fun x h1 _ => by
          simp [seenBit]; omega
        rw [this]
        clear this ih hend hz
        generalize o = y
        induction n generalizing y with
        | zero => rfl
        | succ n ih => simp [bitField, ih]
      have hb : seenBit bytes len o = false := by simp [seenBit]; omega
      rw [if_pos h, Option.bind_some, ih, hend, if_pos h, hz, hz', hb]
      simp [Nat.pow_succ]
      ring
    · have ha : o / 8 < len := by omega
      have hb : seenBit bytes len o = (bytes (o / 8)).getLsbD (7 - o % 8) := by simp [seenBit]; omega
      rw [if_neg h, hrd _ ha, Option.map_some, Option.bind_some, ih, hend, if_neg h, hb]
      simp only [Nat.pow_succ]
      congr 2
      ring

/-- A read below and past the end: the field's bits with zeros past the end, and the position of `readEnd`
(40_bitstream.md R141 to R144). -/
theorem readBits_posAt {rd : Nat → Option Byte} {bytes : Nat → Byte} {len : Nat}
    (hrd : ∀ a, a < len → rd a = some (bytes a)) (n o : Nat) :
    readBits rd len n (posAt o) = some (bitField (seenBit bytes len) o n, readEnd len o n) := by
  rw [readBits, readBitsFrom_posAt hrd]
  simp

theorem readEnd_readEnd (len o n1 n2 : Nat) :
    ∃ o', readEnd len o n1 = posAt o' ∧ readEnd len o' n2 = readEnd len o (n1 + n2) ∧
      (o' = if o + n1 ≤ 8 * len then o + n1 else if 8 * len ≤ o then o else 8 * len) := by
  refine ⟨if o + n1 ≤ 8 * len then o + n1 else if 8 * len ≤ o then o else 8 * len, ?_, ?_, rfl⟩
  · simp only [readEnd]; split
    · rfl
    · split <;> rfl
  · simp only [readEnd]
    by_cases h1 : o + n1 ≤ 8 * len
    · simp only [if_pos h1, Nat.add_assoc]
      by_cases h2 : o + (n1 + n2) ≤ 8 * len
      · rw [if_pos h2, if_pos h2]
      · rw [if_neg h2, if_neg h2]
        by_cases h3 : 8 * len ≤ o + n1
        · have : o + n1 = 8 * len := by omega
          rw [if_pos h3, this]
          by_cases h4 : 8 * len ≤ o
          · have : o = 8 * len := by omega
            rw [if_pos h4, this]
          · rw [if_neg h4]
        · rw [if_neg h3, if_neg (by omega)]
    · simp only [if_neg h1]
      by_cases h2 : 8 * len ≤ o
      · simp only [if_pos h2]
        rw [if_neg (c := o + (n1 + n2) ≤ 8 * len) (by omega)]
        by_cases h3 : o + n2 ≤ 8 * len
        · rw [if_pos h3]
          have : n2 = 0 := by omega
          subst this; rfl
        · rw [if_neg h3]
      · simp only [if_neg h2]
        rw [if_neg (c := o + (n1 + n2) ≤ 8 * len) (by omega), if_pos (Nat.le_refl _)]
        by_cases h3 : 8 * len + n2 ≤ 8 * len
        · rw [if_pos h3]
          have : n2 = 0 := by omega
          subst this; rfl
        · rw [if_neg h3]

/-- Every position a read ends at is one-hot. -/
theorem oneHot_readEnd (len o n : Nat) : oneHot (readEnd len o n).mask = true := by
  simp only [readEnd]; split
  · exact oneHot_posAt _
  · split <;> exact oneHot_posAt _

end Sys2Proof.Machine
end

