-- ==== Sys2Proof/Laws/Memory.lean ====
section
/-! SUPPORT. The laws of a byte memory in canonical form: read after write, and that every operation keeps the form. -/

namespace Sys2Proof.Machine

@[simp] theorem Memory.read_nil (a : Nat) : Memory.read [] a = Config.unwritten := rfl

/-- A list whose entries all lie above `a` reads as unwritten at `a`. -/
theorem Memory.read_of_wfFrom_lt {lo : Nat} {mem : Memory} (h : Memory.wfFrom lo mem = true) {a : Nat} (ha : a < lo) :
    Memory.read mem a = Config.unwritten := by
  cases mem with
  | nil => rfl
  | cons cell rest =>
    obtain ⟨x, v⟩ := cell
    simp only [Memory.wfFrom, Bool.and_eq_true, decide_eq_true_eq] at h
    simp only [Memory.read]
    rw [if_pos (by omega)]

/-- A canonical list stays canonical from a lower bound. -/
theorem Memory.wfFrom_mono {lo lo' : Nat} {mem : Memory} (h : Memory.wfFrom lo mem = true) (hl : lo' ≤ lo) :
    Memory.wfFrom lo' mem = true := by
  cases mem with
  | nil => rfl
  | cons cell rest =>
    obtain ⟨x, v⟩ := cell
    simp only [Memory.wfFrom, Bool.and_eq_true, decide_eq_true_eq] at h ⊢
    exact ⟨⟨by omega, h.1.2⟩, h.2⟩

theorem Memory.put_wfFrom {lo a : Nat} {v : Byte} {rest : Memory} (hlo : lo ≤ a)
    (h : Memory.wfFrom (a + 1) rest = true) : Memory.wfFrom lo (Memory.put a v rest) = true := by
  unfold Memory.put
  split
  · exact Memory.wfFrom_mono h (by omega)
  · rename_i hv
    simp [Memory.wfFrom, h, hlo, hv]

theorem Memory.write_wfFrom {lo : Nat} {mem : Memory} (h : Memory.wfFrom lo mem = true) {a : Nat} (ha : lo ≤ a)
    (v : Byte) : Memory.wfFrom lo (Memory.write mem a v) = true := by
  induction mem generalizing lo with
  | nil => exact Memory.put_wfFrom ha rfl
  | cons cell rest ih =>
    obtain ⟨x, w⟩ := cell
    have h' := h
    simp only [Memory.wfFrom, Bool.and_eq_true, decide_eq_true_eq] at h
    simp only [Memory.write]
    split
    · refine Memory.put_wfFrom ha ?_
      simp only [Memory.wfFrom, Bool.and_eq_true, decide_eq_true_eq]
      exact ⟨⟨by omega, h.1.2⟩, h.2⟩
    · split
      · rename_i hax; subst hax
        exact Memory.put_wfFrom ha h.2
      · simp only [Memory.wfFrom, Bool.and_eq_true, decide_eq_true_eq]
        exact ⟨h.1, ih h.2 (by omega)⟩

/-- A write keeps the canonical form. -/
theorem Memory.write_wf {mem : Memory} (h : Memory.wf mem = true) (a : Nat) (v : Byte) :
    Memory.wf (Memory.write mem a v) = true :=
  Memory.write_wfFrom h (Nat.zero_le a) v

theorem Memory.read_put {a : Nat} {v : Byte} {rest : Memory} (h : Memory.wfFrom (a + 1) rest = true) (x : Nat) :
    Memory.read (Memory.put a v rest) x = if x = a then v else Memory.read rest x := by
  unfold Memory.put
  split
  · rename_i hv
    split
    · rename_i hx; subst hx
      rw [Memory.read_of_wfFrom_lt h (by omega), hv]
    · rfl
  · simp only [Memory.read]
    split
    · rename_i hlt
      rw [if_neg (by omega), Memory.read_of_wfFrom_lt h (by omega)]
    · rfl

theorem Memory.read_write_from {lo : Nat} {mem : Memory} (h : Memory.wfFrom lo mem = true) {a : Nat} (v : Byte)
    (x : Nat) : Memory.read (Memory.write mem a v) x = if x = a then v else Memory.read mem x := by
  induction mem generalizing lo with
  | nil => exact Memory.read_put (rest := []) rfl x
  | cons cell rest ih =>
    obtain ⟨y, w⟩ := cell
    have h' := h
    simp only [Memory.wfFrom, Bool.and_eq_true, decide_eq_true_eq] at h
    simp only [Memory.write]
    split
    · refine Memory.read_put ?_ x
      simp only [Memory.wfFrom, Bool.and_eq_true, decide_eq_true_eq]
      exact ⟨⟨by omega, h.1.2⟩, h.2⟩
    · split
      · rename_i hay; subst hay
        rw [Memory.read_put h.2]
        split
        · rfl
        · rename_i hx
          simp only [Memory.read]
          split
          · exact Memory.read_of_wfFrom_lt h.2 (by omega)
          · simp
      · simp only [Memory.read]
        by_cases hxy : x < y
        · have : x ≠ a := by omega
          simp [hxy, this]
        · by_cases hxe : x = y
          · have : x ≠ a := by omega
            simp [hxe]
            intro hya; omega
          · simp [hxy, hxe, ih h.2]

/-- Reading any address after a write: the byte written at its own address, the old byte elsewhere
(20_memory.md R74). -/
theorem Memory.read_write {mem : Memory} (h : Memory.wf mem = true) (a : Nat) (v : Byte) (x : Nat) :
    Memory.read (Memory.write mem a v) x = if x = a then v else Memory.read mem x :=
  Memory.read_write_from h v x

theorem Memory.below_iff {size : Nat} {mem : Memory} :
    Memory.below size mem = true ↔ ∀ cell ∈ mem, cell.1 < size := by
  simp [Memory.below]

theorem Memory.put_below {size a : Nat} {v : Byte} {rest : Memory} (ha : a < size)
    (h : Memory.below size rest = true) : Memory.below size (Memory.put a v rest) = true := by
  rw [Memory.below_iff] at h ⊢
  unfold Memory.put
  split
  · exact h
  · intro cell hc
    rcases List.mem_cons.mp hc with rfl | hc
    · exact ha
    · exact h cell hc

/-- A write at an address of the space lists no address outside it. -/
theorem Memory.write_below {size a : Nat} {mem : Memory} (h : Memory.below size mem = true) (ha : a < size) (v : Byte) :
    Memory.below size (Memory.write mem a v) = true := by
  induction mem with
  | nil => exact Memory.put_below ha h
  | cons cell rest ih =>
    obtain ⟨x, w⟩ := cell
    have hx : x < size := Memory.below_iff.mp h (x, w) (by simp)
    have hrest : Memory.below size rest = true :=
      Memory.below_iff.mpr fun c hc => Memory.below_iff.mp h c (by simp [hc])
    simp only [Memory.write]
    split
    · exact Memory.put_below ha h
    · split
      · exact Memory.put_below ha hrest
      · refine Memory.below_iff.mpr fun c hc => ?_
        rcases List.mem_cons.mp hc with rfl | hc
        · exact hx
        · exact Memory.below_iff.mp (ih hrest) c hc

theorem Memory.ext_from {lo : Nat} {m1 m2 : Memory} (h1 : Memory.wfFrom lo m1 = true) (h2 : Memory.wfFrom lo m2 = true)
    (h : ∀ a, Memory.read m1 a = Memory.read m2 a) : m1 = m2 := by
  induction m1 generalizing lo m2 with
  | nil =>
    cases m2 with
    | nil => rfl
    | cons cell rest =>
      obtain ⟨x, v⟩ := cell
      simp only [Memory.wfFrom, Bool.and_eq_true, decide_eq_true_eq, bne_iff_ne] at h2
      have := h x
      simp only [Memory.read, Nat.lt_irrefl, if_false, if_true] at this
      exact absurd this.symm h2.1.2
  | cons cell1 rest1 ih =>
    obtain ⟨x, v⟩ := cell1
    have hw1 := h1
    simp only [Memory.wfFrom, Bool.and_eq_true, decide_eq_true_eq, bne_iff_ne] at h1
    cases m2 with
    | nil =>
      have := h x
      simp only [Memory.read, Nat.lt_irrefl, if_false, if_true] at this
      exact absurd this h1.1.2
    | cons cell2 rest2 =>
      obtain ⟨y, w⟩ := cell2
      have hw2 := h2
      simp only [Memory.wfFrom, Bool.and_eq_true, decide_eq_true_eq, bne_iff_ne] at h2
      have hxy : x = y := by
        rcases Nat.lt_trichotomy x y with hlt | heq | hgt
        · have := h x
          simp only [Memory.read, Nat.lt_irrefl, if_false, if_true, if_pos hlt] at this
          exact absurd this h1.1.2
        · exact heq
        · have := h y
          simp only [Memory.read, Nat.lt_irrefl, if_false, if_true, if_pos hgt] at this
          exact absurd this.symm h2.1.2
      subst hxy
      have hv : v = w := by
        have := h x
        simpa only [Memory.read, Nat.lt_irrefl, if_false, if_true] using this
      subst hv
      congr 1
      refine ih h1.2 h2.2 fun a => ?_
      have ha := h a
      simp only [Memory.read] at ha
      by_cases hlt : a < x
      · rw [Memory.read_of_wfFrom_lt h1.2 (by omega), Memory.read_of_wfFrom_lt h2.2 (by omega)]
      · by_cases he : a = x
        · rw [Memory.read_of_wfFrom_lt h1.2 (by omega), Memory.read_of_wfFrom_lt h2.2 (by omega)]
        · simpa [hlt, he] using ha

/-- Canonical memories that read alike are equal: equal memories are equal data. -/
theorem Memory.ext {m1 m2 : Memory} (h1 : Memory.wf m1 = true) (h2 : Memory.wf m2 = true)
    (h : ∀ a, Memory.read m1 a = Memory.read m2 a) : m1 = m2 :=
  Memory.ext_from h1 h2 h

/-- An address that no entry may list reads as unwritten. -/
theorem Memory.read_of_below {size a : Nat} {mem : Memory} (h : Memory.below size mem = true) (ha : size ≤ a) :
    Memory.read mem a = Config.unwritten := by
  induction mem with
  | nil => rfl
  | cons cell rest ih =>
    obtain ⟨x, v⟩ := cell
    have hx : x < size := Memory.below_iff.mp h (x, v) (by simp)
    have hrest : Memory.below size rest = true :=
      Memory.below_iff.mpr fun c hc => Memory.below_iff.mp h c (by simp [hc])
    simp only [Memory.read]
    rw [if_neg (by omega), if_neg (by omega), ih hrest]

/-- Storing consecutive bytes keeps the canonical form. -/
theorem Memory.writeBytes_wf {mem : Memory} (h : Memory.wf mem = true) (a : Nat) (bytes : List Byte) :
    Memory.wf (Memory.writeBytes mem a bytes) = true := by
  induction bytes generalizing mem a with
  | nil => exact h
  | cons v rest ih => exact ih (Memory.write_wf h a v) (a + 1)

/-- Reading after consecutive bytes were stored from `a` on (30_encoding.md R114). -/
theorem Memory.read_writeBytes {mem : Memory} (h : Memory.wf mem = true) (a : Nat) (bytes : List Byte) (x : Nat) :
    Memory.read (Memory.writeBytes mem a bytes) x =
      if a ≤ x ∧ x < a + bytes.length then (bytes[x - a]?).getD Config.unwritten else Memory.read mem x := by
  induction bytes generalizing mem a with
  | nil =>
    simp only [Memory.writeBytes, List.length_nil]
    rw [if_neg (by omega)]
  | cons v rest ih =>
    simp only [Memory.writeBytes, List.length_cons]
    rw [ih (Memory.write_wf h a v), Memory.read_write h]
    by_cases hx : x = a
    · subst hx
      simp
    · by_cases hin : a + 1 ≤ x ∧ x < a + 1 + rest.length
      · rw [if_pos hin, if_pos (by omega)]
        have : x - a = (x - (a + 1)) + 1 := by omega
        rw [this, List.getElem?_cons_succ]
      · rw [if_neg hin, if_neg hx, if_neg (by omega)]

end Sys2Proof.Machine
end

