-- ==== Sys2Proof/Laws/State.lean ====
section
/-! SUPPORT. For each named update of State, one lemma per field: what the field holds after it. -/

namespace Sys2Proof.Machine

/-! `issue`: the start of a command. -/
@[simp] theorem State.issue_core (s : State) :
    (s.issue).core = .busy := rfl
@[simp] theorem State.issue_status (s : State) :
    (s.issue).status = 0#32 := rfl
@[simp] theorem State.issue_srcLen (s : State) :
    (s.issue).srcLen = s.srcLen := rfl
@[simp] theorem State.issue_dstLen (s : State) :
    (s.issue).dstLen = s.dstLen := rfl
@[simp] theorem State.issue_resultLen (s : State) :
    (s.issue).resultLen = s.resultLen := rfl
@[simp] theorem State.issue_ciphBlock (s : State) :
    (s.issue).ciphBlock = s.ciphBlock := rfl
@[simp] theorem State.issue_ciphKey (s : State) :
    (s.issue).ciphKey = s.ciphKey := rfl
@[simp] theorem State.issue_bitCursor (s : State) :
    (s.issue).bitCursor = s.bitCursor := rfl
@[simp] theorem State.issue_bitMask (s : State) :
    (s.issue).bitMask = s.bitMask := rfl
@[simp] theorem State.issue_bitN (s : State) :
    (s.issue).bitN = s.bitN := rfl
@[simp] theorem State.issue_bitData (s : State) :
    (s.issue).bitData = s.bitData := rfl
@[simp] theorem State.issue_src (s : State) :
    (s.issue).src = s.src := rfl
@[simp] theorem State.issue_dst (s : State) :
    (s.issue).dst = s.dst := rfl
@[simp] theorem State.issue_hist (s : State) :
    (s.issue).hist = s.hist := rfl
@[simp] theorem State.issue_scratch (s : State) :
    (s.issue).scratch = s.scratch := rfl
@[simp] theorem State.issue_rd (s : State) :
    (s.issue).rd = s.rd := rfl
@[simp] theorem State.issue_wr (s : State) :
    (s.issue).wr = s.wr := rfl
@[simp] theorem State.issue_q (s : State) :
    (s.issue).q = s.q := rfl
@[simp] theorem State.issue_term (s : State) :
    (s.issue).term = s.term := rfl
@[simp] theorem State.issue_ovr (s : State) :
    (s.issue).ovr = s.ovr := rfl
@[simp] theorem State.issue_p (s : State) :
    (s.issue).p = s.p := rfl
@[simp] theorem State.issue_best (s : State) :
    (s.issue).best = s.best := rfl
@[simp] theorem State.issue_bs (s : State) :
    (s.issue).bs = s.bs := rfl
@[simp] theorem State.issue_d (s : State) :
    (s.issue).d = s.d := rfl
@[simp] theorem State.issue_k (s : State) :
    (s.issue).k = s.k := rfl
@[simp] theorem State.issue_cap (s : State) :
    (s.issue).cap = s.cap := rfl
@[simp] theorem State.issue_m (s : State) :
    (s.issue).m = s.m := rfl
@[simp] theorem State.issue_c (s : State) :
    (s.issue).c = s.c := rfl
@[simp] theorem State.issue_start (s : State) :
    (s.issue).start = s.start := rfl
@[simp] theorem State.issue_b (s : State) :
    (s.issue).b = s.b := rfl
@[simp] theorem State.issue_t (s : State) :
    (s.issue).t = s.t := rfl
@[simp] theorem State.issue_P (s : State) :
    (s.issue).P = s.P := rfl
@[simp] theorem State.issue_launch (s : State) :
    (s.issue).launch = s.launch := rfl
@[simp] theorem State.issue_faultLog (s : State) :
    (s.issue).faultLog = s.faultLog := rfl
@[simp] theorem State.issue_host (s : State) :
    (s.issue).host = s.host := rfl
@[simp] theorem State.issue_replies (s : State) :
    (s.issue).replies = s.replies := rfl

/-! `takeFault`: taking a fault. -/
@[simp] theorem State.takeFault_core (s : State) (code : FaultCode) :
    (s.takeFault code).core = .idle := rfl
@[simp] theorem State.takeFault_status (s : State) (code : FaultCode) :
    (s.takeFault code).status = faultStatus s.status code := rfl
@[simp] theorem State.takeFault_srcLen (s : State) (code : FaultCode) :
    (s.takeFault code).srcLen = s.srcLen := rfl
@[simp] theorem State.takeFault_dstLen (s : State) (code : FaultCode) :
    (s.takeFault code).dstLen = s.dstLen := rfl
@[simp] theorem State.takeFault_resultLen (s : State) (code : FaultCode) :
    (s.takeFault code).resultLen = s.resultLen := rfl
@[simp] theorem State.takeFault_ciphBlock (s : State) (code : FaultCode) :
    (s.takeFault code).ciphBlock = s.ciphBlock := rfl
@[simp] theorem State.takeFault_ciphKey (s : State) (code : FaultCode) :
    (s.takeFault code).ciphKey = s.ciphKey := rfl
@[simp] theorem State.takeFault_bitCursor (s : State) (code : FaultCode) :
    (s.takeFault code).bitCursor = s.bitCursor := rfl
@[simp] theorem State.takeFault_bitMask (s : State) (code : FaultCode) :
    (s.takeFault code).bitMask = s.bitMask := rfl
@[simp] theorem State.takeFault_bitN (s : State) (code : FaultCode) :
    (s.takeFault code).bitN = s.bitN := rfl
@[simp] theorem State.takeFault_bitData (s : State) (code : FaultCode) :
    (s.takeFault code).bitData = s.bitData := rfl
@[simp] theorem State.takeFault_src (s : State) (code : FaultCode) :
    (s.takeFault code).src = s.src := rfl
@[simp] theorem State.takeFault_dst (s : State) (code : FaultCode) :
    (s.takeFault code).dst = s.dst := rfl
@[simp] theorem State.takeFault_hist (s : State) (code : FaultCode) :
    (s.takeFault code).hist = s.hist := rfl
@[simp] theorem State.takeFault_scratch (s : State) (code : FaultCode) :
    (s.takeFault code).scratch = s.scratch := rfl
@[simp] theorem State.takeFault_rd (s : State) (code : FaultCode) :
    (s.takeFault code).rd = s.rd := rfl
@[simp] theorem State.takeFault_wr (s : State) (code : FaultCode) :
    (s.takeFault code).wr = s.wr := rfl
@[simp] theorem State.takeFault_q (s : State) (code : FaultCode) :
    (s.takeFault code).q = s.q := rfl
@[simp] theorem State.takeFault_term (s : State) (code : FaultCode) :
    (s.takeFault code).term = s.term := rfl
@[simp] theorem State.takeFault_ovr (s : State) (code : FaultCode) :
    (s.takeFault code).ovr = s.ovr := rfl
@[simp] theorem State.takeFault_p (s : State) (code : FaultCode) :
    (s.takeFault code).p = s.p := rfl
@[simp] theorem State.takeFault_best (s : State) (code : FaultCode) :
    (s.takeFault code).best = s.best := rfl
@[simp] theorem State.takeFault_bs (s : State) (code : FaultCode) :
    (s.takeFault code).bs = s.bs := rfl
@[simp] theorem State.takeFault_d (s : State) (code : FaultCode) :
    (s.takeFault code).d = s.d := rfl
@[simp] theorem State.takeFault_k (s : State) (code : FaultCode) :
    (s.takeFault code).k = s.k := rfl
@[simp] theorem State.takeFault_cap (s : State) (code : FaultCode) :
    (s.takeFault code).cap = s.cap := rfl
@[simp] theorem State.takeFault_m (s : State) (code : FaultCode) :
    (s.takeFault code).m = s.m := rfl
@[simp] theorem State.takeFault_c (s : State) (code : FaultCode) :
    (s.takeFault code).c = s.c := rfl
@[simp] theorem State.takeFault_start (s : State) (code : FaultCode) :
    (s.takeFault code).start = s.start := rfl
@[simp] theorem State.takeFault_b (s : State) (code : FaultCode) :
    (s.takeFault code).b = s.b := rfl
@[simp] theorem State.takeFault_t (s : State) (code : FaultCode) :
    (s.takeFault code).t = s.t := rfl
@[simp] theorem State.takeFault_P (s : State) (code : FaultCode) :
    (s.takeFault code).P = s.P := rfl
@[simp] theorem State.takeFault_launch (s : State) (code : FaultCode) :
    (s.takeFault code).launch = s.launch := rfl
@[simp] theorem State.takeFault_faultLog (s : State) (code : FaultCode) :
    (s.takeFault code).faultLog = s.faultLog ++ [code] := rfl
@[simp] theorem State.takeFault_host (s : State) (code : FaultCode) :
    (s.takeFault code).host = s.host := rfl
@[simp] theorem State.takeFault_replies (s : State) (code : FaultCode) :
    (s.takeFault code).replies = s.replies := rfl

/-! `complete`: the end of a command. -/
@[simp] theorem State.complete_core (s : State) :
    (s.complete).core = .idle := rfl
@[simp] theorem State.complete_status (s : State) :
    (s.complete).status = setFlag s.status flagDone true := rfl
@[simp] theorem State.complete_srcLen (s : State) :
    (s.complete).srcLen = s.srcLen := rfl
@[simp] theorem State.complete_dstLen (s : State) :
    (s.complete).dstLen = s.dstLen := rfl
@[simp] theorem State.complete_resultLen (s : State) :
    (s.complete).resultLen = s.resultLen := rfl
@[simp] theorem State.complete_ciphBlock (s : State) :
    (s.complete).ciphBlock = s.ciphBlock := rfl
@[simp] theorem State.complete_ciphKey (s : State) :
    (s.complete).ciphKey = s.ciphKey := rfl
@[simp] theorem State.complete_bitCursor (s : State) :
    (s.complete).bitCursor = s.bitCursor := rfl
@[simp] theorem State.complete_bitMask (s : State) :
    (s.complete).bitMask = s.bitMask := rfl
@[simp] theorem State.complete_bitN (s : State) :
    (s.complete).bitN = s.bitN := rfl
@[simp] theorem State.complete_bitData (s : State) :
    (s.complete).bitData = s.bitData := rfl
@[simp] theorem State.complete_src (s : State) :
    (s.complete).src = s.src := rfl
@[simp] theorem State.complete_dst (s : State) :
    (s.complete).dst = s.dst := rfl
@[simp] theorem State.complete_hist (s : State) :
    (s.complete).hist = s.hist := rfl
@[simp] theorem State.complete_scratch (s : State) :
    (s.complete).scratch = s.scratch := rfl
@[simp] theorem State.complete_rd (s : State) :
    (s.complete).rd = s.rd := rfl
@[simp] theorem State.complete_wr (s : State) :
    (s.complete).wr = s.wr := rfl
@[simp] theorem State.complete_q (s : State) :
    (s.complete).q = s.q := rfl
@[simp] theorem State.complete_term (s : State) :
    (s.complete).term = s.term := rfl
@[simp] theorem State.complete_ovr (s : State) :
    (s.complete).ovr = s.ovr := rfl
@[simp] theorem State.complete_p (s : State) :
    (s.complete).p = s.p := rfl
@[simp] theorem State.complete_best (s : State) :
    (s.complete).best = s.best := rfl
@[simp] theorem State.complete_bs (s : State) :
    (s.complete).bs = s.bs := rfl
@[simp] theorem State.complete_d (s : State) :
    (s.complete).d = s.d := rfl
@[simp] theorem State.complete_k (s : State) :
    (s.complete).k = s.k := rfl
@[simp] theorem State.complete_cap (s : State) :
    (s.complete).cap = s.cap := rfl
@[simp] theorem State.complete_m (s : State) :
    (s.complete).m = s.m := rfl
@[simp] theorem State.complete_c (s : State) :
    (s.complete).c = s.c := rfl
@[simp] theorem State.complete_start (s : State) :
    (s.complete).start = s.start := rfl
@[simp] theorem State.complete_b (s : State) :
    (s.complete).b = s.b := rfl
@[simp] theorem State.complete_t (s : State) :
    (s.complete).t = s.t := rfl
@[simp] theorem State.complete_P (s : State) :
    (s.complete).P = s.P := rfl
@[simp] theorem State.complete_launch (s : State) :
    (s.complete).launch = s.launch := rfl
@[simp] theorem State.complete_faultLog (s : State) :
    (s.complete).faultLog = s.faultLog := rfl
@[simp] theorem State.complete_host (s : State) :
    (s.complete).host = s.host := rfl
@[simp] theorem State.complete_replies (s : State) :
    (s.complete).replies = s.replies := rfl

/-! `setBitPos`: the position registers. -/
@[simp] theorem State.setBitPos_core (s : State) (pos : BitPos) :
    (s.setBitPos pos).core = s.core := rfl
@[simp] theorem State.setBitPos_status (s : State) (pos : BitPos) :
    (s.setBitPos pos).status = s.status := rfl
@[simp] theorem State.setBitPos_srcLen (s : State) (pos : BitPos) :
    (s.setBitPos pos).srcLen = s.srcLen := rfl
@[simp] theorem State.setBitPos_dstLen (s : State) (pos : BitPos) :
    (s.setBitPos pos).dstLen = s.dstLen := rfl
@[simp] theorem State.setBitPos_resultLen (s : State) (pos : BitPos) :
    (s.setBitPos pos).resultLen = s.resultLen := rfl
@[simp] theorem State.setBitPos_ciphBlock (s : State) (pos : BitPos) :
    (s.setBitPos pos).ciphBlock = s.ciphBlock := rfl
@[simp] theorem State.setBitPos_ciphKey (s : State) (pos : BitPos) :
    (s.setBitPos pos).ciphKey = s.ciphKey := rfl
@[simp] theorem State.setBitPos_bitCursor (s : State) (pos : BitPos) :
    (s.setBitPos pos).bitCursor = BitVec.ofNat 32 pos.cur := rfl
@[simp] theorem State.setBitPos_bitMask (s : State) (pos : BitPos) :
    (s.setBitPos pos).bitMask = pos.mask := rfl
@[simp] theorem State.setBitPos_bitN (s : State) (pos : BitPos) :
    (s.setBitPos pos).bitN = s.bitN := rfl
@[simp] theorem State.setBitPos_bitData (s : State) (pos : BitPos) :
    (s.setBitPos pos).bitData = s.bitData := rfl
@[simp] theorem State.setBitPos_src (s : State) (pos : BitPos) :
    (s.setBitPos pos).src = s.src := rfl
@[simp] theorem State.setBitPos_dst (s : State) (pos : BitPos) :
    (s.setBitPos pos).dst = s.dst := rfl
@[simp] theorem State.setBitPos_hist (s : State) (pos : BitPos) :
    (s.setBitPos pos).hist = s.hist := rfl
@[simp] theorem State.setBitPos_scratch (s : State) (pos : BitPos) :
    (s.setBitPos pos).scratch = s.scratch := rfl
@[simp] theorem State.setBitPos_rd (s : State) (pos : BitPos) :
    (s.setBitPos pos).rd = s.rd := rfl
@[simp] theorem State.setBitPos_wr (s : State) (pos : BitPos) :
    (s.setBitPos pos).wr = s.wr := rfl
@[simp] theorem State.setBitPos_q (s : State) (pos : BitPos) :
    (s.setBitPos pos).q = s.q := rfl
@[simp] theorem State.setBitPos_term (s : State) (pos : BitPos) :
    (s.setBitPos pos).term = s.term := rfl
@[simp] theorem State.setBitPos_ovr (s : State) (pos : BitPos) :
    (s.setBitPos pos).ovr = s.ovr := rfl
@[simp] theorem State.setBitPos_p (s : State) (pos : BitPos) :
    (s.setBitPos pos).p = s.p := rfl
@[simp] theorem State.setBitPos_best (s : State) (pos : BitPos) :
    (s.setBitPos pos).best = s.best := rfl
@[simp] theorem State.setBitPos_bs (s : State) (pos : BitPos) :
    (s.setBitPos pos).bs = s.bs := rfl
@[simp] theorem State.setBitPos_d (s : State) (pos : BitPos) :
    (s.setBitPos pos).d = s.d := rfl
@[simp] theorem State.setBitPos_k (s : State) (pos : BitPos) :
    (s.setBitPos pos).k = s.k := rfl
@[simp] theorem State.setBitPos_cap (s : State) (pos : BitPos) :
    (s.setBitPos pos).cap = s.cap := rfl
@[simp] theorem State.setBitPos_m (s : State) (pos : BitPos) :
    (s.setBitPos pos).m = s.m := rfl
@[simp] theorem State.setBitPos_c (s : State) (pos : BitPos) :
    (s.setBitPos pos).c = s.c := rfl
@[simp] theorem State.setBitPos_start (s : State) (pos : BitPos) :
    (s.setBitPos pos).start = s.start := rfl
@[simp] theorem State.setBitPos_b (s : State) (pos : BitPos) :
    (s.setBitPos pos).b = s.b := rfl
@[simp] theorem State.setBitPos_t (s : State) (pos : BitPos) :
    (s.setBitPos pos).t = s.t := rfl
@[simp] theorem State.setBitPos_P (s : State) (pos : BitPos) :
    (s.setBitPos pos).P = s.P := rfl
@[simp] theorem State.setBitPos_launch (s : State) (pos : BitPos) :
    (s.setBitPos pos).launch = s.launch := rfl
@[simp] theorem State.setBitPos_faultLog (s : State) (pos : BitPos) :
    (s.setBitPos pos).faultLog = s.faultLog := rfl
@[simp] theorem State.setBitPos_host (s : State) (pos : BitPos) :
    (s.setBitPos pos).host = s.host := rfl
@[simp] theorem State.setBitPos_replies (s : State) (pos : BitPos) :
    (s.setBitPos pos).replies = s.replies := rfl

/-! `histWrite`: a write of HIST. -/
@[simp] theorem State.histWrite_core (s : State) (i : Nat) (v : Byte) :
    (s.histWrite i v).core = s.core := rfl
@[simp] theorem State.histWrite_status (s : State) (i : Nat) (v : Byte) :
    (s.histWrite i v).status = s.status := rfl
@[simp] theorem State.histWrite_srcLen (s : State) (i : Nat) (v : Byte) :
    (s.histWrite i v).srcLen = s.srcLen := rfl
@[simp] theorem State.histWrite_dstLen (s : State) (i : Nat) (v : Byte) :
    (s.histWrite i v).dstLen = s.dstLen := rfl
@[simp] theorem State.histWrite_resultLen (s : State) (i : Nat) (v : Byte) :
    (s.histWrite i v).resultLen = s.resultLen := rfl
@[simp] theorem State.histWrite_ciphBlock (s : State) (i : Nat) (v : Byte) :
    (s.histWrite i v).ciphBlock = s.ciphBlock := rfl
@[simp] theorem State.histWrite_ciphKey (s : State) (i : Nat) (v : Byte) :
    (s.histWrite i v).ciphKey = s.ciphKey := rfl
@[simp] theorem State.histWrite_bitCursor (s : State) (i : Nat) (v : Byte) :
    (s.histWrite i v).bitCursor = s.bitCursor := rfl
@[simp] theorem State.histWrite_bitMask (s : State) (i : Nat) (v : Byte) :
    (s.histWrite i v).bitMask = s.bitMask := rfl
@[simp] theorem State.histWrite_bitN (s : State) (i : Nat) (v : Byte) :
    (s.histWrite i v).bitN = s.bitN := rfl
@[simp] theorem State.histWrite_bitData (s : State) (i : Nat) (v : Byte) :
    (s.histWrite i v).bitData = s.bitData := rfl
@[simp] theorem State.histWrite_src (s : State) (i : Nat) (v : Byte) :
    (s.histWrite i v).src = s.src := rfl
@[simp] theorem State.histWrite_dst (s : State) (i : Nat) (v : Byte) :
    (s.histWrite i v).dst = s.dst := rfl
@[simp] theorem State.histWrite_hist (s : State) (i : Nat) (v : Byte) :
    (s.histWrite i v).hist = Memory.write s.hist (i % Config.histSize) v := rfl
@[simp] theorem State.histWrite_scratch (s : State) (i : Nat) (v : Byte) :
    (s.histWrite i v).scratch = s.scratch := rfl
@[simp] theorem State.histWrite_rd (s : State) (i : Nat) (v : Byte) :
    (s.histWrite i v).rd = s.rd := rfl
@[simp] theorem State.histWrite_wr (s : State) (i : Nat) (v : Byte) :
    (s.histWrite i v).wr = s.wr := rfl
@[simp] theorem State.histWrite_q (s : State) (i : Nat) (v : Byte) :
    (s.histWrite i v).q = s.q := rfl
@[simp] theorem State.histWrite_term (s : State) (i : Nat) (v : Byte) :
    (s.histWrite i v).term = s.term := rfl
@[simp] theorem State.histWrite_ovr (s : State) (i : Nat) (v : Byte) :
    (s.histWrite i v).ovr = s.ovr := rfl
@[simp] theorem State.histWrite_p (s : State) (i : Nat) (v : Byte) :
    (s.histWrite i v).p = s.p := rfl
@[simp] theorem State.histWrite_best (s : State) (i : Nat) (v : Byte) :
    (s.histWrite i v).best = s.best := rfl
@[simp] theorem State.histWrite_bs (s : State) (i : Nat) (v : Byte) :
    (s.histWrite i v).bs = s.bs := rfl
@[simp] theorem State.histWrite_d (s : State) (i : Nat) (v : Byte) :
    (s.histWrite i v).d = s.d := rfl
@[simp] theorem State.histWrite_k (s : State) (i : Nat) (v : Byte) :
    (s.histWrite i v).k = s.k := rfl
@[simp] theorem State.histWrite_cap (s : State) (i : Nat) (v : Byte) :
    (s.histWrite i v).cap = s.cap := rfl
@[simp] theorem State.histWrite_m (s : State) (i : Nat) (v : Byte) :
    (s.histWrite i v).m = s.m := rfl
@[simp] theorem State.histWrite_c (s : State) (i : Nat) (v : Byte) :
    (s.histWrite i v).c = s.c := rfl
@[simp] theorem State.histWrite_start (s : State) (i : Nat) (v : Byte) :
    (s.histWrite i v).start = s.start := rfl
@[simp] theorem State.histWrite_b (s : State) (i : Nat) (v : Byte) :
    (s.histWrite i v).b = s.b := rfl
@[simp] theorem State.histWrite_t (s : State) (i : Nat) (v : Byte) :
    (s.histWrite i v).t = s.t := rfl
@[simp] theorem State.histWrite_P (s : State) (i : Nat) (v : Byte) :
    (s.histWrite i v).P = s.P := rfl
@[simp] theorem State.histWrite_launch (s : State) (i : Nat) (v : Byte) :
    (s.histWrite i v).launch = s.launch := rfl
@[simp] theorem State.histWrite_faultLog (s : State) (i : Nat) (v : Byte) :
    (s.histWrite i v).faultLog = s.faultLog := rfl
@[simp] theorem State.histWrite_host (s : State) (i : Nat) (v : Byte) :
    (s.histWrite i v).host = s.host := rfl
@[simp] theorem State.histWrite_replies (s : State) (i : Nat) (v : Byte) :
    (s.histWrite i v).replies = s.replies := rfl

/-! `skipToken`: the read engine over a token. -/
@[simp] theorem State.skipToken_core (s : State) (n : Nat) :
    (s.skipToken n).core = s.core := rfl
@[simp] theorem State.skipToken_status (s : State) (n : Nat) :
    (s.skipToken n).status = s.status := rfl
@[simp] theorem State.skipToken_srcLen (s : State) (n : Nat) :
    (s.skipToken n).srcLen = s.srcLen := rfl
@[simp] theorem State.skipToken_dstLen (s : State) (n : Nat) :
    (s.skipToken n).dstLen = s.dstLen := rfl
@[simp] theorem State.skipToken_resultLen (s : State) (n : Nat) :
    (s.skipToken n).resultLen = s.resultLen := rfl
@[simp] theorem State.skipToken_ciphBlock (s : State) (n : Nat) :
    (s.skipToken n).ciphBlock = s.ciphBlock := rfl
@[simp] theorem State.skipToken_ciphKey (s : State) (n : Nat) :
    (s.skipToken n).ciphKey = s.ciphKey := rfl
@[simp] theorem State.skipToken_bitCursor (s : State) (n : Nat) :
    (s.skipToken n).bitCursor = s.bitCursor := rfl
@[simp] theorem State.skipToken_bitMask (s : State) (n : Nat) :
    (s.skipToken n).bitMask = s.bitMask := rfl
@[simp] theorem State.skipToken_bitN (s : State) (n : Nat) :
    (s.skipToken n).bitN = s.bitN := rfl
@[simp] theorem State.skipToken_bitData (s : State) (n : Nat) :
    (s.skipToken n).bitData = s.bitData := rfl
@[simp] theorem State.skipToken_src (s : State) (n : Nat) :
    (s.skipToken n).src = s.src := rfl
@[simp] theorem State.skipToken_dst (s : State) (n : Nat) :
    (s.skipToken n).dst = s.dst := rfl
@[simp] theorem State.skipToken_hist (s : State) (n : Nat) :
    (s.skipToken n).hist = s.hist := rfl
@[simp] theorem State.skipToken_scratch (s : State) (n : Nat) :
    (s.skipToken n).scratch = s.scratch := rfl
@[simp] theorem State.skipToken_rd (s : State) (n : Nat) :
    (s.skipToken n).rd = skipBits s.srcLen.toNat n s.rd := rfl
@[simp] theorem State.skipToken_wr (s : State) (n : Nat) :
    (s.skipToken n).wr = s.wr := rfl
@[simp] theorem State.skipToken_q (s : State) (n : Nat) :
    (s.skipToken n).q = s.q := rfl
@[simp] theorem State.skipToken_term (s : State) (n : Nat) :
    (s.skipToken n).term = s.term := rfl
@[simp] theorem State.skipToken_ovr (s : State) (n : Nat) :
    (s.skipToken n).ovr = s.ovr := rfl
@[simp] theorem State.skipToken_p (s : State) (n : Nat) :
    (s.skipToken n).p = s.p := rfl
@[simp] theorem State.skipToken_best (s : State) (n : Nat) :
    (s.skipToken n).best = s.best := rfl
@[simp] theorem State.skipToken_bs (s : State) (n : Nat) :
    (s.skipToken n).bs = s.bs := rfl
@[simp] theorem State.skipToken_d (s : State) (n : Nat) :
    (s.skipToken n).d = s.d := rfl
@[simp] theorem State.skipToken_k (s : State) (n : Nat) :
    (s.skipToken n).k = s.k := rfl
@[simp] theorem State.skipToken_cap (s : State) (n : Nat) :
    (s.skipToken n).cap = s.cap := rfl
@[simp] theorem State.skipToken_m (s : State) (n : Nat) :
    (s.skipToken n).m = s.m := rfl
@[simp] theorem State.skipToken_c (s : State) (n : Nat) :
    (s.skipToken n).c = s.c := rfl
@[simp] theorem State.skipToken_start (s : State) (n : Nat) :
    (s.skipToken n).start = s.start := rfl
@[simp] theorem State.skipToken_b (s : State) (n : Nat) :
    (s.skipToken n).b = s.b := rfl
@[simp] theorem State.skipToken_t (s : State) (n : Nat) :
    (s.skipToken n).t = s.t := rfl
@[simp] theorem State.skipToken_P (s : State) (n : Nat) :
    (s.skipToken n).P = s.P := rfl
@[simp] theorem State.skipToken_launch (s : State) (n : Nat) :
    (s.skipToken n).launch = s.launch := rfl
@[simp] theorem State.skipToken_faultLog (s : State) (n : Nat) :
    (s.skipToken n).faultLog = s.faultLog := rfl
@[simp] theorem State.skipToken_host (s : State) (n : Nat) :
    (s.skipToken n).host = s.host := rfl
@[simp] theorem State.skipToken_replies (s : State) (n : Nat) :
    (s.skipToken n).replies = s.replies := rfl

/-! `reply`: a value for the host. -/
@[simp] theorem State.reply_core (s : State) (r : Reply) :
    (s.reply r).core = s.core := rfl
@[simp] theorem State.reply_status (s : State) (r : Reply) :
    (s.reply r).status = s.status := rfl
@[simp] theorem State.reply_srcLen (s : State) (r : Reply) :
    (s.reply r).srcLen = s.srcLen := rfl
@[simp] theorem State.reply_dstLen (s : State) (r : Reply) :
    (s.reply r).dstLen = s.dstLen := rfl
@[simp] theorem State.reply_resultLen (s : State) (r : Reply) :
    (s.reply r).resultLen = s.resultLen := rfl
@[simp] theorem State.reply_ciphBlock (s : State) (r : Reply) :
    (s.reply r).ciphBlock = s.ciphBlock := rfl
@[simp] theorem State.reply_ciphKey (s : State) (r : Reply) :
    (s.reply r).ciphKey = s.ciphKey := rfl
@[simp] theorem State.reply_bitCursor (s : State) (r : Reply) :
    (s.reply r).bitCursor = s.bitCursor := rfl
@[simp] theorem State.reply_bitMask (s : State) (r : Reply) :
    (s.reply r).bitMask = s.bitMask := rfl
@[simp] theorem State.reply_bitN (s : State) (r : Reply) :
    (s.reply r).bitN = s.bitN := rfl
@[simp] theorem State.reply_bitData (s : State) (r : Reply) :
    (s.reply r).bitData = s.bitData := rfl
@[simp] theorem State.reply_src (s : State) (r : Reply) :
    (s.reply r).src = s.src := rfl
@[simp] theorem State.reply_dst (s : State) (r : Reply) :
    (s.reply r).dst = s.dst := rfl
@[simp] theorem State.reply_hist (s : State) (r : Reply) :
    (s.reply r).hist = s.hist := rfl
@[simp] theorem State.reply_scratch (s : State) (r : Reply) :
    (s.reply r).scratch = s.scratch := rfl
@[simp] theorem State.reply_rd (s : State) (r : Reply) :
    (s.reply r).rd = s.rd := rfl
@[simp] theorem State.reply_wr (s : State) (r : Reply) :
    (s.reply r).wr = s.wr := rfl
@[simp] theorem State.reply_q (s : State) (r : Reply) :
    (s.reply r).q = s.q := rfl
@[simp] theorem State.reply_term (s : State) (r : Reply) :
    (s.reply r).term = s.term := rfl
@[simp] theorem State.reply_ovr (s : State) (r : Reply) :
    (s.reply r).ovr = s.ovr := rfl
@[simp] theorem State.reply_p (s : State) (r : Reply) :
    (s.reply r).p = s.p := rfl
@[simp] theorem State.reply_best (s : State) (r : Reply) :
    (s.reply r).best = s.best := rfl
@[simp] theorem State.reply_bs (s : State) (r : Reply) :
    (s.reply r).bs = s.bs := rfl
@[simp] theorem State.reply_d (s : State) (r : Reply) :
    (s.reply r).d = s.d := rfl
@[simp] theorem State.reply_k (s : State) (r : Reply) :
    (s.reply r).k = s.k := rfl
@[simp] theorem State.reply_cap (s : State) (r : Reply) :
    (s.reply r).cap = s.cap := rfl
@[simp] theorem State.reply_m (s : State) (r : Reply) :
    (s.reply r).m = s.m := rfl
@[simp] theorem State.reply_c (s : State) (r : Reply) :
    (s.reply r).c = s.c := rfl
@[simp] theorem State.reply_start (s : State) (r : Reply) :
    (s.reply r).start = s.start := rfl
@[simp] theorem State.reply_b (s : State) (r : Reply) :
    (s.reply r).b = s.b := rfl
@[simp] theorem State.reply_t (s : State) (r : Reply) :
    (s.reply r).t = s.t := rfl
@[simp] theorem State.reply_P (s : State) (r : Reply) :
    (s.reply r).P = s.P := rfl
@[simp] theorem State.reply_launch (s : State) (r : Reply) :
    (s.reply r).launch = s.launch := rfl
@[simp] theorem State.reply_faultLog (s : State) (r : Reply) :
    (s.reply r).faultLog = s.faultLog := rfl
@[simp] theorem State.reply_host (s : State) (r : Reply) :
    (s.reply r).host = s.host := rfl
@[simp] theorem State.reply_replies (s : State) (r : Reply) :
    (s.reply r).replies = s.replies ++ [r] := rfl

/-! `withCommand`: a command queued. -/
@[simp] theorem State.withCommand_core (s : State) (w : Word) :
    (s.withCommand w).core = .idle := rfl
@[simp] theorem State.withCommand_status (s : State) (w : Word) :
    (s.withCommand w).status = s.status := rfl
@[simp] theorem State.withCommand_srcLen (s : State) (w : Word) :
    (s.withCommand w).srcLen = s.srcLen := rfl
@[simp] theorem State.withCommand_dstLen (s : State) (w : Word) :
    (s.withCommand w).dstLen = s.dstLen := rfl
@[simp] theorem State.withCommand_resultLen (s : State) (w : Word) :
    (s.withCommand w).resultLen = s.resultLen := rfl
@[simp] theorem State.withCommand_ciphBlock (s : State) (w : Word) :
    (s.withCommand w).ciphBlock = s.ciphBlock := rfl
@[simp] theorem State.withCommand_ciphKey (s : State) (w : Word) :
    (s.withCommand w).ciphKey = s.ciphKey := rfl
@[simp] theorem State.withCommand_bitCursor (s : State) (w : Word) :
    (s.withCommand w).bitCursor = s.bitCursor := rfl
@[simp] theorem State.withCommand_bitMask (s : State) (w : Word) :
    (s.withCommand w).bitMask = s.bitMask := rfl
@[simp] theorem State.withCommand_bitN (s : State) (w : Word) :
    (s.withCommand w).bitN = s.bitN := rfl
@[simp] theorem State.withCommand_bitData (s : State) (w : Word) :
    (s.withCommand w).bitData = s.bitData := rfl
@[simp] theorem State.withCommand_src (s : State) (w : Word) :
    (s.withCommand w).src = s.src := rfl
@[simp] theorem State.withCommand_dst (s : State) (w : Word) :
    (s.withCommand w).dst = s.dst := rfl
@[simp] theorem State.withCommand_hist (s : State) (w : Word) :
    (s.withCommand w).hist = s.hist := rfl
@[simp] theorem State.withCommand_scratch (s : State) (w : Word) :
    (s.withCommand w).scratch = s.scratch := rfl
@[simp] theorem State.withCommand_rd (s : State) (w : Word) :
    (s.withCommand w).rd = s.rd := rfl
@[simp] theorem State.withCommand_wr (s : State) (w : Word) :
    (s.withCommand w).wr = s.wr := rfl
@[simp] theorem State.withCommand_q (s : State) (w : Word) :
    (s.withCommand w).q = s.q := rfl
@[simp] theorem State.withCommand_term (s : State) (w : Word) :
    (s.withCommand w).term = s.term := rfl
@[simp] theorem State.withCommand_ovr (s : State) (w : Word) :
    (s.withCommand w).ovr = s.ovr := rfl
@[simp] theorem State.withCommand_p (s : State) (w : Word) :
    (s.withCommand w).p = s.p := rfl
@[simp] theorem State.withCommand_best (s : State) (w : Word) :
    (s.withCommand w).best = s.best := rfl
@[simp] theorem State.withCommand_bs (s : State) (w : Word) :
    (s.withCommand w).bs = s.bs := rfl
@[simp] theorem State.withCommand_d (s : State) (w : Word) :
    (s.withCommand w).d = s.d := rfl
@[simp] theorem State.withCommand_k (s : State) (w : Word) :
    (s.withCommand w).k = s.k := rfl
@[simp] theorem State.withCommand_cap (s : State) (w : Word) :
    (s.withCommand w).cap = s.cap := rfl
@[simp] theorem State.withCommand_m (s : State) (w : Word) :
    (s.withCommand w).m = s.m := rfl
@[simp] theorem State.withCommand_c (s : State) (w : Word) :
    (s.withCommand w).c = s.c := rfl
@[simp] theorem State.withCommand_start (s : State) (w : Word) :
    (s.withCommand w).start = s.start := rfl
@[simp] theorem State.withCommand_b (s : State) (w : Word) :
    (s.withCommand w).b = s.b := rfl
@[simp] theorem State.withCommand_t (s : State) (w : Word) :
    (s.withCommand w).t = s.t := rfl
@[simp] theorem State.withCommand_P (s : State) (w : Word) :
    (s.withCommand w).P = s.P := rfl
@[simp] theorem State.withCommand_launch (s : State) (w : Word) :
    (s.withCommand w).launch = s.launch := rfl
@[simp] theorem State.withCommand_faultLog (s : State) (w : Word) :
    (s.withCommand w).faultLog = s.faultLog := rfl
@[simp] theorem State.withCommand_host (s : State) (w : Word) :
    (s.withCommand w).host = HostOp.cmd w :: s.host := rfl
@[simp] theorem State.withCommand_replies (s : State) (w : Word) :
    (s.withCommand w).replies = s.replies := rfl

/-! `withStream`: a token's bytes placed in SRC. -/
@[simp] theorem State.withStream_core (s : State) (bytes : List Byte) :
    (s.withStream bytes).core = s.core := rfl
@[simp] theorem State.withStream_status (s : State) (bytes : List Byte) :
    (s.withStream bytes).status = s.status := rfl
@[simp] theorem State.withStream_srcLen (s : State) (bytes : List Byte) :
    (s.withStream bytes).srcLen = BitVec.ofNat 32 bytes.length := rfl
@[simp] theorem State.withStream_dstLen (s : State) (bytes : List Byte) :
    (s.withStream bytes).dstLen = s.dstLen := rfl
@[simp] theorem State.withStream_resultLen (s : State) (bytes : List Byte) :
    (s.withStream bytes).resultLen = s.resultLen := rfl
@[simp] theorem State.withStream_ciphBlock (s : State) (bytes : List Byte) :
    (s.withStream bytes).ciphBlock = s.ciphBlock := rfl
@[simp] theorem State.withStream_ciphKey (s : State) (bytes : List Byte) :
    (s.withStream bytes).ciphKey = s.ciphKey := rfl
@[simp] theorem State.withStream_bitCursor (s : State) (bytes : List Byte) :
    (s.withStream bytes).bitCursor = s.bitCursor := rfl
@[simp] theorem State.withStream_bitMask (s : State) (bytes : List Byte) :
    (s.withStream bytes).bitMask = s.bitMask := rfl
@[simp] theorem State.withStream_bitN (s : State) (bytes : List Byte) :
    (s.withStream bytes).bitN = s.bitN := rfl
@[simp] theorem State.withStream_bitData (s : State) (bytes : List Byte) :
    (s.withStream bytes).bitData = s.bitData := rfl
@[simp] theorem State.withStream_src (s : State) (bytes : List Byte) :
    (s.withStream bytes).src = Memory.writeBytes s.src 0 bytes := rfl
@[simp] theorem State.withStream_dst (s : State) (bytes : List Byte) :
    (s.withStream bytes).dst = s.dst := rfl
@[simp] theorem State.withStream_hist (s : State) (bytes : List Byte) :
    (s.withStream bytes).hist = s.hist := rfl
@[simp] theorem State.withStream_scratch (s : State) (bytes : List Byte) :
    (s.withStream bytes).scratch = s.scratch := rfl
@[simp] theorem State.withStream_rd (s : State) (bytes : List Byte) :
    (s.withStream bytes).rd = s.rd := rfl
@[simp] theorem State.withStream_wr (s : State) (bytes : List Byte) :
    (s.withStream bytes).wr = s.wr := rfl
@[simp] theorem State.withStream_q (s : State) (bytes : List Byte) :
    (s.withStream bytes).q = s.q := rfl
@[simp] theorem State.withStream_term (s : State) (bytes : List Byte) :
    (s.withStream bytes).term = s.term := rfl
@[simp] theorem State.withStream_ovr (s : State) (bytes : List Byte) :
    (s.withStream bytes).ovr = s.ovr := rfl
@[simp] theorem State.withStream_p (s : State) (bytes : List Byte) :
    (s.withStream bytes).p = s.p := rfl
@[simp] theorem State.withStream_best (s : State) (bytes : List Byte) :
    (s.withStream bytes).best = s.best := rfl
@[simp] theorem State.withStream_bs (s : State) (bytes : List Byte) :
    (s.withStream bytes).bs = s.bs := rfl
@[simp] theorem State.withStream_d (s : State) (bytes : List Byte) :
    (s.withStream bytes).d = s.d := rfl
@[simp] theorem State.withStream_k (s : State) (bytes : List Byte) :
    (s.withStream bytes).k = s.k := rfl
@[simp] theorem State.withStream_cap (s : State) (bytes : List Byte) :
    (s.withStream bytes).cap = s.cap := rfl
@[simp] theorem State.withStream_m (s : State) (bytes : List Byte) :
    (s.withStream bytes).m = s.m := rfl
@[simp] theorem State.withStream_c (s : State) (bytes : List Byte) :
    (s.withStream bytes).c = s.c := rfl
@[simp] theorem State.withStream_start (s : State) (bytes : List Byte) :
    (s.withStream bytes).start = s.start := rfl
@[simp] theorem State.withStream_b (s : State) (bytes : List Byte) :
    (s.withStream bytes).b = s.b := rfl
@[simp] theorem State.withStream_t (s : State) (bytes : List Byte) :
    (s.withStream bytes).t = s.t := rfl
@[simp] theorem State.withStream_P (s : State) (bytes : List Byte) :
    (s.withStream bytes).P = s.P := rfl
@[simp] theorem State.withStream_launch (s : State) (bytes : List Byte) :
    (s.withStream bytes).launch = { s.launch with srcMem := max s.launch.srcMem bytes.length } := rfl
@[simp] theorem State.withStream_faultLog (s : State) (bytes : List Byte) :
    (s.withStream bytes).faultLog = s.faultLog := rfl
@[simp] theorem State.withStream_host (s : State) (bytes : List Byte) :
    (s.withStream bytes).host = s.host := rfl
@[simp] theorem State.withStream_replies (s : State) (bytes : List Byte) :
    (s.withStream bytes).replies = s.replies := rfl

/-! `withMem`: a memory replaced. -/
@[simp] theorem State.withMem_core (s : State) (sp : Space) (mem : Memory) :
    (s.withMem sp mem).core = s.core := by cases sp <;> rfl
@[simp] theorem State.withMem_status (s : State) (sp : Space) (mem : Memory) :
    (s.withMem sp mem).status = s.status := by cases sp <;> rfl
@[simp] theorem State.withMem_srcLen (s : State) (sp : Space) (mem : Memory) :
    (s.withMem sp mem).srcLen = s.srcLen := by cases sp <;> rfl
@[simp] theorem State.withMem_dstLen (s : State) (sp : Space) (mem : Memory) :
    (s.withMem sp mem).dstLen = s.dstLen := by cases sp <;> rfl
@[simp] theorem State.withMem_resultLen (s : State) (sp : Space) (mem : Memory) :
    (s.withMem sp mem).resultLen = s.resultLen := by cases sp <;> rfl
@[simp] theorem State.withMem_ciphBlock (s : State) (sp : Space) (mem : Memory) :
    (s.withMem sp mem).ciphBlock = s.ciphBlock := by cases sp <;> rfl
@[simp] theorem State.withMem_ciphKey (s : State) (sp : Space) (mem : Memory) :
    (s.withMem sp mem).ciphKey = s.ciphKey := by cases sp <;> rfl
@[simp] theorem State.withMem_bitCursor (s : State) (sp : Space) (mem : Memory) :
    (s.withMem sp mem).bitCursor = s.bitCursor := by cases sp <;> rfl
@[simp] theorem State.withMem_bitMask (s : State) (sp : Space) (mem : Memory) :
    (s.withMem sp mem).bitMask = s.bitMask := by cases sp <;> rfl
@[simp] theorem State.withMem_bitN (s : State) (sp : Space) (mem : Memory) :
    (s.withMem sp mem).bitN = s.bitN := by cases sp <;> rfl
@[simp] theorem State.withMem_bitData (s : State) (sp : Space) (mem : Memory) :
    (s.withMem sp mem).bitData = s.bitData := by cases sp <;> rfl
@[simp] theorem State.withMem_src_src (s : State) (mem : Memory) : (s.withMem .src mem).src = mem := rfl
@[simp] theorem State.withMem_dst_src (s : State) (mem : Memory) : (s.withMem .dst mem).src = s.src := rfl
@[simp] theorem State.withMem_dst_dst (s : State) (mem : Memory) : (s.withMem .dst mem).dst = mem := rfl
@[simp] theorem State.withMem_src_dst (s : State) (mem : Memory) : (s.withMem .src mem).dst = s.dst := rfl
@[simp] theorem State.withMem_hist (s : State) (sp : Space) (mem : Memory) :
    (s.withMem sp mem).hist = s.hist := by cases sp <;> rfl
@[simp] theorem State.withMem_scratch (s : State) (sp : Space) (mem : Memory) :
    (s.withMem sp mem).scratch = s.scratch := by cases sp <;> rfl
@[simp] theorem State.withMem_rd (s : State) (sp : Space) (mem : Memory) :
    (s.withMem sp mem).rd = s.rd := by cases sp <;> rfl
@[simp] theorem State.withMem_wr (s : State) (sp : Space) (mem : Memory) :
    (s.withMem sp mem).wr = s.wr := by cases sp <;> rfl
@[simp] theorem State.withMem_q (s : State) (sp : Space) (mem : Memory) :
    (s.withMem sp mem).q = s.q := by cases sp <;> rfl
@[simp] theorem State.withMem_term (s : State) (sp : Space) (mem : Memory) :
    (s.withMem sp mem).term = s.term := by cases sp <;> rfl
@[simp] theorem State.withMem_ovr (s : State) (sp : Space) (mem : Memory) :
    (s.withMem sp mem).ovr = s.ovr := by cases sp <;> rfl
@[simp] theorem State.withMem_p (s : State) (sp : Space) (mem : Memory) :
    (s.withMem sp mem).p = s.p := by cases sp <;> rfl
@[simp] theorem State.withMem_best (s : State) (sp : Space) (mem : Memory) :
    (s.withMem sp mem).best = s.best := by cases sp <;> rfl
@[simp] theorem State.withMem_bs (s : State) (sp : Space) (mem : Memory) :
    (s.withMem sp mem).bs = s.bs := by cases sp <;> rfl
@[simp] theorem State.withMem_d (s : State) (sp : Space) (mem : Memory) :
    (s.withMem sp mem).d = s.d := by cases sp <;> rfl
@[simp] theorem State.withMem_k (s : State) (sp : Space) (mem : Memory) :
    (s.withMem sp mem).k = s.k := by cases sp <;> rfl
@[simp] theorem State.withMem_cap (s : State) (sp : Space) (mem : Memory) :
    (s.withMem sp mem).cap = s.cap := by cases sp <;> rfl
@[simp] theorem State.withMem_m (s : State) (sp : Space) (mem : Memory) :
    (s.withMem sp mem).m = s.m := by cases sp <;> rfl
@[simp] theorem State.withMem_c (s : State) (sp : Space) (mem : Memory) :
    (s.withMem sp mem).c = s.c := by cases sp <;> rfl
@[simp] theorem State.withMem_start (s : State) (sp : Space) (mem : Memory) :
    (s.withMem sp mem).start = s.start := by cases sp <;> rfl
@[simp] theorem State.withMem_b (s : State) (sp : Space) (mem : Memory) :
    (s.withMem sp mem).b = s.b := by cases sp <;> rfl
@[simp] theorem State.withMem_t (s : State) (sp : Space) (mem : Memory) :
    (s.withMem sp mem).t = s.t := by cases sp <;> rfl
@[simp] theorem State.withMem_P (s : State) (sp : Space) (mem : Memory) :
    (s.withMem sp mem).P = s.P := by cases sp <;> rfl
@[simp] theorem State.withMem_launch (s : State) (sp : Space) (mem : Memory) :
    (s.withMem sp mem).launch = s.launch := by cases sp <;> rfl
@[simp] theorem State.withMem_faultLog (s : State) (sp : Space) (mem : Memory) :
    (s.withMem sp mem).faultLog = s.faultLog := by cases sp <;> rfl
@[simp] theorem State.withMem_host (s : State) (sp : Space) (mem : Memory) :
    (s.withMem sp mem).host = s.host := by cases sp <;> rfl
@[simp] theorem State.withMem_replies (s : State) (sp : Space) (mem : Memory) :
    (s.withMem sp mem).replies = s.replies := by cases sp <;> rfl

/-! `noteMatch`: the best match updated. -/
@[simp] theorem State.noteMatch_core (s : State) (cand k : Nat) :
    (s.noteMatch cand k).core = s.core := by unfold State.noteMatch; split <;> rfl
@[simp] theorem State.noteMatch_status (s : State) (cand k : Nat) :
    (s.noteMatch cand k).status = s.status := by unfold State.noteMatch; split <;> rfl
@[simp] theorem State.noteMatch_srcLen (s : State) (cand k : Nat) :
    (s.noteMatch cand k).srcLen = s.srcLen := by unfold State.noteMatch; split <;> rfl
@[simp] theorem State.noteMatch_dstLen (s : State) (cand k : Nat) :
    (s.noteMatch cand k).dstLen = s.dstLen := by unfold State.noteMatch; split <;> rfl
@[simp] theorem State.noteMatch_resultLen (s : State) (cand k : Nat) :
    (s.noteMatch cand k).resultLen = s.resultLen := by unfold State.noteMatch; split <;> rfl
@[simp] theorem State.noteMatch_ciphBlock (s : State) (cand k : Nat) :
    (s.noteMatch cand k).ciphBlock = s.ciphBlock := by unfold State.noteMatch; split <;> rfl
@[simp] theorem State.noteMatch_ciphKey (s : State) (cand k : Nat) :
    (s.noteMatch cand k).ciphKey = s.ciphKey := by unfold State.noteMatch; split <;> rfl
@[simp] theorem State.noteMatch_bitCursor (s : State) (cand k : Nat) :
    (s.noteMatch cand k).bitCursor = s.bitCursor := by unfold State.noteMatch; split <;> rfl
@[simp] theorem State.noteMatch_bitMask (s : State) (cand k : Nat) :
    (s.noteMatch cand k).bitMask = s.bitMask := by unfold State.noteMatch; split <;> rfl
@[simp] theorem State.noteMatch_bitN (s : State) (cand k : Nat) :
    (s.noteMatch cand k).bitN = s.bitN := by unfold State.noteMatch; split <;> rfl
@[simp] theorem State.noteMatch_bitData (s : State) (cand k : Nat) :
    (s.noteMatch cand k).bitData = s.bitData := by unfold State.noteMatch; split <;> rfl
@[simp] theorem State.noteMatch_src (s : State) (cand k : Nat) :
    (s.noteMatch cand k).src = s.src := by unfold State.noteMatch; split <;> rfl
@[simp] theorem State.noteMatch_dst (s : State) (cand k : Nat) :
    (s.noteMatch cand k).dst = s.dst := by unfold State.noteMatch; split <;> rfl
@[simp] theorem State.noteMatch_hist (s : State) (cand k : Nat) :
    (s.noteMatch cand k).hist = s.hist := by unfold State.noteMatch; split <;> rfl
@[simp] theorem State.noteMatch_scratch (s : State) (cand k : Nat) :
    (s.noteMatch cand k).scratch = s.scratch := by unfold State.noteMatch; split <;> rfl
@[simp] theorem State.noteMatch_rd (s : State) (cand k : Nat) :
    (s.noteMatch cand k).rd = s.rd := by unfold State.noteMatch; split <;> rfl
@[simp] theorem State.noteMatch_wr (s : State) (cand k : Nat) :
    (s.noteMatch cand k).wr = s.wr := by unfold State.noteMatch; split <;> rfl
@[simp] theorem State.noteMatch_q (s : State) (cand k : Nat) :
    (s.noteMatch cand k).q = s.q := by unfold State.noteMatch; split <;> rfl
@[simp] theorem State.noteMatch_term (s : State) (cand k : Nat) :
    (s.noteMatch cand k).term = s.term := by unfold State.noteMatch; split <;> rfl
@[simp] theorem State.noteMatch_ovr (s : State) (cand k : Nat) :
    (s.noteMatch cand k).ovr = s.ovr := by unfold State.noteMatch; split <;> rfl
@[simp] theorem State.noteMatch_p (s : State) (cand k : Nat) :
    (s.noteMatch cand k).p = s.p := by unfold State.noteMatch; split <;> rfl
@[simp] theorem State.noteMatch_best (s : State) (cand k : Nat) :
    (s.noteMatch cand k).best = if s.best < k then k else s.best := by unfold State.noteMatch; split <;> rfl
@[simp] theorem State.noteMatch_bs (s : State) (cand k : Nat) :
    (s.noteMatch cand k).bs = if s.best < k then cand else s.bs := by unfold State.noteMatch; split <;> rfl
@[simp] theorem State.noteMatch_d (s : State) (cand k : Nat) :
    (s.noteMatch cand k).d = s.d := by unfold State.noteMatch; split <;> rfl
@[simp] theorem State.noteMatch_k (s : State) (cand k : Nat) :
    (s.noteMatch cand k).k = k := by unfold State.noteMatch; split <;> rfl
@[simp] theorem State.noteMatch_cap (s : State) (cand k : Nat) :
    (s.noteMatch cand k).cap = s.cap := by unfold State.noteMatch; split <;> rfl
@[simp] theorem State.noteMatch_m (s : State) (cand k : Nat) :
    (s.noteMatch cand k).m = s.m := by unfold State.noteMatch; split <;> rfl
@[simp] theorem State.noteMatch_c (s : State) (cand k : Nat) :
    (s.noteMatch cand k).c = s.c := by unfold State.noteMatch; split <;> rfl
@[simp] theorem State.noteMatch_start (s : State) (cand k : Nat) :
    (s.noteMatch cand k).start = s.start := by unfold State.noteMatch; split <;> rfl
@[simp] theorem State.noteMatch_b (s : State) (cand k : Nat) :
    (s.noteMatch cand k).b = s.b := by unfold State.noteMatch; split <;> rfl
@[simp] theorem State.noteMatch_t (s : State) (cand k : Nat) :
    (s.noteMatch cand k).t = s.t := by unfold State.noteMatch; split <;> rfl
@[simp] theorem State.noteMatch_P (s : State) (cand k : Nat) :
    (s.noteMatch cand k).P = s.P := by unfold State.noteMatch; split <;> rfl
@[simp] theorem State.noteMatch_launch (s : State) (cand k : Nat) :
    (s.noteMatch cand k).launch = s.launch := by unfold State.noteMatch; split <;> rfl
@[simp] theorem State.noteMatch_faultLog (s : State) (cand k : Nat) :
    (s.noteMatch cand k).faultLog = s.faultLog := by unfold State.noteMatch; split <;> rfl
@[simp] theorem State.noteMatch_host (s : State) (cand k : Nat) :
    (s.noteMatch cand k).host = s.host := by unfold State.noteMatch; split <;> rfl
@[simp] theorem State.noteMatch_replies (s : State) (cand k : Nat) :
    (s.noteMatch cand k).replies = s.replies := by unfold State.noteMatch; split <;> rfl

/-! The memories seen through a space's name. -/

@[simp] theorem State.withMem_mem_self (s : State) (sp : Space) (mem : Memory) : (s.withMem sp mem).mem sp = mem := by
  cases sp <;> rfl

theorem State.withMem_mem (s : State) (sp sp' : Space) (mem : Memory) :
    (s.withMem sp mem).mem sp' = if sp' = sp then mem else s.mem sp' := by
  cases sp <;> cases sp' <;> rfl

@[simp] theorem State.withMem_size (s : State) (sp sp' : Space) (mem : Memory) :
    (s.withMem sp mem).size sp' = s.size sp' := by
  cases sp <;> cases sp' <;> rfl

@[simp] theorem State.mem_src (s : State) : s.mem .src = s.src := rfl

@[simp] theorem State.mem_dst (s : State) : s.mem .dst = s.dst := rfl

@[simp] theorem State.size_src (s : State) : s.size .src = s.launch.srcMem := rfl

@[simp] theorem State.size_dst (s : State) : s.size .dst = s.launch.dstMem := rfl

end Sys2Proof.Machine
end

