-- ==== Sys2Proof/Laws/Ops.lean ====
section
/-! SUPPORT. What each shared operation of Machine/Ops.lean can do, said once: the memory primitives, the bit writer, and
the life cycle of a command. -/

namespace Sys2Proof.Machine

open Host (Outcome)

/-! The memory primitives (20_memory.md R74). -/

theorem memRead_eq_some {s : State} {sp : Space} {a : Nat} {v : Byte} :
    s.memRead sp a = some v ↔ a < s.size sp ∧ v = s.byteAt sp a := by
  unfold State.memRead
  split
  · rename_i h
    simp [h, eq_comm]
  · rename_i h
    simp [h]

theorem memRead_of_lt {s : State} {sp : Space} {a : Nat} (h : a < s.size sp) : s.memRead sp a = some (s.byteAt sp a) :=
  memRead_eq_some.mpr ⟨h, rfl⟩

theorem memWrite_eq_some {s t : State} {sp : Space} {a : Nat} {v : Byte} :
    s.memWrite sp a v = some t ↔ a < s.size sp ∧ t = s.withMem sp (Memory.write (s.mem sp) a v) := by
  unfold State.memWrite
  split
  · rename_i h
    simp [h, eq_comm]
  · rename_i h
    simp [h]

theorem memWrite_of_lt {s : State} {sp : Space} {a : Nat} (v : Byte) (h : a < s.size sp) :
    s.memWrite sp a v = some (s.withMem sp (Memory.write (s.mem sp) a v)) :=
  memWrite_eq_some.mpr ⟨h, rfl⟩

@[simp] theorem withMem_self (s : State) (sp : Space) : s.withMem sp (s.mem sp) = s := by cases sp <;> rfl

@[simp] theorem withMem_withMem (s : State) (sp : Space) (m1 m2 : Memory) :
    (s.withMem sp m1).withMem sp m2 = s.withMem sp m2 := by cases sp <;> rfl

/-- Two memories that read alike at a byte agree on its eight stream bits, and the other way round. -/
theorem read_eq_iff_streamBit {m1 m2 : Memory} {a : Nat} :
    Memory.read m1 a = Memory.read m2 a ↔ ∀ i, i < 8 → streamBit m1 (8 * a + i) = streamBit m2 (8 * a + i) := by
  have hs : ∀ (m : Memory) (i : Nat), i < 8 → streamBit m (8 * a + i) = (Memory.read m a).getLsbD (7 - i) := by
    intro m i hi
    have h1 : (8 * a + i) / 8 = a := by omega
    have h2 : (8 * a + i) % 8 = i := by omega
    rw [streamBit, h1, h2]
  constructor
  · intro h i hi
    rw [hs _ _ hi, hs _ _ hi, h]
  · intro h
    refine BitVec.eq_of_getLsbD_eq fun i hi => ?_
    have := h (7 - i) (by omega)
    rw [hs _ _ (by omega), hs _ _ (by omega)] at this
    have e : 7 - (7 - i) = i := by omega
    rwa [e] at this

/-- The bits a reader of a space sees below `len` are the space's stream bits. -/
theorem seenBit_byteAt (s : State) (sp : Space) (len : Nat) :
    seenBit (s.byteAt sp) len = readableBit (s.mem sp) len := rfl

/-- ReadBits from a memory space whose first `len` bytes exist (40_bitstream.md R144). -/
theorem readBits_memRead {s : State} {sp : Space} {len : Nat} (hlen : len ≤ s.size sp) (n o : Nat) :
    readBits (s.memRead sp) len n (posAt o) =
      some (bitField (readableBit (s.mem sp) len) o n, readEnd len o n) := by
  rw [readBits_posAt (bytes := s.byteAt sp) fun a ha => memRead_of_lt (by omega)]
  rfl

/-! The bit writer (40_bitstream.md R145). -/

theorem streamBit_write_or {mem : Memory} (hwf : Memory.wf mem = true) (o x : Nat) :
    streamBit (Memory.write mem (o / 8) (Memory.read mem (o / 8) ||| 0x80#8 >>> (o % 8))) x =
      (streamBit mem x || decide (x = o)) := by
  have h1 : o % 8 < 8 := Nat.mod_lt _ (by omega)
  have h2 : x % 8 < 8 := Nat.mod_lt _ (by omega)
  simp only [streamBit]
  rw [Memory.read_write hwf]
  split
  · rename_i hx
    rw [or_shift_getLsbD _ _ _ h1 (by omega), hx]
    congr 1
    simp only [decide_eq_decide]
    omega
  · rename_i hx
    have : x ≠ o := by rintro rfl; exact hx rfl
    simp [this]

/-- One bit written at an offset inside the space: the state differs in that space only, the position is one on. -/
theorem writeBit_posAt {s : State} {sp : Space} (bit : Bool) {o : Nat} (h : o < 8 * s.size sp) :
    ∃ mem, s.writeBit sp bit (posAt o) = some (s.withMem sp mem, posAt (o + 1)) ∧
      (Memory.wf (s.mem sp) = true → Memory.wf mem = true ∧
        ∀ x, streamBit mem x = (streamBit (s.mem sp) x || (decide (x = o) && bit))) ∧
      (Memory.below (s.size sp) (s.mem sp) = true → Memory.below (s.size sp) mem = true) := by
  have ha : o / 8 < s.size sp := by omega
  cases bit with
  | false =>
    refine ⟨s.mem sp, ?_, fun hwf => ⟨hwf, fun x => by simp⟩, id⟩
    simp [State.writeBit, advance_posAt]
  | true =>
    refine ⟨Memory.write (s.mem sp) (o / 8) (Memory.read (s.mem sp) (o / 8) ||| 0x80#8 >>> (o % 8)), ?_, ?_, ?_⟩
    · simp only [State.writeBit, if_true, posAt_cur]
      rw [memRead_of_lt ha, Option.bind_some, memWrite_of_lt _ ha, Option.map_some, advance_posAt]
      rfl
    · intro hwf
      exact ⟨Memory.write_wf hwf _ _, fun x => by rw [streamBit_write_or hwf]; simp⟩
    · exact fun hb => Memory.write_below hb ha _

/-- WriteBits inside the space (40_bitstream.md R145, R148): the state differs in that space only, where exactly the
bits of the field are ORed in; the position is `n` on. -/
theorem writeBits_posAt (sp : Space) (v : Nat) (n : Nat) : ∀ (s : State) (o : Nat), o + n ≤ 8 * s.size sp →
    ∃ mem, s.writeBits sp v n (posAt o) = some (s.withMem sp mem, posAt (o + n)) ∧
      (Memory.wf (s.mem sp) = true → Memory.wf mem = true ∧
        ∀ x, streamBit mem x =
          (streamBit (s.mem sp) x || (decide (o ≤ x ∧ x < o + n) && v.testBit (o + n - 1 - x)))) ∧
      (Memory.below (s.size sp) (s.mem sp) = true → Memory.below (s.size sp) mem = true) := by
  induction n with
  | zero =>
    intro s o _
    refine ⟨s.mem sp, by simp [State.writeBits], fun hwf => ⟨hwf, fun x => ?_⟩, id⟩
    have : ¬ (o ≤ x ∧ x < o + 0) := by omega
    rw [decide_eq_false this]
    simp
  | succ n ih =>
    intro s o h
    obtain ⟨mem1, he1, hwf1, hb1⟩ := writeBit_posAt (s := s) (sp := sp) (v.testBit n) (o := o) (by omega)
    obtain ⟨mem2, he2, hwf2, hb2⟩ := ih (s.withMem sp mem1) (o + 1) (by rw [State.withMem_size]; omega)
    refine ⟨mem2, ?_, ?_, ?_⟩
    · simp only [State.writeBits]
      rw [he1, Option.bind_some]
      simp only [he2, withMem_withMem]
      rw [Nat.add_right_comm, Nat.add_assoc]
    · intro hwf
      obtain ⟨w1, b1⟩ := hwf1 hwf
      obtain ⟨w2, b2⟩ := hwf2 (by simpa using w1)
      refine ⟨w2, fun x => ?_⟩
      rw [b2, State.withMem_mem_self, b1, Bool.or_assoc]
      congr 1
      by_cases hx : x = o
      · subst hx
        have e : x + (n + 1) - 1 - x = n := by omega
        rw [e]
        simp
      · by_cases hin : o ≤ x ∧ x < o + (n + 1)
        · have e : o + 1 + n - 1 - x = o + (n + 1) - 1 - x := by omega
          have h1 : o + 1 ≤ x ∧ x < o + 1 + n := by omega
          rw [e, decide_eq_true h1, decide_eq_true hin, decide_eq_false hx]
          simp
        · have h1 : ¬ (o + 1 ≤ x ∧ x < o + 1 + n) := by omega
          rw [decide_eq_false h1, decide_eq_false hin, decide_eq_false hx]
          simp
    · intro hb
      have := hb2 (by simpa using hb1 hb)
      simpa using this

/-! The life cycle of a command (60_exceptions.md R240 to R242). -/

/-- Everything a command can do: fault at issue with the first check that fails, or run its rule and complete. -/
theorem runCommand_next_iff {check : State → Option FaultCode} {rule : State → Option State} {s t : State} :
    runCommand check rule s = .next t ↔
      (∃ code, check s.issue = some code ∧ t = s.issue.takeFault code) ∨
        (check s.issue = none ∧ ∃ u, rule s.issue = some u ∧ t = u.complete) := by
  unfold runCommand
  cases hc : check s.issue with
  | some code => simp [eq_comm]
  | none =>
    cases hr : rule s.issue with
    | none => simp [outcome]
    | some u => simp [outcome, eq_comm]

/-- A command whose check fails takes the fault. -/
theorem runCommand_fault {check : State → Option FaultCode} {rule : State → Option State} {s : State}
    {code : FaultCode} (h : check s.issue = some code) :
    runCommand check rule s = .next (s.issue.takeFault code) := by
  simp [runCommand, h]

/-- A command whose checks pass runs its rule and completes. -/
theorem runCommand_ok {check : State → Option FaultCode} {rule : State → Option State} {s u : State}
    (h : check s.issue = none) (hr : rule s.issue = some u) : runCommand check rule s = .next u.complete := by
  simp [runCommand, h, hr, outcome]

/-- A command answers a next state whenever its rule answers one where its checks pass. -/
theorem runCommand_total {check : State → Option FaultCode} {rule : State → Option State} {s : State}
    (h : check s.issue = none → ∃ u, rule s.issue = some u) : ∃ t, runCommand check rule s = .next t := by
  cases hc : check s.issue with
  | some code => exact ⟨_, runCommand_fault hc⟩
  | none =>
    obtain ⟨u, hu⟩ := h hc
    exact ⟨_, runCommand_ok hc hu⟩

@[simp] theorem outcome_some (s : State) : outcome (some s) = .next s := rfl

@[simp] theorem outcome_none : outcome none = .fault .outOfRange := rfl

/-- What a fault leaves in STATUS (60_exceptions.md R241, R245). -/
theorem faultStatus_zero (code : FaultCode) :
    faultStatus 0#32 code = 0x22#32 ||| (code.number.setWidth 32 <<< 8) := by cases code <;> decide

theorem legalStatus_fault (code : FaultCode) : legalStatus (faultStatus 0#32 code) = true := by cases code <;> decide

/-! The issue checks pass exactly when the conditions of 60_exceptions.md R244 hold. -/

theorem unlessFault_none {ok : Bool} {code : FaultCode} {next : Option FaultCode} :
    unlessFault ok code next = none ↔ ok = true ∧ next = none := by
  cases ok <;> simp [unlessFault]

theorem checkReadBits_none {s : State} :
    checkReadBits s = none ↔ s.srcLenOk = true ∧ s.widthOk = true ∧ oneHot s.bitMask = true := by
  simp [checkReadBits, unlessFault_none]

theorem checkWriteBits_none {s : State} :
    checkWriteBits s = none ↔ s.widthOk = true ∧ oneHot s.bitMask = true ∧ s.writeFits = true := by
  simp [checkWriteBits, unlessFault_none]

theorem checkBothLens_none {s : State} : checkBothLens s = none ↔ s.srcLenOk = true ∧ s.dstLenOk = true := by
  simp [checkBothLens, unlessFault_none]

theorem checkCompress_none {s : State} : checkCompress s = none ↔ s.srcLenOk = true ∧ s.capFits = true := by
  simp [checkCompress, unlessFault_none]

theorem checkCipher_none {sel : Space} {s : State} :
    checkCipher sel s = none ↔ s.cipherLen sel ≤ s.size sel ∧ s.ciphBlock ≠ 0#32 := by
  simp [checkCipher, unlessFault_none]

/-- The end of a command that set no condition: DONE alone (60_exceptions.md R242). -/
theorem complete_of_status_zero {s : State} (h : s.status = 0#32) :
    s.complete = { s with core := .idle, status := 0x00000002#32 } := by
  rw [State.complete, h]
  rfl

/-- A fault taken at issue, as `afterFault` spells it (60_exceptions.md R241). -/
theorem takeFault_issue (s : State) (code : FaultCode) : s.issue.takeFault code = afterFault s code := by
  have h : faultStatus 0#32 code = 0x00000022#32 ||| (faultNumber code <<< 8) := by cases code <;> decide
  simp only [State.takeFault, State.issue, afterFault, h]

end Sys2Proof.Machine
end

