-- ==== Sys2Proof/Laws/Compress.lean ====
section
/-! SUPPORT. What the match search, one token and the source loop of COMPRESS can do, said once. -/

namespace Sys2Proof.Machine

/-! Match extension (42_lzss_compress.md R183). -/

/-- The compared byte as a value: HIST behind `p`, SRC from `p` on. -/
def State.comparedByte (s : State) (x : Nat) : Byte := if x < s.p then s.histRead x else Memory.read s.src x

theorem compared_eq {s : State} {x : Nat} (h : x < s.launch.srcMem) : s.compared x = some (s.comparedByte x) := by
  unfold State.compared State.comparedByte
  split
  · rfl
  · exact memRead_of_lt (sp := .src) h

/-- Whether the match of candidate `cand` goes on at extent `k`, the bound of 18 apart. -/
def State.agrees (s : State) (n cand k : Nat) : Bool :=
  decide (s.p + k < n) && (s.comparedByte (cand + k) == Memory.read s.src (s.p + k))

/-- Match extension never leaves SRC, and its answer is where the bytes first disagree, the source ends, or the bound
stands (42_lzss_compress.md R183). -/
theorem extendMatch_spec {s : State} {n cand : Nat} (hn : n ≤ s.launch.srcMem) (hc : cand < s.p) (fuel : Nat) :
    ∀ k, ∃ k', s.extendMatch n cand fuel k = some k' ∧ k ≤ k' ∧ k' ≤ k + fuel ∧
      (∀ j, k ≤ j → j < k' → s.agrees n cand j = true) ∧ (k' < k + fuel → s.agrees n cand k' = false) := by
  induction fuel with
  | zero => exact fun k => ⟨k, rfl, by omega, by omega, fun j h1 h2 => by omega, fun h => by omega⟩
  | succ fuel ih =>
    intro k
    rw [State.extendMatch]
    by_cases hp : s.p + k < n
    · rw [if_pos hp, compared_eq (by omega), Option.bind_some,
        memRead_of_lt (sp := .src) (show s.p + k < s.size .src by rw [State.size_src]; omega), Option.bind_some]
      by_cases he : s.comparedByte (cand + k) = s.byteAt .src (s.p + k)
      · rw [if_pos he]
        obtain ⟨k', h1, h2, h3, h4, h5⟩ := ih (k + 1)
        refine ⟨k', h1, by omega, by omega, fun j hj1 hj2 => ?_, fun h => h5 (by omega)⟩
        by_cases hjk : j = k
        · subst hjk
          simp only [State.agrees, hp, decide_true, Bool.true_and, beq_iff_eq]
          exact he
        · exact h4 j (by omega) hj2
      · rw [if_neg he]
        refine ⟨k, rfl, by omega, by omega, fun j h1 h2 => by omega, fun _ => ?_⟩
        simp only [State.agrees, hp, decide_true, Bool.true_and, beq_eq_false_iff_ne, ne_eq]
        exact he
    · rw [if_neg hp]
      exact ⟨k, rfl, by omega, by omega, fun j h1 h2 => by omega, fun _ => by simp [State.agrees, hp]⟩

/-- The match extent of a candidate at `p`: how far `agrees` holds, at most 18 (42_lzss_compress.md R183). -/
def State.extent (s : State) (n cand : Nat) : Nat := ((List.range 18).takeWhile (s.agrees n cand)).length

theorem takeWhile_range_spec (f : Nat → Bool) (m : Nat) :
    ((List.range m).takeWhile f).length ≤ m ∧
      (∀ j, j < ((List.range m).takeWhile f).length → f j = true) ∧
      (((List.range m).takeWhile f).length < m → f ((List.range m).takeWhile f).length = false) := by
  induction m with
  | zero => simp
  | succ m ih =>
    obtain ⟨h1, h2, h3⟩ := ih
    rw [List.range_succ, List.takeWhile_append]
    by_cases hfull : ((List.range m).takeWhile f).length = (List.range m).length
    · rw [if_pos hfull]
      rw [List.length_range] at hfull
      have hall : ∀ j, j < m → f j = true := fun j hj => h2 j (by omega)
      cases hfm : f m with
      | true =>
        refine ⟨by simp [hfm], fun j hj => ?_, fun h => by simp [hfm] at h⟩
        simp [hfm] at hj
        by_cases hjm : j = m
        · rw [hjm, hfm]
        · exact hall j (by omega)
      | false =>
        refine ⟨by simp [hfm], fun j hj => hall j (by simpa [hfm] using hj), fun _ => by simp [hfm]⟩
    · rw [if_neg hfull]
      rw [List.length_range] at hfull
      exact ⟨by omega, h2, fun _ => h3 (by omega)⟩

theorem extendMatch_eq {s : State} {n cand : Nat} (hn : n ≤ s.launch.srcMem) (hc : cand < s.p) :
    s.extendMatch n cand 18 0 = some (s.extent n cand) := by
  obtain ⟨k', h1, -, h3, h4, h5⟩ := extendMatch_spec hn hc 18 0
  obtain ⟨g1, g2, g3⟩ := takeWhile_range_spec (s.agrees n cand) 18
  have : k' = s.extent n cand := by
    unfold State.extent
    rcases Nat.lt_trichotomy k' ((List.range 18).takeWhile (s.agrees n cand)).length with h | h | h
    · have := g2 k' h
      rw [h5 (by omega)] at this
      exact absurd this (by simp)
    · exact h
    · have := h4 _ (Nat.zero_le _) h
      rw [g3 (by omega)] at this
      exact absurd this (by simp)
  rw [h1, this]

theorem extent_le (s : State) (n cand : Nat) : s.extent n cand ≤ 18 := (takeWhile_range_spec _ 18).1

theorem extent_agrees {s : State} {n cand k : Nat} (h : k < s.extent n cand) : s.agrees n cand k = true :=
  (takeWhile_range_spec _ 18).2.1 k h

/-- A match stays inside the source (42_lzss_compress.md R190). -/
theorem extent_in_source {s : State} {n cand : Nat} (hp : s.p ≤ n) : s.p + s.extent n cand ≤ n := by
  rcases Nat.eq_zero_or_pos (s.extent n cand) with h | h
  · omega
  · have := extent_agrees (s := s) (n := n) (cand := cand) (k := s.extent n cand - 1) (by omega)
    simp only [State.agrees, Bool.and_eq_true, decide_eq_true_eq] at this
    omega

/-- Where HIST mirrors the source, the extent is the match length of the source bytes (42_lzss_compress.md R186 (a)). -/
theorem extent_eq_matchLength {s : State} {n cand : Nat} (hm : HistMirrorsSrc s) (hw : s.p ≤ cand + Config.histSize) :
    s.extent n cand = matchLength s.src n cand s.p := by
  unfold State.extent matchLength
  have : s.agrees n cand = fun k =>
      decide (s.p + k < n) && (Memory.read s.src (cand + k) == Memory.read s.src (s.p + k)) := by
    funext k
    unfold State.agrees State.comparedByte
    split
    · rename_i h
      rw [hm (cand + k) h (by omega)]
    · rfl
  rw [this]
  rfl

/-! The search (42_lzss_compress.md R181 to R184). -/

/-- Distance `d` is tried: its candidate's residue is not 8191 (42_lzss_compress.md R182). -/
def State.tried (s : State) (d : Nat) : Prop := (s.p - d) % Config.histSize ≠ Config.skipPos

/-- The search over the distances `d` to `d + todo - 1` (42_lzss_compress.md R181 to R184): it never leaves SRC, it
touches the search registers only, no distance tried has a longer match, and a match that beats the one held on entry is
the nearest of its length. -/
theorem searchFrom_spec {n : Nat} (todo : Nat) : ∀ (d : Nat) (s : State), n ≤ s.launch.srcMem → 1 ≤ d →
    d + todo ≤ s.p + 1 → s.best ≤ 18 →
    ∃ t, searchFrom n todo d s = some t ∧ t = { s with best := t.best, bs := t.bs, d := t.d, k := t.k } ∧
      t.best ≤ 18 ∧ s.best ≤ t.best ∧ (∀ e, d ≤ e → e < d + todo → s.tried e → s.extent n (s.p - e) ≤ t.best) ∧
      (t.best = s.best → t.bs = s.bs) ∧
      (s.best < t.best → ∃ e, d ≤ e ∧ e < d + todo ∧ s.tried e ∧ t.bs = s.p - e ∧ s.extent n (s.p - e) = t.best ∧
        ∀ f, d ≤ f → f < e → s.tried f → s.extent n (s.p - f) < t.best) ∧
      (t.k ≤ 18 ∨ t.k = s.k) ∧ (t.d < d + todo ∨ t.d = s.d) := by
  induction todo with
  | zero =>
    intro d s _ _ _ hb
    exact ⟨s, rfl, rfl, hb, Nat.le_refl _, fun e h1 h2 => by omega, fun _ => rfl, fun h => by omega, .inr rfl, .inr rfl⟩
  | succ todo ih =>
    intro d s hn hd htodo hb
    rw [searchFrom]
    by_cases hskip : (s.p - d) % Config.histSize = Config.skipPos
    · rw [if_pos hskip]
      obtain ⟨t, h1, h2, h3, h4, h5, h6, h7, h8, h9⟩ := ih (d + 1) { s with d := d } hn (by omega) (by simpa using by omega) hb
      refine ⟨t, h1, by rw [h2], h3, h4, fun e he1 he2 het => ?_, h6, fun h => ?_, h8, ?_⟩
      · by_cases hed : e = d
        · subst hed; exact absurd hskip het
        · exact h5 e (by omega) (by omega) het
      · obtain ⟨e, g1, g2, g3, g4, g5, g6⟩ := h7 h
        refine ⟨e, by omega, by omega, g3, g4, g5, fun f hf1 hf2 hft => ?_⟩
        by_cases hfd : f = d
        · subst hfd; exact absurd hskip hft
        · exact g6 f (by omega) hf2 hft
      · rcases h9 with h9 | h9
        · exact .inl (by omega)
        · exact .inl (by rw [h9]; show d < _; omega)
    · rw [if_neg hskip]
      have hm : Config.maxMatch = 18 := rfl
      rw [hm, extendMatch_eq hn (by omega), Option.bind_some]
      have hx := extent_le s n (s.p - d)
      have hnb : (({ s with d := d } : State).noteMatch (s.p - d) (s.extent n (s.p - d))).best =
          if s.best < s.extent n (s.p - d) then s.extent n (s.p - d) else s.best := State.noteMatch_best _ _ _
      have hnbs : (({ s with d := d } : State).noteMatch (s.p - d) (s.extent n (s.p - d))).bs =
          if s.best < s.extent n (s.p - d) then s.p - d else s.bs := State.noteMatch_bs _ _ _
      have hfoot : ∀ b0 bs0 d0 k0, ({ ({ s with d := d } : State).noteMatch (s.p - d) (s.extent n (s.p - d)) with
          best := b0, bs := bs0, d := d0, k := k0 } : State) = { s with best := b0, bs := bs0, d := d0, k := k0 } := by
        intro b0 bs0 d0 k0
        unfold State.noteMatch
        split <;> rfl
      have hu : ∀ cand, (({ s with d := d } : State).noteMatch (s.p - d) (s.extent n (s.p - d))).extent n cand =
          s.extent n cand := by
        intro cand
        unfold State.noteMatch
        split <;> rfl
      have hup : (({ s with d := d } : State).noteMatch (s.p - d) (s.extent n (s.p - d))).p = s.p := by simp
      have hul : (({ s with d := d } : State).noteMatch (s.p - d) (s.extent n (s.p - d))).launch = s.launch := by simp
      have huk : (({ s with d := d } : State).noteMatch (s.p - d) (s.extent n (s.p - d))).k = s.extent n (s.p - d) := by
        simp
      have hud : (({ s with d := d } : State).noteMatch (s.p - d) (s.extent n (s.p - d))).d = d := by simp
      generalize hs' : ({ s with d := d } : State).noteMatch (s.p - d) (s.extent n (s.p - d)) = u at *
      simp only
      by_cases hstop : u.best = 18
      · rw [if_pos hstop]
        refine ⟨u, rfl, ?_, by omega, by rw [hnb]; split <;> omega,
          fun e _ _ _ => by have := extent_le s n (s.p - e); omega, fun h => ?_, fun h => ?_, .inl (by omega),
          .inl (by omega)⟩
        · have := hfoot u.best u.bs u.d u.k
          rw [← this]
        · rw [hnbs]
          split
          · rename_i hlt; rw [hnb, if_pos hlt] at h; omega
          · rfl
        · have hlt : s.best < s.extent n (s.p - d) := by
            by_contra hcon
            rw [hnb, if_neg hcon] at h
            omega
          refine ⟨d, Nat.le_refl _, by omega, hskip, ?_, ?_, fun f h1 h2 => by omega⟩
          · rw [hnbs, if_pos hlt]
          · rw [hnb, if_pos hlt]
      · rw [if_neg hstop]
        obtain ⟨t, h1, h2, h3, h4, h5, h6, h7, h8, h9⟩ := ih (d + 1) u (by rw [hul]; exact hn) (by omega)
          (by rw [hup]; omega) (by rw [hnb]; split <;> omega)
        have htried : ∀ e, u.tried e ↔ s.tried e := by
          intro e; unfold State.tried; rw [hup]
        have hle1 : s.best ≤ u.best := by rw [hnb]; split <;> omega
        have hle2 : s.extent n (s.p - d) ≤ u.best := by rw [hnb]; split <;> omega
        refine ⟨t, h1, ?_, h3, by omega, fun e he1 he2 het => ?_, fun h => ?_, fun h => ?_, .inl ?_, ?_⟩
        · rw [h2]
          exact hfoot _ _ _ _
        · by_cases hed : e = d
          · rw [hed]; omega
          · have := h5 e (by omega) (by omega) ((htried e).mpr het)
            rw [hup, hu] at this
            exact this
        · rw [h6 (by omega), hnbs, if_neg]
          intro hlt
          rw [hnb, if_pos hlt] at h4
          omega
        · by_cases hlate : u.best < t.best
          · obtain ⟨e, g1, g2, g3, g4, g5, g6⟩ := h7 hlate
            rw [hup] at g4
            rw [hup, hu] at g5
            refine ⟨e, by omega, by omega, (htried e).mp g3, g4, g5, fun f hf1 hf2 hft => ?_⟩
            by_cases hfd : f = d
            · rw [hfd]; omega
            · have := g6 f (by omega) hf2 ((htried f).mpr hft)
              rw [hup, hu] at this
              exact this
          · have hbe : t.best = u.best := by omega
            have hlt : s.best < s.extent n (s.p - d) := by
              by_contra hcon
              rw [hbe, hnb, if_neg hcon] at h
              omega
            refine ⟨d, Nat.le_refl _, by omega, hskip, ?_, ?_, fun f h1 h2 => by omega⟩
            · rw [h6 hbe, hnbs, if_pos hlt]
            · rw [hbe, hnb, if_pos hlt]
        · rcases h8 with h8 | h8
          · exact h8
          · rw [h8, huk]; exact hx
        · rcases h9 with h9 | h9
          · exact .inl (by omega)
          · exact .inl (by rw [h9, hud]; omega)

/-- The whole search at `p` (42_lzss_compress.md R181 to R184, R190): no candidate of the window has a longer match, and
a match found is the nearest of its length. -/
theorem searchMatch_spec {n : Nat} {s : State} (hn : n ≤ s.launch.srcMem) (hp : s.p ≤ n) :
    ∃ t, searchMatch n s = some t ∧ t = { s with best := t.best, bs := t.bs, d := t.d, k := t.k } ∧
      t.best ≤ 18 ∧ s.p + t.best ≤ n ∧ t.bs ≤ s.p ∧
      (∀ a, IsCandidate s.p a → s.extent n a ≤ t.best) ∧
      (0 < t.best → IsCandidate s.p t.bs ∧ s.extent n t.bs = t.best ∧
        ∀ a, IsCandidate s.p a → t.bs < a → s.extent n a < t.best) ∧
      (t.k ≤ 18 ∨ t.k = s.k) ∧ (t.d ≤ 8192 ∨ t.d = s.d) := by
  have hz : Config.histSize = 8192 := rfl
  obtain ⟨t, h1, h2, h3, -, h5, h6, h7, h8, h9⟩ := searchFrom_spec (n := n) (min s.p Config.histSize) 1
    { s with best := 0, bs := 0 } hn (Nat.le_refl _) (by show _ ≤ s.p + 1; omega) (Nat.zero_le _)
  have hcand : ∀ a, IsCandidate s.p a → ∃ e, 1 ≤ e ∧ e < 1 + min s.p Config.histSize ∧ a = s.p - e ∧
      ({ s with best := 0, bs := 0 } : State).tried e := by
    intro a ⟨ha1, ha2, ha3⟩
    refine ⟨s.p - a, by omega, by omega, by omega, ?_⟩
    show (s.p - (s.p - a)) % Config.histSize ≠ Config.skipPos
    have : s.p - (s.p - a) = a := by omega
    rwa [this]
  have hfound : 0 < t.best → ∃ e, 1 ≤ e ∧ e < 1 + min s.p Config.histSize ∧ IsCandidate s.p (s.p - e) ∧ t.bs = s.p - e ∧
      s.extent n (s.p - e) = t.best ∧ ∀ f, 1 ≤ f → f < e → (s.p - f) % Config.histSize ≠ Config.skipPos →
        s.extent n (s.p - f) < t.best := by
    intro hpos
    obtain ⟨e, g1, g2, g3, g4, g5, g6⟩ := h7 hpos
    exact ⟨e, g1, g2, ⟨by omega, by omega, g3⟩, g4, g5, g6⟩
  refine ⟨t, h1, by rw [h2], h3, ?_, ?_, fun a ha => ?_, fun hpos => ?_, h8, ?_⟩
  · rcases Nat.eq_zero_or_pos t.best with hb | hb
    · omega
    · obtain ⟨e, -, -, -, -, g5, -⟩ := hfound hb
      have := extent_in_source (s := s) (n := n) (cand := s.p - e) hp
      omega
  · rcases Nat.eq_zero_or_pos t.best with hb | hb
    · rw [h6 hb]; exact Nat.zero_le _
    · obtain ⟨e, -, -, -, g4, -, -⟩ := hfound hb
      omega
  · obtain ⟨e, he1, he2, rfl, het⟩ := hcand a ha
    exact h5 e he1 he2 het
  · obtain ⟨e, g1, g2, g3, g4, g5, g6⟩ := hfound hpos
    rw [g4]
    refine ⟨g3, g5, fun a ha hlt => ?_⟩
    obtain ⟨f, hf1, hf2, rfl, hft⟩ := hcand a ha
    exact g6 f hf1 (by omega) hft
  · rcases h9 with h9 | h9
    · exact .inl (by omega)
    · exact .inr h9

/-- The start a search leaves never has the residue 8191, whether a match was found or not (42_lzss_compress.md R182). -/
theorem searchMatch_bs_residue {n : Nat} {s u : State} (hn : n ≤ s.launch.srcMem) (hp : s.p ≤ n)
    (h : searchMatch n s = some u) : u.bs % 8192 ≠ 8191 := by
  obtain ⟨v, e1, -, -, -, -, -, b5, -, -⟩ := searchMatch_spec hn hp
  have hv : v = u := Option.some.inj (e1.symm.trans h)
  subst hv
  rcases Nat.eq_zero_or_pos v.best with hb | hb
  · obtain ⟨t, g1, -, -, -, -, g6, -, -, -⟩ := searchFrom_spec (n := n) (min s.p Config.histSize) 1
      { s with best := 0, bs := 0 } hn (Nat.le_refl _)
      (by show _ ≤ s.p + 1; have : Config.histSize = 8192 := rfl; omega) (Nat.zero_le _)
    have ht : t = v := Option.some.inj (g1.symm.trans h)
    subst ht
    have h0 : t.bs = 0 := g6 hb
    omega
  · exact (b5 hb).1.2.2

/-! Writing one token (42_lzss_compress.md R185). -/

/-- Bits written through the write engine (40_bitstream.md R145): DST and the write engine change, nothing else. -/
theorem putBits_spec {s : State} {o : Nat} (hw : s.wr = posAt o) (v n : Nat) (h : o + n ≤ 8 * s.launch.dstMem) :
    ∃ mem, s.putBits v n = some { s with dst := mem, wr := posAt (o + n) } ∧
      (Memory.wf s.dst = true → Memory.wf mem = true ∧ ∀ x, streamBit mem x =
          (streamBit s.dst x || (decide (o ≤ x ∧ x < o + n) && v.testBit (o + n - 1 - x)))) ∧
      (Memory.below s.launch.dstMem s.dst = true → Memory.below s.launch.dstMem mem = true) := by
  obtain ⟨mem, h1, h2, h3⟩ := writeBits_posAt .dst v n s o h
  refine ⟨mem, ?_, h2, h3⟩
  rw [State.putBits, hw, h1]
  rfl

/-- The history update (42_lzss_compress.md R186): HIST only, the source bytes at their residues. -/
theorem keepHist_spec (n : Nat) : ∀ (i : Nat) (s : State), s.p + i + n ≤ s.launch.srcMem →
    ∃ h, State.keepHist n i s = some { s with hist := h } ∧
      (Memory.wf s.hist = true → Memory.wf h = true ∧
        (∀ x, s.p + i ≤ x → x < s.p + i + n → s.p + i + n ≤ x + Config.histSize →
          Memory.read h (x % Config.histSize) = Memory.read s.src x) ∧
        (∀ y, (∀ x, s.p + i ≤ x → x < s.p + i + n → x % Config.histSize ≠ y) → Memory.read h y = Memory.read s.hist y)) ∧
      (Memory.below Config.histSize s.hist = true → Memory.below Config.histSize h = true) := by
  have hz : Config.histSize = 8192 := rfl
  induction n with
  | zero => exact fun i s _ => ⟨s.hist, rfl, fun hw => ⟨hw, fun x h1 h2 => by omega, fun _ _ => rfl⟩, id⟩
  | succ n ih =>
    intro i s h
    have hr : s.memRead .src (s.p + i) = some (Memory.read s.src (s.p + i)) :=
      memRead_of_lt (sp := .src) (show s.p + i < s.size .src by rw [State.size_src]; omega)
    rw [State.keepHist, hr, Option.bind_some]
    obtain ⟨h', e1, e2, e3⟩ := ih (i + 1) (s.histWrite (s.p + i) (Memory.read s.src (s.p + i)))
      (by simp only [State.histWrite_p, State.histWrite_launch]; omega)
    refine ⟨h', by rw [e1]; rfl, fun hw => ?_, fun hb => ?_⟩
    · obtain ⟨w1, w2, w3⟩ := e2 (Memory.write_wf hw _ _)
      simp only [State.histWrite_p, State.histWrite_src, State.histWrite_hist] at w2 w3
      refine ⟨w1, fun x hx1 hx2 hx3 => ?_, fun y hy => ?_⟩
      · by_cases hx : x = s.p + i
        · subst hx
          rw [w3 _ fun z hz1 hz2 hz3 => ?_, Memory.read_write hw, if_pos rfl]
          rw [hz] at hz3 hx3
          omega
        · exact w2 x (by omega) (by omega) (by omega)
      · rw [w3 y fun x hx1 hx2 => hy x (by omega) (by omega), Memory.read_write hw,
          if_neg fun hy' => hy (s.p + i) (Nat.le_refl _) (by omega) hy'.symm]
    · exact e3 (Memory.write_below hb (Nat.mod_lt _ (by decide)) _)

/-- The bits a token of the compressor is written as, as one number (42_lzss_compress.md R185, 30_encoding.md R103,
R104): 9 bits for a literal, 18 for a back-reference. -/
def tokenBits (s : State) : Nat × Nat :=
  if s.best < 3 then (9, 256 + (Memory.read s.src s.p).toNat)
  else (18, (s.bs % 8192 + 1) * 16 + (s.best - 3))

/-- How many source bytes the token covers (42_lzss_compress.md R185). -/
def tokenCovers (s : State) : Nat := if s.best < 3 then 1 else s.best

/-- One token (42_lzss_compress.md R185, R186): its bits are ORed into DST at the write position, HIST takes the source
bytes it covers, `p` moves on, nothing else changes. -/
theorem emitToken_spec {s : State} {o : Nat} (hw : s.wr = posAt o)
    (hsrc : s.p + tokenCovers s ≤ s.launch.srcMem) (hdst : o + (tokenBits s).1 ≤ 8 * s.launch.dstMem)
    (hb : s.best ≤ 18) (hbs : s.bs % 8192 ≠ 8191) :
    ∃ mem h, emitToken s = some { s with dst := mem, wr := posAt (o + (tokenBits s).1), hist := h, p := s.p + tokenCovers s } ∧
      (Memory.wf s.dst = true → Memory.wf mem = true ∧ ∀ x, streamBit mem x =
          (streamBit s.dst x || (decide (o ≤ x ∧ x < o + (tokenBits s).1) &&
            (tokenBits s).2.testBit (o + (tokenBits s).1 - 1 - x)))) ∧
      (Memory.below s.launch.dstMem s.dst = true → Memory.below s.launch.dstMem mem = true) ∧
      (Memory.wf s.hist = true → Memory.wf h = true ∧
        (∀ x, s.p ≤ x → x < s.p + tokenCovers s → Memory.read h (x % Config.histSize) = Memory.read s.src x) ∧
        (∀ y, (∀ x, s.p ≤ x → x < s.p + tokenCovers s → x % Config.histSize ≠ y) →
          Memory.read h y = Memory.read s.hist y)) ∧
      (Memory.below Config.histSize s.hist = true → Memory.below Config.histSize h = true) := by
  have hz : Config.histSize = 8192 := rfl
  have hmin : Config.minMatch = 3 := rfl
  unfold emitToken
  rw [hmin]
  by_cases hlit : s.best < 3
  · have ht : tokenBits s = (9, 256 + (Memory.read s.src s.p).toNat) := by rw [tokenBits, if_pos hlit]
    have hc : tokenCovers s = 1 := by rw [tokenCovers, if_pos hlit]
    rw [ht] at hdst ⊢
    rw [hc] at hsrc ⊢
    rw [if_pos hlit]
    obtain ⟨m1, e1, w1, b1⟩ := putBits_spec hw 1 1 (by omega)
    rw [e1, Option.bind_some]
    rw [show ({ s with dst := m1, wr := posAt (o + 1) } : State).memRead .src
        ({ s with dst := m1, wr := posAt (o + 1) } : State).p = some (Memory.read s.src s.p) from
      memRead_of_lt (sp := .src) (show s.p < s.launch.srcMem by omega), Option.bind_some]
    obtain ⟨m2, e2, w2, b2⟩ := putBits_spec (s := { s with dst := m1, wr := posAt (o + 1) }) rfl
      (Memory.read s.src s.p).toNat 8 (by show o + 1 + 8 ≤ 8 * s.launch.dstMem; omega)
    rw [e2, Option.bind_some]
    obtain ⟨h, e3, w3, b3⟩ := keepHist_spec 1 0 { s with dst := m2, wr := posAt (o + 1 + 8) }
      (by show s.p + 0 + 1 ≤ s.launch.srcMem; omega)
    rw [e3]
    refine ⟨m2, h, rfl, fun hwf => ?_, fun hbl => b2 (b1 hbl), fun hwh => ?_, b3⟩
    · obtain ⟨v1, c1⟩ := w1 hwf
      obtain ⟨v2, c2⟩ := w2 v1
      refine ⟨v2, fun x => ?_⟩
      rw [c2, c1]
      have hv := (Memory.read s.src s.p).isLt
      by_cases hx : x = o
      · subst hx
        have e : x + 9 - 1 - x = 8 := by omega
        have e' : x + 1 - 1 - x = 0 := by omega
        have hbit : (256 + (Memory.read s.src s.p).toNat).testBit 8 = true := by
          have := Nat.testBit_two_pow_add_eq (Memory.read s.src s.p).toNat 8
          rw [show (256 : Nat) = 2 ^ 8 from rfl, this, Nat.testBit_lt_two_pow hv]
          rfl
        simp only [e, e', hbit]
        simp
      · by_cases hin : o + 1 ≤ x ∧ x < o + 9
        · have e : o + 1 + 8 - 1 - x = o + 9 - 1 - x := by omega
          have h1 : ¬ (o ≤ x ∧ x < o + 1) := by omega
          have h2 : o + 1 ≤ x ∧ x < o + 1 + 8 := by omega
          have h3 : o ≤ x ∧ x < o + 9 := by omega
          rw [decide_eq_false h1, decide_eq_true h2, decide_eq_true h3, e]
          have hbit : (256 + (Memory.read s.src s.p).toNat).testBit (o + 9 - 1 - x) =
              (Memory.read s.src s.p).toNat.testBit (o + 9 - 1 - x) := by
            rw [show (256 : Nat) = 2 ^ 8 from rfl, Nat.testBit_two_pow_add_gt (by omega)]
          rw [hbit]
          simp
        · have h1 : ¬ (o ≤ x ∧ x < o + 1) := by omega
          have h2 : ¬ (o + 1 ≤ x ∧ x < o + 1 + 8) := by omega
          have h3 : ¬ (o ≤ x ∧ x < o + 9) := by omega
          rw [decide_eq_false h1, decide_eq_false h2, decide_eq_false h3]
          simp
    · obtain ⟨g1, g2, g3⟩ := w3 hwh
      exact ⟨g1, fun x hx1 hx2 => g2 x hx1 hx2 (by show s.p + 0 + 1 ≤ x + 8192; omega), fun y hy => g3 y hy⟩
  · have ht : tokenBits s = (18, (s.bs % 8192 + 1) * 16 + (s.best - 3)) := by rw [tokenBits, if_neg hlit]
    have hc : tokenCovers s = s.best := by rw [tokenCovers, if_neg hlit]
    rw [ht] at hdst ⊢
    rw [hc] at hsrc ⊢
    rw [if_neg hlit]
    obtain ⟨m1, e1, w1, b1⟩ := putBits_spec hw 0 1 (by omega)
    rw [e1, Option.bind_some]
    obtain ⟨m2, e2, w2, b2⟩ := putBits_spec (s := { s with dst := m1, wr := posAt (o + 1) }) rfl
      (s.bs % Config.histSize + 1) Config.idxBits (by show o + 1 + 13 ≤ 8 * s.launch.dstMem; omega)
    rw [e2, Option.bind_some]
    have hi : Config.idxBits = 13 := rfl
    have hl : Config.lenBits = 4 := rfl
    obtain ⟨m3, e3, w3, b3⟩ := putBits_spec (s := { s with dst := m2, wr := posAt (o + 1 + Config.idxBits) }) rfl
      (s.best - 3) Config.lenBits (by show o + 1 + 13 + 4 ≤ 8 * s.launch.dstMem; omega)
    rw [e3, Option.bind_some]
    obtain ⟨h, e4, w4, b4⟩ := keepHist_spec s.best 0
      { s with dst := m3, wr := posAt (o + 1 + Config.idxBits + Config.lenBits) }
      (by show s.p + 0 + s.best ≤ s.launch.srcMem; omega)
    rw [e4]
    refine ⟨m3, h, rfl, fun hwf => ?_, fun hbl => b3 (b2 (b1 hbl)), fun hwh => ?_, b4⟩
    · obtain ⟨v1, c1⟩ := w1 hwf
      obtain ⟨v2, c2⟩ := w2 v1
      obtain ⟨v3, c3⟩ := w3 v2
      refine ⟨v3, fun x => ?_⟩
      rw [c3, c2, c1, hi, hl, hz]
      have hlo : s.best - 3 < 2 ^ 4 := by omega
      have hhi : s.bs % 8192 + 1 < 2 ^ 13 := by omega
      have hval : ∀ j, ((s.bs % 8192 + 1) * 16 + (s.best - 3)).testBit j =
          if j < 4 then (s.best - 3).testBit j else (s.bs % 8192 + 1).testBit (j - 4) := by
        intro j
        rw [Nat.mul_comm, show (16 : Nat) = 2 ^ 4 from rfl, Nat.testBit_two_pow_mul_add _ hlo]
      rw [hval]
      by_cases h0 : x = o
      · subst h0
        have e : x + 18 - 1 - x = 17 := by omega
        rw [e]
        have hb13 : (s.bs % 8192 + 1).testBit 13 = false := Nat.testBit_lt_two_pow hhi
        have n1 : ¬ (x + 1 ≤ x ∧ x < x + 1 + 13) := by omega
        have n2 : ¬ (x + 1 + 13 ≤ x ∧ x < x + 1 + 13 + 4) := by omega
        rw [decide_eq_false n1, decide_eq_false n2, if_neg (by omega), show 17 - 4 = 13 from rfl, hb13]
        simp
      · by_cases h1 : o + 1 ≤ x ∧ x < o + 14
        · have n1 : ¬ (o ≤ x ∧ x < o + 1) := by omega
          have n2 : o + 1 ≤ x ∧ x < o + 1 + 13 := by omega
          have n3 : ¬ (o + 1 + 13 ≤ x ∧ x < o + 1 + 13 + 4) := by omega
          have n4 : o ≤ x ∧ x < o + 18 := by omega
          rw [decide_eq_false n1, decide_eq_true n2, decide_eq_false n3, decide_eq_true n4, if_neg (by omega)]
          have e : o + 18 - 1 - x - 4 = o + 1 + 13 - 1 - x := by omega
          rw [e]
          simp
        · by_cases h2 : o + 14 ≤ x ∧ x < o + 18
          · have n1 : ¬ (o ≤ x ∧ x < o + 1) := by omega
            have n2 : ¬ (o + 1 ≤ x ∧ x < o + 1 + 13) := by omega
            have n3 : o + 1 + 13 ≤ x ∧ x < o + 1 + 13 + 4 := by omega
            have n4 : o ≤ x ∧ x < o + 18 := by omega
            rw [decide_eq_false n1, decide_eq_false n2, decide_eq_true n3, decide_eq_true n4, if_pos (by omega)]
            have e : o + 1 + 13 + 4 - 1 - x = o + 18 - 1 - x := by omega
            rw [e]
            simp
          · have n1 : ¬ (o ≤ x ∧ x < o + 1) := by omega
            have n2 : ¬ (o + 1 ≤ x ∧ x < o + 1 + 13) := by omega
            have n3 : ¬ (o + 1 + 13 ≤ x ∧ x < o + 1 + 13 + 4) := by omega
            have n4 : ¬ (o ≤ x ∧ x < o + 18) := by omega
            rw [decide_eq_false n1, decide_eq_false n2, decide_eq_false n3, decide_eq_false n4]
            simp
    · obtain ⟨g1, g2, g3⟩ := w4 hwh
      exact ⟨g1, fun x hx1 hx2 => g2 x hx1 hx2 (by show s.p + 0 + s.best ≤ x + 8192; omega),
        fun y hy => g3 y hy⟩

/-! The source loop and the whole run. -/

/-- The state with the compressor's own parts replaced: what COMPRESS can touch. -/
def State.compressed (s u : State) : State :=
  { s with dst := u.dst, wr := u.wr, hist := u.hist, p := u.p, best := u.best, bs := u.bs, d := u.d, k := u.k,
           cap := u.cap }

/-- The source loop (42_lzss_compress.md R180, R189): it never leaves the memories, it spends at most 9 bits a byte, and,
given iterations enough, it ends at `p = N`. -/
theorem compressLoop_spec {n : Nat} (fuel : Nat) : ∀ (s : State) (o : Nat), n ≤ s.launch.srcMem →
    9 * n ≤ 8 * s.launch.dstMem → s.wr = posAt o → s.p ≤ n → o ≤ 9 * s.p →
    ∃ t o', compressLoop n fuel s = some t ∧ t = s.compressed t ∧ t.cap = s.cap ∧ t.wr = posAt o' ∧ o ≤ o' ∧
      o' ≤ 9 * t.p ∧ t.p ≤ n ∧ s.p ≤ t.p ∧ (n ≤ s.p + fuel → t.p = n) ∧
      (s.best ≤ 18 → t.best ≤ 18) ∧ t.bs ≤ max s.bs n ∧ (s.k ≤ 18 → t.k ≤ 18) ∧ (s.d ≤ 8192 → t.d ≤ 8192) ∧
      (Memory.wf s.dst = true → Memory.wf t.dst = true ∧
        ∀ x, x < o ∨ o' ≤ x → streamBit t.dst x = streamBit s.dst x) ∧
      (Memory.below s.launch.dstMem s.dst = true → Memory.below s.launch.dstMem t.dst = true) ∧
      (Memory.wf s.hist = true → Memory.wf t.hist = true) ∧
      (Memory.below Config.histSize s.hist = true → Memory.below Config.histSize t.hist = true) := by
  induction fuel with
  | zero =>
    intro s o hn hd hw hp ho
    exact ⟨s, o, rfl, rfl, rfl, hw, Nat.le_refl _, ho, hp, Nat.le_refl _, fun h => by omega, id, by omega, id, id,
      fun hwf => ⟨hwf, fun _ _ => rfl⟩, id, id, id⟩
  | succ fuel ih =>
    intro s o hn hd hw hp ho
    rw [compressLoop]
    by_cases hlt : s.p < n
    · rw [if_pos hlt]
      obtain ⟨u, e1, f1, b1, b2, b3, -, b5, b6, b7⟩ := searchMatch_spec hn hp
      have up : u.p = s.p := by rw [f1]
      have ul : u.launch = s.launch := by rw [f1]
      have ud : u.dst = s.dst := by rw [f1]
      have uh : u.hist = s.hist := by rw [f1]
      have uw : u.wr = s.wr := by rw [f1]
      have uc : u.cap = s.cap := by rw [f1]
      have hcov : 1 ≤ tokenCovers u ∧ s.p + tokenCovers u ≤ n := by
        unfold tokenCovers; split <;> omega
      have hbits : (tokenBits u).1 ≤ 9 * tokenCovers u := by
        unfold tokenBits tokenCovers
        split
        · simp
        · simp only; omega
      have hbits0 : 0 < (tokenBits u).1 := by unfold tokenBits; split <;> simp
      have hres : u.bs % 8192 ≠ 8191 := searchMatch_bs_residue hn hp e1
      obtain ⟨mem, h, e2, w2, l2, hw2, hl2⟩ := emitToken_spec (s := u) (o := o) (by rw [uw, hw]) (by rw [up, ul]; omega)
        (by rw [ul]; omega) b1 hres
      rw [e1, Option.bind_some, e2, Option.bind_some]
      generalize hv : ({ u with dst := mem, wr := posAt (o + (tokenBits u).1), hist := h, p := u.p + tokenCovers u } : State) = v
      have vl : v.launch = s.launch := by rw [← hv]; exact ul
      have vp : v.p = s.p + tokenCovers u := by rw [← hv, ← up]
      have vd : v.dst = mem := by rw [← hv]
      have vh : v.hist = h := by rw [← hv]
      have vb : v.best = u.best := by rw [← hv]
      have vbs : v.bs = u.bs := by rw [← hv]
      have vk : v.k = u.k := by rw [← hv]
      have vdd : v.d = u.d := by rw [← hv]
      have vc : v.cap = s.cap := by rw [← hv]; exact uc
      obtain ⟨t, o', i1, i2, i3, i4, i5, i6, i7, i8, i9, i10, i11, i12, i13, i14, i15, i16, i17⟩ :=
        ih v (o + (tokenBits u).1) (by rw [vl]; exact hn) (by rw [vl]; exact hd) (by rw [← hv]) (by omega) (by omega)
      refine ⟨t, o', i1, ?_, by rw [i3, vc], i4, by omega, i6, i7, by omega, fun hf => i9 (by omega),
        fun _ => i10 (by rw [vb]; exact b1), by omega, fun hk => i12 (by rw [vk]; omega),
        fun hk => i13 (by rw [vdd]; omega), fun hwf => ?_, fun hbl => ?_, fun hwf => ?_, fun hbl => ?_⟩
      · rw [i2, ← hv, f1]
        rfl
      · obtain ⟨w, c⟩ := w2 (by rw [ud]; exact hwf)
        obtain ⟨w', c'⟩ := i14 (by rw [vd]; exact w)
        refine ⟨w', fun x hx => ?_⟩
        rw [c' x (by omega), vd, c, ud]
        have : ¬ (o ≤ x ∧ x < o + (tokenBits u).1) := by omega
        rw [decide_eq_false this]
        simp
      · have := i15 (by rw [vd, vl, ← ul]; exact l2 (by rw [ul, ud]; exact hbl))
        rwa [vl] at this
      · exact i16 (by rw [vh]; exact (hw2 (by rw [uh]; exact hwf)).1)
      · exact i17 (by rw [vh]; exact hl2 (by rw [uh]; exact hbl))
    · rw [if_neg hlt]
      exact ⟨s, o, rfl, rfl, rfl, hw, Nat.le_refl _, ho, hp, Nat.le_refl _, fun _ => by omega, id, by omega, id, id,
        fun hwf => ⟨hwf, fun _ _ => rfl⟩, id, id, id⟩

/-- Zero-fill (42_lzss_compress.md R189): the bytes from `a` on are 0, no other byte and nothing else changes. -/
theorem zeroFill_spec (todo : Nat) : ∀ (a : Nat) (s : State), a + todo ≤ s.launch.dstMem →
    ∃ mem, zeroFill todo a s = some { s with dst := mem } ∧
      (Memory.wf s.dst = true → Memory.wf mem = true ∧
        ∀ x, Memory.read mem x = if a ≤ x ∧ x < a + todo then 0#8 else Memory.read s.dst x) ∧
      (Memory.below s.launch.dstMem s.dst = true → Memory.below s.launch.dstMem mem = true) := by
  induction todo with
  | zero =>
    intro a s _
    exact ⟨s.dst, rfl, fun hw => ⟨hw, fun x => by rw [if_neg (by omega)]⟩, id⟩
  | succ todo ih =>
    intro a s h
    rw [zeroFill, memWrite_of_lt (sp := .dst) _ (show a < s.size .dst by rw [State.size_dst]; omega), Option.bind_some]
    obtain ⟨mem, e1, w1, b1⟩ := ih (a + 1) (s.withMem .dst (Memory.write (s.mem .dst) a 0#8))
      (by simp only [State.withMem_launch]; omega)
    refine ⟨mem, by rw [e1]; rfl, fun hw => ?_, fun hb => ?_⟩
    · obtain ⟨w, r⟩ := w1 (Memory.write_wf hw _ _)
      refine ⟨w, fun x => ?_⟩
      rw [r]
      have hr : Memory.read (s.withMem .dst (Memory.write (s.mem .dst) a 0#8)).dst x =
          if x = a then 0#8 else Memory.read s.dst x := Memory.read_write hw a 0#8 x
      rw [hr]
      by_cases hx : x = a
      · subst hx
        rw [if_neg (by omega), if_pos rfl, if_pos (by omega)]
      · by_cases hin : a + 1 ≤ x ∧ x < a + 1 + todo
        · rw [if_pos hin, if_pos (by omega)]
        · rw [if_neg hin, if_neg hx, if_neg (by omega)]
    · have := b1 (Memory.write_below hb (by omega) _)
      simpa using this

/-- `Compress(N)` (42_lzss_compress.md R187 to R189): what it leaves. `o` is the write engine's offset after the data
tokens; the terminator's two bits follow. -/
theorem compressRun_spec {s : State} (hsrc : s.srcLen.toNat ≤ s.launch.srcMem)
    (hcap : compressCap s.srcLen.toNat ≤ s.launch.dstMem) :
    ∃ t o, compressRun s = some t ∧ t = s.compressed t ∧ t.cap = compressCap s.srcLen.toNat ∧ t.wr = posAt (o + 2) ∧
      o ≤ 9 * s.srcLen.toNat ∧ t.p = s.srcLen.toNat ∧ t.wr.cur + 1 ≤ compressCap s.srcLen.toNat ∧
      (s.best ≤ 18 → t.best ≤ 18) ∧ t.bs ≤ max s.bs s.srcLen.toNat ∧ (s.k ≤ 18 → t.k ≤ 18) ∧
      (s.d ≤ 8192 → t.d ≤ 8192) ∧
      (Memory.wf s.dst = true → Memory.wf t.dst = true ∧
        (∀ x, t.wr.cur + 1 ≤ x → x < compressCap s.srcLen.toNat → Memory.read t.dst x = 0#8) ∧
        (∀ x, compressCap s.srcLen.toNat ≤ x → Memory.read t.dst x = Memory.read s.dst x)) ∧
      (Memory.below s.launch.dstMem s.dst = true → Memory.below s.launch.dstMem t.dst = true) ∧
      (Memory.wf s.hist = true → Memory.wf t.hist = true) ∧
      (Memory.below Config.histSize s.hist = true → Memory.below Config.histSize t.hist = true) := by
  have hc9 : 9 * s.srcLen.toNat + 2 ≤ 8 * compressCap s.srcLen.toNat - 8 := by unfold compressCap; omega
  have hc16 : 16 ≤ 8 * compressCap s.srcLen.toNat := by unfold compressCap; omega
  obtain ⟨m0, e0, w0, b0⟩ := zeroFill_spec (compressCap s.srcLen.toNat) 0
    { s with cap := compressCap s.srcLen.toNat } (by show 0 + _ ≤ s.launch.dstMem; omega)
  obtain ⟨u, o, e1, f1, c1, p1, p2, p3, p4, p5, p6, p7, p8, p9, p10, w1, b1, hw1, hb1⟩ :=
    compressLoop_spec (n := s.srcLen.toNat) s.srcLen.toNat
      { s with cap := compressCap s.srcLen.toNat, dst := m0, wr := BitPos.first, p := 0 } 0 hsrc
      (by show 9 * s.srcLen.toNat ≤ 8 * s.launch.dstMem; omega) rfl (Nat.zero_le _) (Nat.le_refl _)
  have up : u.p = s.srcLen.toNat := p6 (by show s.srcLen.toNat ≤ 0 + s.srcLen.toNat; omega)
  have ul : u.launch = s.launch := by rw [f1]; rfl
  obtain ⟨m2, e2, w2, b2⟩ := putBits_spec p1 0 2 (by rw [ul]; omega)
  have hcur : (posAt (o + 2)).cur + 1 ≤ compressCap s.srcLen.toNat := by
    rw [posAt_cur]; omega
  refine ⟨{ u with dst := m2, wr := posAt (o + 2) }, o, ?_, ?_, c1, rfl, by omega, up, hcur, p7, p8, p9, p10,
    fun hwf => ?_, fun hbl => ?_, hw1, hb1⟩
  · rw [compressRun, e0, Option.bind_some]
    rw [e1, Option.bind_some, e2]
  · rw [f1]; rfl
  · obtain ⟨v0, r0⟩ := w0 hwf
    obtain ⟨v1, r1⟩ := w1 v0
    obtain ⟨v2, r2⟩ := w2 v1
    have hcur' : ({ u with dst := m2, wr := posAt (o + 2) } : State).wr.cur = (o + 2) / 8 := rfl
    have hbit : ∀ x, o ≤ x → streamBit m2 x = streamBit m0 x := by
      intro x hx
      rw [r2, r1 x (by omega)]
      simp
    refine ⟨v2, fun x hx1 hx2 => ?_, fun x hx => ?_⟩
    · rw [hcur'] at hx1
      have h0 : Memory.read m0 x = 0#8 := by rw [r0, if_pos (by omega)]
      show Memory.read m2 x = 0#8
      rw [← h0]
      exact read_eq_iff_streamBit.mpr fun i _ => hbit _ (by omega)
    · have h0 : Memory.read m0 x = Memory.read s.dst x := by rw [r0, if_neg (by omega)]
      show Memory.read m2 x = _
      rw [← h0]
      exact read_eq_iff_streamBit.mpr fun i _ => hbit _ (by omega)
  · have h1 := b1 (b0 hbl)
    have h2 := b2 (by rw [ul]; exact h1)
    rwa [ul] at h2

end Sys2Proof.Machine
end

