-- ==== Sys2Proof/Laws/Canonical.lean ====
section
/-! SUPPORT. COMPRESS writes the canonical stream of its source (42_lzss_compress.md R180 to R188, 30_encoding.md R112):
the source loop against the token list that the search rules give. -/

namespace Sys2Proof.Machine

/-! Bit strings. -/

@[simp] theorem bitString_length (v n : Nat) : (bitString v n).length = n := by simp [bitString]

theorem bitString_getD (v n i : Nat) : (bitString v n).getD i false = (decide (i < n) && v.testBit (n - 1 - i)) := by
  by_cases h : i < n
  · simp [bitString, List.getD_eq_getElem?_getD, h]
  · simp [bitString, List.getD_eq_getElem?_getD, h]

theorem getD_append (a b : List Bool) (i : Nat) :
    (a ++ b).getD i false = if i < a.length then a.getD i false else b.getD (i - a.length) false := by
  by_cases h : i < a.length
  · rw [if_pos h, List.getD_eq_getElem?_getD, List.getElem?_append_left h, List.getD_eq_getElem?_getD]
  · rw [if_neg h, List.getD_eq_getElem?_getD, List.getElem?_append_right (by omega), List.getD_eq_getElem?_getD]

/-- The token that the search registers choose (42_lzss_compress.md R185). -/
def chosenToken (s : State) : Token :=
  if s.best < 3 then .lit (Memory.read s.src s.p)
  else .ref (BitVec.ofNat 13 (s.bs % 8192 + 1)) (BitVec.ofNat 4 (s.best - 3))

theorem chosenToken_length (s : State) : (tokenString (chosenToken s)).length = (tokenBits s).1 := by
  unfold chosenToken tokenBits
  split <;> simp [tokenString]

/-- The number `emitToken` writes is the chosen token's bit string. -/
theorem chosenToken_getD {s : State} (hb : s.best ≤ 18) (hbs : s.bs % 8192 ≠ 8191) (i : Nat) :
    (tokenString (chosenToken s)).getD i false =
      (decide (i < (tokenBits s).1) && (tokenBits s).2.testBit ((tokenBits s).1 - 1 - i)) := by
  unfold chosenToken tokenBits
  by_cases hlit : s.best < 3
  · rw [if_pos hlit, if_pos hlit, tokenString]
    have hv := (Memory.read s.src s.p).isLt
    cases i with
    | zero =>
      have := Nat.testBit_two_pow_add_eq (Memory.read s.src s.p).toNat 8
      rw [Nat.testBit_lt_two_pow hv] at this
      simpa using this
    | succ i =>
      rw [List.getD_cons_succ, bitString_getD]
      by_cases hi : i < 8
      · have h1 : i + 1 < 9 := by omega
        rw [decide_eq_true hi, decide_eq_true h1, show (256 : Nat) = 2 ^ 8 from rfl,
          Nat.testBit_two_pow_add_gt (by omega)]
        simp only [Bool.true_and]
        congr 1; omega
      · have h1 : ¬ i + 1 < 9 := by omega
        rw [decide_eq_false hi, decide_eq_false h1]
        rfl
  · rw [if_neg hlit, if_neg hlit, tokenString]
    have hlo : s.best - 3 < 2 ^ 4 := by omega
    have hhi : s.bs % 8192 + 1 < 2 ^ 13 := by omega
    have hval : ∀ j, ((s.bs % 8192 + 1) * 16 + (s.best - 3)).testBit j =
        if j < 4 then (s.best - 3).testBit j else (s.bs % 8192 + 1).testBit (j - 4) := by
      intro j
      rw [Nat.mul_comm, show (16 : Nat) = 2 ^ 4 from rfl, Nat.testBit_two_pow_mul_add _ hlo]
    rw [BitVec.toNat_ofNat, BitVec.toNat_ofNat, Nat.mod_eq_of_lt hhi, Nat.mod_eq_of_lt hlo, hval]
    cases i with
    | zero => simp [Nat.testBit_lt_two_pow hhi]
    | succ i =>
      rw [List.getD_cons_succ, getD_append, bitString_length, bitString_getD, bitString_getD]
      by_cases h1 : i < 13
      · have h2 : i + 1 < 18 := by omega
        have h3 : ¬ (18 - 1 - (i + 1) < 4) := by omega
        rw [if_pos h1, decide_eq_true h1, decide_eq_true h2, if_neg h3]
        simp only [Bool.true_and]
        congr 1; omega
      · rw [if_neg h1]
        by_cases h2 : i - 13 < 4
        · have h3 : i + 1 < 18 := by omega
          have h4 : 18 - 1 - (i + 1) < 4 := by omega
          rw [decide_eq_true h2, decide_eq_true h3, if_pos h4]
          simp only [Bool.true_and]
          congr 1; omega
        · have h3 : ¬ i + 1 < 18 := by omega
          rw [decide_eq_false h2, decide_eq_false h3]
          rfl

/-- The history update keeps HIST a mirror of the source (42_lzss_compress.md R186 (a)). -/
theorem histMirrors_moved {s : State} {h : Memory} {c : Nat} (hm : HistMirrorsSrc s) {u : State} (hu : u.hist = h)
    (hp : u.p = s.p + c) (hsrc : u.src = s.src)
    (h1 : ∀ x, s.p ≤ x → x < s.p + c → Memory.read h (x % Config.histSize) = Memory.read s.src x)
    (h2 : ∀ y, (∀ x, s.p ≤ x → x < s.p + c → x % Config.histSize ≠ y) → Memory.read h y = Memory.read s.hist y) :
    HistMirrorsSrc u := by
  have hz : Config.histSize = 8192 := rfl
  intro x hx hw
  rw [State.histRead, hu, hsrc]
  rw [hp] at hx hw
  by_cases hlt : x < s.p
  · rw [h2 _ fun x' a b => by rw [hz] at hw ⊢; omega]
    exact hm x hlt (by omega)
  · exact h1 x (by omega) hx

/-- The source loop writes the canonical tokens of the source from `p` on (42_lzss_compress.md R180 to R186, R190). -/
theorem compressLoop_canonical {n : Nat} (fuel : Nat) : ∀ (s : State) (o : Nat), n ≤ s.launch.srcMem →
    9 * n ≤ 8 * s.launch.dstMem → s.wr = posAt o → s.p ≤ n → o ≤ 9 * s.p → HistMirrorsSrc s →
    Memory.wf s.hist = true → Memory.wf s.dst = true → n ≤ s.p + fuel →
    ∃ t toks, compressLoop n fuel s = some t ∧ CanonicalTokens s.src n s.p toks ∧
      t.wr = posAt (o + (toks.flatMap tokenString).length) ∧
      ∀ x, streamBit t.dst x =
        (streamBit s.dst x || (decide (o ≤ x) && (toks.flatMap tokenString).getD (x - o) false)) := by
  have hmin : Config.minMatch = 3 := rfl
  have hz : Config.histSize = 8192 := rfl
  have hstop : ∀ (s : State) (o : Nat), s.wr = posAt o → s.p = n →
      ∃ toks, CanonicalTokens s.src n s.p toks ∧ s.wr = posAt (o + (toks.flatMap tokenString).length) ∧
        ∀ x, streamBit s.dst x =
          (streamBit s.dst x || (decide (o ≤ x) && (toks.flatMap tokenString).getD (x - o) false)) :=
    fun s o hw hp => ⟨[], hp, by simpa using hw, fun x => by simp⟩
  induction fuel with
  | zero =>
    intro s o _ _ hw hp _ _ _ _ hf
    obtain ⟨toks, h⟩ := hstop s o hw (by omega)
    exact ⟨s, toks, rfl, h⟩
  | succ fuel ih =>
    intro s o hn hd hw hp ho hm hwh hwd hf
    rw [compressLoop]
    by_cases hlt : s.p < n
    · rw [if_pos hlt]
      obtain ⟨u, e1, f1, b1, b2, -, b4, b5, -, -⟩ := searchMatch_spec (s := s) hn hp
      rw [e1, Option.bind_some]
      have up : u.p = s.p := by rw [f1]
      have us : u.src = s.src := by rw [f1]
      have ul : u.launch = s.launch := by rw [f1]
      have ud : u.dst = s.dst := by rw [f1]
      have uh : u.hist = s.hist := by rw [f1]
      have uw : u.wr = s.wr := by rw [f1]
      have hext : ∀ a, IsCandidate s.p a → s.extent n a = matchLength s.src n a s.p :=
        fun a ha => extent_eq_matchLength hm ha.2.1
      have hcov : 1 ≤ tokenCovers u ∧ s.p + tokenCovers u ≤ n := by
        unfold tokenCovers; split <;> omega
      have hbits : (tokenBits u).1 ≤ 9 * tokenCovers u := by
        unfold tokenBits tokenCovers
        split
        · simp
        · simp only; omega
      have hres' : u.bs % 8192 ≠ 8191 := searchMatch_bs_residue hn hp e1
      obtain ⟨mem, h, e2, w2, -, w3, -⟩ := emitToken_spec (s := u) (uw.trans hw) (by rw [up, ul]; omega)
        (by rw [ul]; omega) b1 hres'
      rw [e2, Option.bind_some]
      obtain ⟨v1, c1⟩ := w2 (by rw [ud]; exact hwd)
      obtain ⟨v2, c2, c3⟩ := w3 (by rw [uh]; exact hwh)
      rw [us, up] at c2
      rw [up, uh] at c3
      generalize hv : ({ u with dst := mem, wr := posAt (o + (tokenBits u).1), hist := h, p := u.p + tokenCovers u } : State)
        = v
      have vs : v.src = s.src := by rw [← hv]; exact us
      have vl : v.launch = s.launch := by rw [← hv]; exact ul
      have vp : v.p = s.p + tokenCovers u := by rw [← hv, ← up]
      have vw : v.wr = posAt (o + (tokenBits u).1) := by rw [← hv]
      have vd : v.dst = mem := by rw [← hv]
      have vh : v.hist = h := by rw [← hv]
      obtain ⟨t, toks, e3, g1, g2, g3⟩ := ih v (o + (tokenBits u).1) (by rw [vl]; exact hn) (by rw [vl]; exact hd) vw
        (by omega) (by omega) (histMirrors_moved hm vh vp vs c2 c3) (by rw [vh]; exact v2) (by rw [vd]; exact v1)
        (by omega)
      refine ⟨t, chosenToken u :: toks, e3, ?_, ?_, fun x => ?_⟩
      · rw [vs, vp] at g1
        unfold chosenToken
        by_cases hlit : u.best < 3
        · rw [if_pos hlit]
          rw [tokenCovers, if_pos hlit] at g1
          refine ⟨hlt, by rw [us, up], fun a ha => ?_, g1⟩
          rw [← hext a ha]
          have := b4 a ha
          omega
        · rw [if_neg hlit]
          rw [tokenCovers, if_neg hlit] at g1
          obtain ⟨d1, d2, d3⟩ := b5 (by omega)
          have hlen : (BitVec.ofNat 4 (u.best - 3)).toNat + Config.minMatch = u.best := by
            rw [BitVec.toNat_ofNat, Nat.mod_eq_of_lt (by omega)]; omega
          refine ⟨hlt, ⟨u.bs, ⟨d1, fun a ha => ?_⟩, ?_, ?_⟩, ?_⟩
          · rw [← hext a ha, ← hext _ d1, d2]
            exact ⟨b4 a ha, d3 a ha⟩
          · rw [hlen, ← hext _ d1, d2]
          · rw [BitVec.toNat_ofNat, hz, Nat.mod_eq_of_lt (by omega)]
          · rw [hlen]; exact g1
      · rw [g2, List.flatMap_cons, List.length_append, chosenToken_length]
        congr 1; omega
      · rw [g3, vd, c1, ud, List.flatMap_cons, getD_append, chosenToken_length, chosenToken_getD b1 hres']
        by_cases h1 : o ≤ x
        · by_cases h2 : x - o < (tokenBits u).1
          · have h3 : o ≤ x ∧ x < o + (tokenBits u).1 := by omega
            have h4 : ¬ o + (tokenBits u).1 ≤ x := by omega
            have h5 : o + (tokenBits u).1 - 1 - x = (tokenBits u).1 - 1 - (x - o) := by omega
            rw [if_pos h2, decide_eq_true h3, decide_eq_false h4, decide_eq_true h1, decide_eq_true h2, h5]
            simp
          · have h3 : ¬ (o ≤ x ∧ x < o + (tokenBits u).1) := by omega
            have h4 : o + (tokenBits u).1 ≤ x := by omega
            rw [if_neg h2, decide_eq_false h3, decide_eq_true h4, decide_eq_true h1,
              show x - (o + (tokenBits u).1) = x - o - (tokenBits u).1 by omega]
            simp
        · have h3 : ¬ (o ≤ x ∧ x < o + (tokenBits u).1) := by omega
          have h4 : ¬ o + (tokenBits u).1 ≤ x := by omega
          rw [decide_eq_false h3, decide_eq_false h4, decide_eq_false h1]
          simp
    · rw [if_neg hlt]
      obtain ⟨toks, h⟩ := hstop s o hw (by omega)
      exact ⟨s, toks, rfl, h⟩

theorem canonicalString_length (toks : List Token) :
    (canonicalString toks).length = (toks.flatMap tokenString).length + 2 := by simp [canonicalString, tokenString]

theorem canonicalString_getD (toks : List Token) (i : Nat) :
    (canonicalString toks).getD i false = (toks.flatMap tokenString).getD i false := by
  unfold canonicalString
  rw [getD_append]
  by_cases h : i < (toks.flatMap tokenString).length
  · rw [if_pos h]
  · rw [if_neg h]
    have h1 : (toks.flatMap tokenString).getD i false = false := by
      rw [List.getD_eq_getElem?_getD, List.getElem?_eq_none (by omega)]; rfl
    rw [h1, tokenString]
    generalize i - (toks.flatMap tokenString).length = j
    rcases j with _ | _ | j <;> rfl

/-- `Compress(N)` (42_lzss_compress.md R187, R188): below `cap`, DST holds the canonical stream of the source and zeros
after it, and the output length is the byte that holds its last bit, plus the byte a full last one adds. -/
theorem compressRun_canonical {s t : State} (hsrc : s.srcLen.toNat ≤ s.launch.srcMem)
    (hcap : compressCap s.srcLen.toNat ≤ s.launch.dstMem) (hwd : Memory.wf s.dst = true)
    (hwh : Memory.wf s.hist = true) (hrun : compressRun s = some t) :
    ∃ toks, CanonicalTokens s.src s.srcLen.toNat 0 toks ∧ t.wr = posAt (canonicalString toks).length ∧
      ∀ x, x < 8 * compressCap s.srcLen.toNat → streamBit t.dst x = (canonicalString toks).getD x false := by
  have hc9 : 9 * s.srcLen.toNat + 2 ≤ 8 * compressCap s.srcLen.toNat - 8 := by unfold compressCap; omega
  obtain ⟨m0, e0, w0, b0⟩ := zeroFill_spec (compressCap s.srcLen.toNat) 0
    { s with cap := compressCap s.srcLen.toNat } (by show 0 + _ ≤ s.launch.dstMem; omega)
  obtain ⟨v0, r0⟩ := w0 hwd
  obtain ⟨u, toks, e1, c1, p1, q1⟩ := compressLoop_canonical (n := s.srcLen.toNat) s.srcLen.toNat
    { s with cap := compressCap s.srcLen.toNat, dst := m0, wr := BitPos.first, p := 0 } 0 hsrc
    (by show 9 * s.srcLen.toNat ≤ 8 * s.launch.dstMem; omega) rfl (Nat.zero_le _) (Nat.le_refl _)
    (fun x hx => absurd hx (Nat.not_lt_zero x)) hwh v0 (by show _ ≤ 0 + s.srcLen.toNat; omega)
  obtain ⟨u', o, e1', f1, -, p1', -, ho, hp9, -, -, -, -, -, -, w1, -⟩ :=
    compressLoop_spec (n := s.srcLen.toNat) s.srcLen.toNat
      { s with cap := compressCap s.srcLen.toNat, dst := m0, wr := BitPos.first, p := 0 } 0 hsrc
      (by show 9 * s.srcLen.toNat ≤ 8 * s.launch.dstMem; omega) rfl (Nat.zero_le _) (Nat.le_refl _)
  have hu : u' = u := Option.some.inj (e1'.symm.trans e1)
  subst hu
  obtain ⟨v1, -⟩ := w1 v0
  have ul : u'.launch = s.launch := by rw [f1]; rfl
  rw [Nat.zero_add] at p1
  have hpo : posAt o = posAt (toks.flatMap tokenString).length := p1'.symm.trans p1
  have hoL : o = (toks.flatMap tokenString).length := by
    have := congrArg bitOffset hpo
    rwa [bitOffset_posAt, bitOffset_posAt] at this
  obtain ⟨m2, e2, w2, -⟩ := putBits_spec p1 0 2 (by rw [ul]; omega)
  obtain ⟨-, r2⟩ := w2 v1
  have ht : t = { u' with dst := m2, wr := posAt ((toks.flatMap tokenString).length + 2) } := by
    rw [compressRun, e0, Option.bind_some] at hrun
    rw [e1, Option.bind_some, e2] at hrun
    exact (Option.some.inj hrun).symm
  refine ⟨toks, c1, ?_, fun x hx => ?_⟩
  · rw [ht, canonicalString_length]
  · rw [ht, canonicalString_getD]
    show streamBit m2 x = _
    rw [r2, q1]
    have hz : streamBit m0 x = false := by
      rw [streamBit, r0, if_pos (by omega)]
      simp
    show ((streamBit m0 x || _) || _) = _
    rw [hz]
    simp

/-- The token list depends on the N source bytes alone (42_lzss_compress.md R191). -/
theorem canonicalTokens_congr {src src' : Memory} {n : Nat}
    (h : ∀ a, a < n → Memory.read src a = Memory.read src' a) (toks : List Token) :
    ∀ p, CanonicalTokens src n p toks → CanonicalTokens src' n p toks := by
  have hml : ∀ a p, a < p → matchLength src n a p = matchLength src' n a p := by
    intro a p hap
    unfold matchLength
    congr 2
    funext k
    by_cases hk : p + k < n
    · rw [h (a + k) (by omega), h (p + k) hk]
    · simp [hk]
  have hbest : ∀ p a, IsBestStart src n p a → IsBestStart src' n p a := by
    intro p a ⟨h1, h2⟩
    refine ⟨h1, fun a' ha' => ?_⟩
    rw [← hml _ _ h1.1, ← hml _ _ ha'.1]
    exact h2 a' ha'
  induction toks with
  | nil => exact fun p hp => hp
  | cons tok rest ih =>
    intro p hp
    cases tok with
    | lit v =>
      obtain ⟨h1, h2, h3, h4⟩ := hp
      exact ⟨h1, by rw [h2, h p h1], fun a ha => by rw [← hml _ _ ha.1]; exact h3 a ha, ih _ h4⟩
    | ref e l =>
      obtain ⟨h1, ⟨a, h2, h3, h4⟩, h5⟩ := hp
      exact ⟨h1, ⟨a, hbest _ _ h2, by rw [← hml _ _ h2.1.1]; exact h3, h4⟩, ih _ h5⟩
    | term => exact hp
    | term2 => exact hp

end Sys2Proof.Machine
end

