-- ==== Sys2Proof/Laws/Cipher.lean ====
section
/-! SUPPORT. What the copy aside, one pass, one block and one run of the cipher can do, said once, ending in the closed
form of 43_cipher.md R207. -/

namespace Sys2Proof.Machine

/-- The state with everything a cipher run can touch taken from another. -/
def State.ciphered (s u : State) : State :=
  { s with src := u.src, dst := u.dst, scratch := u.scratch, m := u.m, c := u.c, start := u.start, b := u.b, t := u.t,
           P := u.P }

/-- The processed length never passes the total length (43_cipher.md R201). -/
theorem processedLen_le (len block : Nat) : processedLen len block ≤ len := by
  unfold processedLen
  simp only
  split <;> split <;> omega

/-- The copy aside (43_cipher.md R202): SCRATCH only, the bytes of the space. -/
theorem copyAside_spec (sp : Space) (todo : Nat) : ∀ (a : Nat) (s : State), a + todo ≤ s.size sp →
    ∃ sc, copyAside sp todo a s = some { s with scratch := sc } ∧
      (Memory.wf s.scratch = true → Memory.wf sc = true ∧
        ∀ x, Memory.read sc x = if a ≤ x ∧ x < a + todo then s.byteAt sp x else Memory.read s.scratch x) := by
  induction todo with
  | zero => exact fun a s _ => ⟨s.scratch, rfl, fun h => ⟨h, fun x => by rw [if_neg (by omega)]⟩⟩
  | succ todo ih =>
    intro a s h
    rw [copyAside, memRead_of_lt (by omega), Option.bind_some]
    have hsz : ({ s with scratch := Memory.write s.scratch a (s.byteAt sp a) } : State).size sp = s.size sp := by
      cases sp <;> rfl
    have hby : ∀ x, ({ s with scratch := Memory.write s.scratch a (s.byteAt sp a) } : State).byteAt sp x = s.byteAt sp x := by
      intro x; cases sp <;> rfl
    obtain ⟨sc, e1, w1⟩ := ih (a + 1) { s with scratch := Memory.write s.scratch a (s.byteAt sp a) } (by rw [hsz]; omega)
    refine ⟨sc, e1, fun hw => ?_⟩
    obtain ⟨w, r⟩ := w1 (Memory.write_wf hw _ _)
    refine ⟨w, fun x => ?_⟩
    rw [r, hby]
    have hr : Memory.read (Memory.write s.scratch a (s.byteAt sp a)) x =
        if x = a then s.byteAt sp a else Memory.read s.scratch x := Memory.read_write hw _ _ _
    simp only [hr]
    by_cases hx : x = a
    · subst hx
      rw [if_neg (by omega), if_pos rfl, if_pos (by omega)]
    · by_cases hin : a + 1 ≤ x ∧ x < a + 1 + todo
      · rw [if_pos hin, if_pos (by omega)]
      · rw [if_neg hin, if_neg hx, if_neg (by omega)]

/-- The mask after `n` bytes (43_cipher.md R207). -/
theorem mask_add (m inc : Byte) (n : Nat) :
    m + inc + BitVec.ofNat 8 n * inc = m + BitVec.ofNat 8 (n + 1) * inc := by
  have : BitVec.ofNat 8 (n + 1) = BitVec.ofNat 8 n + 1#8 := by
    apply BitVec.eq_of_toNat_eq
    simp [BitVec.toNat_add]
  rw [this, BitVec.add_mul, BitVec.one_mul, BitVec.add_assoc, BitVec.add_comm inc]

/-- One pass (43_cipher.md R203): `n` transfers between the cursors `c`, `c + 1`, ... and the targets `t`, `t - 2`, ...;
no other byte of the space and no other memory changes. -/
theorem cipherPass_spec (dec : Bool) (sp : Space) (inc : Byte) (n : Nat) : ∀ (s : State),
    s.c + n ≤ s.size sp → s.t < s.size sp → 2 * n ≤ s.t + 2 →
    ∃ mem, cipherPass dec sp inc n s =
        some { s.withMem sp mem with m := s.m + BitVec.ofNat 8 n * inc, t := s.t - 2 * n, c := s.c + n } ∧
      (Memory.wf (s.mem sp) = true → Memory.wf mem = true ∧
        (∀ j, j < n → if dec then
            Memory.read mem (s.t - 2 * j) = Memory.read s.scratch (s.c + j) ^^^ (s.m + BitVec.ofNat 8 j * inc)
          else Memory.read mem (s.c + j) = Memory.read s.scratch (s.t - 2 * j) ^^^ (s.m + BitVec.ofNat 8 j * inc)) ∧
        ∀ y, (∀ j, j < n → y ≠ if dec then s.t - 2 * j else s.c + j) → Memory.read mem y = Memory.read (s.mem sp) y) ∧
      (Memory.below (s.size sp) (s.mem sp) = true → Memory.below (s.size sp) mem = true) := by
  induction n with
  | zero =>
    intro s _ _ _
    refine ⟨s.mem sp, ?_, fun hw => ⟨hw, fun j hj => by omega, fun _ _ => rfl⟩, id⟩
    rw [cipherPass, withMem_self]
    simp
  | succ n ih =>
    intro s hc ht h2
    -- the byte the first transfer writes, and where
    obtain ⟨a, v, ha, hxfer, hav⟩ : ∃ a v, a < s.size sp ∧ s.xfer dec sp = s.memWrite sp a v ∧
        (if dec then a = s.t ∧ v = Memory.read s.scratch s.c ^^^ s.m
         else a = s.c ∧ v = Memory.read s.scratch s.t ^^^ s.m) := by
      cases dec with
      | true => exact ⟨s.t, _, ht, rfl, rfl, rfl⟩
      | false => exact ⟨s.c, _, by omega, rfl, rfl, rfl⟩
    rw [cipherPass, hxfer, memWrite_of_lt _ ha, Option.bind_some]
    generalize hs1 : ({ s.withMem sp (Memory.write (s.mem sp) a v) with
      m := (s.withMem sp (Memory.write (s.mem sp) a v)).m + inc
      t := (s.withMem sp (Memory.write (s.mem sp) a v)).t - 2
      c := (s.withMem sp (Memory.write (s.mem sp) a v)).c + 1 } : State) = s1
    have f1 : s1.size sp = s.size sp := by rw [← hs1]; cases sp <;> rfl
    have f2 : s1.mem sp = Memory.write (s.mem sp) a v := by rw [← hs1]; cases sp <;> rfl
    have f3 : s1.m = s.m + inc := by rw [← hs1]; simp
    have f4 : s1.t = s.t - 2 := by rw [← hs1]; simp
    have f5 : s1.c = s.c + 1 := by rw [← hs1]; simp
    have f6 : s1.scratch = s.scratch := by rw [← hs1]; simp
    have f7 : ∀ mem m0 t0 c0, ({ s1.withMem sp mem with m := m0, t := t0, c := c0 } : State) =
        { s.withMem sp mem with m := m0, t := t0, c := c0 } := by
      intro mem m0 t0 c0; rw [← hs1]; cases sp <;> rfl
    obtain ⟨mem, e1, w1, b1⟩ := ih s1 (by rw [f5, f1]; omega) (by rw [f4, f1]; omega) (by rw [f4]; omega)
    refine ⟨mem, ?_, fun hw => ?_, fun hb => ?_⟩
    · rw [e1, f7, f3, f4, f5, mask_add]
      have e2 : s.t - 2 - 2 * n = s.t - 2 * (n + 1) := by omega
      have e3 : s.c + 1 + n = s.c + (n + 1) := by omega
      rw [e2, e3]
    · obtain ⟨w, r1, r2⟩ := w1 (by rw [f2]; exact Memory.write_wf hw _ _)
      have hkeep : ∀ y, (∀ j, j < n → y ≠ if dec then s.t - 2 * (j + 1) else s.c + (j + 1)) →
          Memory.read mem y = if y = a then v else Memory.read (s.mem sp) y := by
        intro y hy
        rw [r2 y fun j hj => ?_, f2, Memory.read_write hw]
        have := hy j hj
        rw [f4, f5]
        have e2 : s.t - 2 - 2 * j = s.t - 2 * (j + 1) := by omega
        have e3 : s.c + 1 + j = s.c + (j + 1) := by omega
        rwa [e2, e3]
      refine ⟨w, fun j hj => ?_, fun y hy => ?_⟩
      · cases j with
        | zero =>
          cases dec with
          | true =>
            simp only [if_true] at hav hkeep ⊢
            rw [hkeep (s.t - 2 * 0) fun i hi => by omega, if_pos (by rw [hav.1]; omega), hav.2]
            simp
          | false =>
            simp only [Bool.false_eq_true, if_false] at hav hkeep ⊢
            rw [hkeep (s.c + 0) fun i hi => by omega, if_pos (by rw [hav.1]; omega), hav.2]
            simp
        | succ j =>
          have := r1 j (by omega)
          rw [f3, f4, f5, f6, mask_add] at this
          have e2 : s.t - 2 - 2 * j = s.t - 2 * (j + 1) := by omega
          have e3 : s.c + 1 + j = s.c + (j + 1) := by omega
          rwa [e2, e3] at this
      · rw [hkeep y fun j hj => hy (j + 1) (by omega), if_neg]
        have := hy 0 (by omega)
        cases dec with
        | true =>
          simp only [if_true] at hav this
          rw [hav.1]
          simpa using this
        | false =>
          simp only [Bool.false_eq_true, if_false] at hav this
          rw [hav.1]
          simpa using this
    · have := b1 (by rw [f1, f2]; exact Memory.write_below hb ha _)
      rwa [f1] at this

/-! The position map (43_cipher.md R204). -/

theorem targetOffset_lt {b j : Nat} (h : j < b) : targetOffset b j < b := by
  unfold targetOffset; split <;> omega

/-- `T_b` is one to one on `0..b-1` (43_cipher.md R204). -/
theorem targetOffset_inj {b i j : Nat} (hi : i < b) (hj : j < b) (h : targetOffset b i = targetOffset b j) : i = j := by
  unfold targetOffset at h
  split at h <;> split at h <;> omega

/-- `T_b` reaches every offset of `0..b-1` (43_cipher.md R204). -/
theorem targetOffset_surj {b x : Nat} (hx : x < b) : ∃ j, j < b ∧ targetOffset b j = x := by
  by_cases hpar : (b - 1 - x) % 2 = 0
  · refine ⟨(b - 1 - x) / 2, by omega, ?_⟩
    unfold targetOffset
    rw [if_pos (by omega)]
    omega
  · refine ⟨(b + 1) / 2 + (b - 2 - x) / 2, by omega, ?_⟩
    unfold targetOffset
    rw [if_neg (by omega)]
    omega

/-- What a cipher step does to the cursors of `lo .. hi - 1` of a space, against the copy `sc`. -/
def Ciphered (dec : Bool) (layer : Layer) (P : Nat) (sc : Memory) (lo hi : Nat) (before after : Memory) : Prop :=
  (∀ x, lo ≤ x → x < hi →
    if dec then Memory.read after (cipherTarget layer P x) = Memory.read sc x ^^^ maskAt layer x
    else Memory.read after x = Memory.read sc (cipherTarget layer P x) ^^^ maskAt layer x) ∧
  ∀ y, y < lo ∨ hi ≤ y → Memory.read after y = Memory.read before y

theorem maskAt_add (layer : Layer) (c j : Nat) :
    maskAt layer c + BitVec.ofNat 8 j * layer.maskInc = maskAt layer (c + j) := by
  unfold maskAt
  have : BitVec.ofNat 8 (c + j) = BitVec.ofNat 8 c + BitVec.ofNat 8 j := by
    apply BitVec.eq_of_toNat_eq
    simp [BitVec.toNat_add]
  rw [this, BitVec.add_mul, BitVec.add_assoc]

/-- One block (43_cipher.md R203, R204): the cursors of the block pair with the targets of `T_b`; the run's mask moves on
one step a byte. -/
theorem cipherBlock_spec (dec : Bool) (sp : Space) (layer : Layer) {s : State} (hB : 1 ≤ layer.blockSize)
    (hc : s.c < s.P) (hal : s.c % layer.blockSize = 0) (hP : s.P ≤ s.size sp) (hm : s.m = maskAt layer s.c) :
    ∃ mem t0, cipherBlock dec sp layer s = some { s.withMem sp mem with
          m := maskAt layer (s.c + min layer.blockSize (s.P - s.c)), t := t0,
          c := s.c + min layer.blockSize (s.P - s.c), start := s.c, b := min layer.blockSize (s.P - s.c) } ∧
      t0 ≤ s.P ∧
      (Memory.wf (s.mem sp) = true → Memory.wf mem = true ∧
        Ciphered dec layer s.P s.scratch s.c (s.c + min layer.blockSize (s.P - s.c)) (s.mem sp) mem) ∧
      (Memory.below (s.size sp) (s.mem sp) = true → Memory.below (s.size sp) mem = true) := by
  generalize hb : min layer.blockSize (s.P - s.c) = b
  have hb1 : 1 ≤ b := by omega
  have hbP : s.c + b ≤ s.P := by omega
  unfold cipherBlock
  simp only [hb]
  generalize hs0 : ({ s with start := s.c, b := b, t := s.c + b - 1 } : State) = s0
  have g1 : s0.size sp = s.size sp := by rw [← hs0]; cases sp <;> rfl
  have g2 : s0.mem sp = s.mem sp := by rw [← hs0]; cases sp <;> rfl
  have g3 : s0.c = s.c := by rw [← hs0]
  have g4 : s0.t = s.c + b - 1 := by rw [← hs0]
  have g5 : s0.m = maskAt layer s.c := by rw [← hs0]; exact hm
  have g6 : s0.scratch = s.scratch := by rw [← hs0]
  obtain ⟨m1, e1, w1, b1⟩ := cipherPass_spec dec sp layer.maskInc ((b + 1) / 2) s0 (by rw [g3, g1]; omega)
    (by rw [g4, g1]; omega) (by rw [g4]; omega)
  rw [e1, Option.bind_some]
  rw [g3, g4, g5, maskAt_add] at e1 ⊢
  generalize hs1 : ({ s0.withMem sp m1 with
    m := maskAt layer (s.c + (b + 1) / 2)
    t := s.c + b - 1 - 2 * ((b + 1) / 2)
    c := s.c + (b + 1) / 2 } : State) = s1
  have k1 : s1.start = s.c := by rw [← hs1, ← hs0]; simp
  have k2 : s1.b = b := by rw [← hs1, ← hs0]; simp
  have k3 : s1.c = s.c + (b + 1) / 2 := by rw [← hs1]
  have k4 : s1.m = maskAt layer (s.c + (b + 1) / 2) := by rw [← hs1]
  have k5 : s1.scratch = s.scratch := by rw [← hs1, ← hs0]; simp
  have k6 : s1.mem sp = m1 := by rw [← hs1]; cases sp <;> rfl
  have k7 : s1.size sp = s.size sp := by rw [← hs1, ← hs0]; cases sp <;> rfl
  generalize hs2 : ({ s1 with t := s1.start + s1.b - 2 } : State) = s2
  rw [k2]
  have l1 : s2.c = s.c + (b + 1) / 2 := by rw [← hs2]; exact k3
  have l2 : s2.m = maskAt layer (s.c + (b + 1) / 2) := by rw [← hs2]; exact k4
  have l3 : s2.scratch = s.scratch := by rw [← hs2]; exact k5
  have l4 : s2.mem sp = m1 := by rw [← k6, ← hs2]; cases sp <;> rfl
  have l5 : s2.size sp = s.size sp := by rw [← k7, ← hs2]; cases sp <;> rfl
  have l6 : s2.t = s.c + b - 2 := by rw [← hs2, ← k1, ← k2]
  have hhalf : s.c + (b + 1) / 2 + b / 2 = s.c + b := by omega
  obtain ⟨m2, e2, w2, b2⟩ := cipherPass_spec dec sp layer.maskInc (b / 2) s2 (by rw [l1, l5]; omega)
    (by rw [l6, l5]; omega) (by rw [l6]; omega)
  rw [e2]
  rw [l1, l2, l6, maskAt_add, hhalf] at *
  refine ⟨m2, s.c + b - 2 - 2 * (b / 2), ?_, by omega, fun hw => ?_, fun hbl => ?_⟩
  · rw [← hs2, ← hs1, ← hs0]
    cases sp <;> rfl
  · obtain ⟨v1, r1, q1⟩ := w1 (by rw [g2]; exact hw)
    obtain ⟨v2, r2, q2⟩ := w2 (by rw [l4]; exact v1)
    rw [g6] at r1
    rw [g3, g4] at r1 q1
    rw [g5] at r1
    rw [l3] at r2
    rw [l4] at q2
    rw [g2] at q1
    -- the block of a cursor of this block
    have hblk : ∀ j, j < b → cipherTarget layer s.P (s.c + j) = s.c + targetOffset b j := by
      intro j hj
      have hjB : j < layer.blockSize := by omega
      obtain ⟨k, hk⟩ := Nat.dvd_of_mod_eq_zero hal
      have hdiv : (s.c + j) / layer.blockSize * layer.blockSize = s.c := by
        rw [hk, Nat.mul_add_div (by omega), Nat.div_eq_of_lt hjB, Nat.add_zero, Nat.mul_comm]
      have hmod : (s.c + j) % layer.blockSize = j := by
        rw [hk, Nat.mul_add_mod, Nat.mod_eq_of_lt hjB]
      rw [cipherTarget, blockSizeAt, hdiv, hmod, hb]
    refine ⟨v2, fun x hx1 hx2 => ?_, fun y hy => ?_⟩
    · obtain ⟨j, rfl⟩ : ∃ j, x = s.c + j := ⟨x - s.c, by omega⟩
      have hj : j < b := by omega
      rw [hblk j hj]
      cases dec with
      | true =>
        simp only [if_true] at r1 r2 q1 q2 ⊢
        by_cases hfirst : j < (b + 1) / 2
        · have hT : s.c + targetOffset b j = s.c + b - 1 - 2 * j := by
            rw [targetOffset, if_pos hfirst]; omega
          rw [hT, q2 _ fun i hi => by omega, r1 j hfirst, maskAt_add]
        · have hT : s.c + targetOffset b j = s.c + b - 2 - 2 * (j - (b + 1) / 2) := by
            rw [targetOffset, if_neg hfirst]; omega
          have := r2 (j - (b + 1) / 2) (by omega)
          have e3 : s.c + (b + 1) / 2 + (j - (b + 1) / 2) = s.c + j := by omega
          rw [maskAt_add, e3] at this
          rw [hT, this]
      | false =>
        simp only [Bool.false_eq_true, if_false] at r1 r2 q1 q2 ⊢
        by_cases hfirst : j < (b + 1) / 2
        · have hT : s.c + targetOffset b j = s.c + b - 1 - 2 * j := by
            rw [targetOffset, if_pos hfirst]; omega
          rw [hT, q2 _ fun i hi => by omega, r1 j hfirst, maskAt_add]
        · have hT : s.c + targetOffset b j = s.c + b - 2 - 2 * (j - (b + 1) / 2) := by
            rw [targetOffset, if_neg hfirst]; omega
          have := r2 (j - (b + 1) / 2) (by omega)
          have e3 : s.c + (b + 1) / 2 + (j - (b + 1) / 2) = s.c + j := by omega
          rw [maskAt_add, e3] at this
          rw [hT, this]
    · rw [q2 y fun j hj => by split <;> omega, q1 y fun j hj => by split <;> omega]
  · have h1 := b1 (by rw [g1, g2]; exact hbl)
    rw [g1] at h1
    have h2 := b2 (by rw [l4, l5]; exact h1)
    rwa [l5] at h2

/-- A cursor of a block below `P` pairs with a target below `P`, in its own block. -/
theorem cipherTarget_lt {layer : Layer} {P x : Nat} (hB : 1 ≤ layer.blockSize) (hx : x < P) :
    cipherTarget layer P x < P := by
  unfold cipherTarget blockSizeAt
  have h1 : x / layer.blockSize * layer.blockSize ≤ x := Nat.div_mul_le_self _ _
  have h2 := Nat.mod_add_div x layer.blockSize
  have h3 : x % layer.blockSize < layer.blockSize := Nat.mod_lt _ hB
  have h4 : layer.blockSize * (x / layer.blockSize) = x / layer.blockSize * layer.blockSize := Nat.mul_comm _ _
  have := targetOffset_lt (b := min layer.blockSize (P - x / layer.blockSize * layer.blockSize))
    (j := x % layer.blockSize) (by omega)
  omega

/-- The cipher's pairing of cursors and targets is one to one below `P` (43_cipher.md R204). -/
theorem cipherTarget_inj {layer : Layer} {P x y : Nat} (hB : 1 ≤ layer.blockSize) (hx : x < P) (hy : y < P)
    (h : cipherTarget layer P x = cipherTarget layer P y) : x = y := by
  unfold cipherTarget blockSizeAt at h
  have e1 := Nat.mod_add_div x layer.blockSize
  have e2 := Nat.mod_add_div y layer.blockSize
  have m1 : x % layer.blockSize < layer.blockSize := Nat.mod_lt _ hB
  have m2 : y % layer.blockSize < layer.blockSize := Nat.mod_lt _ hB
  have c1 : layer.blockSize * (x / layer.blockSize) = x / layer.blockSize * layer.blockSize := Nat.mul_comm _ _
  have c2 : layer.blockSize * (y / layer.blockSize) = y / layer.blockSize * layer.blockSize := Nat.mul_comm _ _
  have t1 := targetOffset_lt (b := min layer.blockSize (P - x / layer.blockSize * layer.blockSize))
    (j := x % layer.blockSize) (by omega)
  have t2 := targetOffset_lt (b := min layer.blockSize (P - y / layer.blockSize * layer.blockSize))
    (j := y % layer.blockSize) (by omega)
  have hq : x / layer.blockSize = y / layer.blockSize := by
    have a1 := Nat.div_eq_of_lt_le (k := x / layer.blockSize) (n := layer.blockSize)
      (m := x / layer.blockSize * layer.blockSize +
        targetOffset (min layer.blockSize (P - x / layer.blockSize * layer.blockSize)) (x % layer.blockSize))
      (by omega) (by rw [Nat.add_mul]; omega)
    have a2 := Nat.div_eq_of_lt_le (k := y / layer.blockSize) (n := layer.blockSize)
      (m := y / layer.blockSize * layer.blockSize +
        targetOffset (min layer.blockSize (P - y / layer.blockSize * layer.blockSize)) (y % layer.blockSize))
      (by omega) (by rw [Nat.add_mul]; omega)
    rw [← a1, h, a2]
  rw [hq] at h c1 e1 t1
  have := targetOffset_inj (b := min layer.blockSize (P - y / layer.blockSize * layer.blockSize)) (by omega) (by omega)
    (Nat.add_left_cancel h)
  omega

/-- A target below `P` stays in the block of its cursor. -/
theorem cipherTarget_block {layer : Layer} {P x : Nat} (hB : 1 ≤ layer.blockSize) (hx : x < P) :
    x / layer.blockSize * layer.blockSize ≤ cipherTarget layer P x ∧
      cipherTarget layer P x < x / layer.blockSize * layer.blockSize + layer.blockSize := by
  have h1 : x / layer.blockSize * layer.blockSize ≤ x := Nat.div_mul_le_self _ _
  have h2 := Nat.mod_add_div x layer.blockSize
  have h3 : x % layer.blockSize < layer.blockSize := Nat.mod_lt _ hB
  have h4 : layer.blockSize * (x / layer.blockSize) = x / layer.blockSize * layer.blockSize := Nat.mul_comm _ _
  have := targetOffset_lt (b := blockSizeAt layer P x) (j := x % layer.blockSize) (by unfold blockSizeAt; omega)
  unfold cipherTarget
  unfold blockSizeAt at *
  omega

/-- The block loop (43_cipher.md R203): from an aligned cursor it ciphers every cursor up to `P`, given iterations
enough. -/
theorem cipherLoop_spec (dec : Bool) (sp : Space) (layer : Layer) (hB : 1 ≤ layer.blockSize) (fuel : Nat) :
    ∀ (s : State), s.c ≤ s.P → (s.c < s.P → s.c % layer.blockSize = 0) → s.P ≤ s.size sp → s.m = maskAt layer s.c →
      s.P ≤ s.c + fuel →
    ∃ mem t0 m0 st0 b0, cipherLoop dec sp layer fuel s =
        some { s.withMem sp mem with m := m0, t := t0, c := s.P, start := st0, b := b0 } ∧
      (t0 ≤ max s.t s.P ∧ st0 ≤ max s.start s.P ∧ b0 ≤ max s.b s.P) ∧
      (Memory.wf (s.mem sp) = true → Memory.wf mem = true ∧
        Ciphered dec layer s.P s.scratch s.c s.P (s.mem sp) mem) ∧
      (Memory.below (s.size sp) (s.mem sp) = true → Memory.below (s.size sp) mem = true) := by
  induction fuel with
  | zero =>
    intro s hc _ _ _ hf
    have hcP : s.c = s.P := by omega
    refine ⟨s.mem sp, s.t, s.m, s.start, s.b, ?_, by omega, fun hw => ⟨hw, fun x h1 h2 => by omega, fun _ _ => rfl⟩, id⟩
    rw [cipherLoop, withMem_self, ← hcP]
  | succ fuel ih =>
    intro s hc hal hP hm hf
    rw [cipherLoop]
    by_cases hlt : s.c < s.P
    · rw [if_pos hlt]
      obtain ⟨m1, t1, e1, ht1, w1, b1⟩ := cipherBlock_spec dec sp layer hB hlt (hal hlt) hP hm
      rw [e1, Option.bind_some]
      generalize hb : min layer.blockSize (s.P - s.c) = b at *
      generalize hs1 : ({ s.withMem sp m1 with
        m := maskAt layer (s.c + b)
        t := t1
        c := s.c + b
        start := s.c
        b := b } : State) = s1
      have f1 : s1.size sp = s.size sp := by rw [← hs1]; cases sp <;> rfl
      have f2 : s1.mem sp = m1 := by rw [← hs1]; cases sp <;> rfl
      have f3 : s1.c = s.c + b := by rw [← hs1]
      have f4 : s1.P = s.P := by rw [← hs1]; simp
      have f5 : s1.m = maskAt layer (s.c + b) := by rw [← hs1]
      have f6 : s1.scratch = s.scratch := by rw [← hs1]; simp
      have f7 : s1.t = t1 ∧ s1.start = s.c ∧ s1.b = b := by rw [← hs1]; exact ⟨rfl, rfl, rfl⟩
      obtain ⟨m2, t2, mm, st2, b2', e2, bnd, w2, bl2⟩ := ih s1 (by rw [f3, f4]; omega)
        (by
          rw [f3, f4]
          intro h
          have hbB : b = layer.blockSize := by omega
          rw [hbB, Nat.add_mod, hal hlt, Nat.mod_self]
          simp)
        (by rw [f4, f1]; exact hP) (by rw [f5, f3]) (by rw [f3, f4]; omega)
      rw [f4] at e2 bnd
      refine ⟨m2, t2, mm, st2, b2', ?_, by omega, fun hw => ?_, fun hbl => ?_⟩
      · rw [e2, ← hs1]
        cases sp <;> rfl
      · obtain ⟨v1, r1, q1⟩ := w1 hw
        obtain ⟨v2, r2, q2⟩ := w2 (by rw [f2]; exact v1)
        rw [f3, f4] at q2
        rw [f3, f4, f6] at r2
        rw [f2] at q2
        refine ⟨v2, fun x hx1 hx2 => ?_, fun y hy => ?_⟩
        · by_cases hx : x < s.c + b
          · have := r1 x hx1 hx
            cases dec with
            | true =>
              simp only [if_true] at this ⊢
              rw [q2 _ (.inl ?_), this]
              have hbk := cipherTarget_block (P := s.P) hB hx2
              by_cases hfull : b = layer.blockSize
              · obtain ⟨k, hk⟩ := Nat.dvd_of_mod_eq_zero (hal hlt)
                have hdiv : x / layer.blockSize * layer.blockSize = s.c := by
                  have hd : x / layer.blockSize = k := by
                    apply Nat.div_eq_of_lt_le
                    · rw [Nat.mul_comm]; omega
                    · rw [Nat.add_mul, Nat.mul_comm]; omega
                  rw [hd, Nat.mul_comm, hk]
                omega
              · have := cipherTarget_lt hB hx2
                omega
            | false =>
              simp only [Bool.false_eq_true, if_false] at this ⊢
              rw [q2 x (.inl hx), this]
          · exact r2 x (by omega) hx2
        · rw [q2 y (by omega), q1 y (by omega)]
      · have := bl2 (by rw [f1, f2]; exact b1 hbl)
        rwa [f1] at this
    · rw [if_neg hlt]
      have hcP : s.c = s.P := by omega
      refine ⟨s.mem sp, s.t, s.m, s.start, s.b, ?_, by omega, fun hw => ⟨hw, fun x h1 h2 => by omega, fun _ _ => rfl⟩, id⟩
      rw [withMem_self, ← hcP]

/-- One run (43_cipher.md R203, R207): the closed form on the processed prefix of the space, nothing else of the core
but the cipher's own registers. -/
theorem cipherRun_spec (dec : Bool) (sp : Space) {len : Nat} (layer : Layer) {s : State} (hB : 1 ≤ layer.blockSize)
    (hlen : len ≤ s.size sp) :
    ∃ t, cipherRun dec sp len layer s = some t ∧ t = s.ciphered t ∧ t.P = processedLen len layer.blockSize ∧
      t.c = t.P ∧ t.t ≤ max s.t t.P ∧ t.start ≤ max s.start t.P ∧ t.b ≤ max s.b t.P ∧
      (∀ sp', sp' ≠ sp → t.mem sp' = s.mem sp') ∧ Memory.wf t.scratch = true ∧
      (Memory.wf (s.mem sp) = true → Memory.wf (t.mem sp) = true ∧
        CipherRelates dec layer t.P (s.mem sp) (t.mem sp)) ∧
      (Memory.below (s.size sp) (s.mem sp) = true → Memory.below (s.size sp) (t.mem sp) = true) := by
  have hPle := processedLen_le len layer.blockSize
  unfold cipherRun
  generalize hP : processedLen len layer.blockSize = P at *
  simp only
  have hsz : ({ s with P := P, scratch := [] } : State).size sp = s.size sp := by cases sp <;> rfl
  obtain ⟨sc, e1, w1⟩ := copyAside_spec sp P 0 { s with P := P, scratch := [] } (by rw [hsz]; omega)
  obtain ⟨wsc, rsc⟩ := w1 rfl
  rw [e1, Option.bind_some]
  generalize hs1 : ({ s with P := P, scratch := sc, m := layer.baseMask, c := 0 } : State) = s1
  have f1 : s1.size sp = s.size sp := by rw [← hs1]; cases sp <;> rfl
  have f2 : s1.mem sp = s.mem sp := by rw [← hs1]; cases sp <;> rfl
  have f3 : s1.c = 0 := by rw [← hs1]
  have f4 : s1.P = P := by rw [← hs1]
  have f5 : s1.m = layer.baseMask := by rw [← hs1]
  have f6 : s1.scratch = sc := by rw [← hs1]
  have f7 : s1.t = s.t ∧ s1.start = s.start ∧ s1.b = s.b := by rw [← hs1]; exact ⟨rfl, rfl, rfl⟩
  obtain ⟨mem, t0, m0, st0, b0, e2, bnd, w2, b2⟩ := cipherLoop_spec dec sp layer hB P s1 (by rw [f3]; omega)
    (fun _ => by rw [f3]; exact Nat.zero_mod _) (by rw [f4, f1]; omega)
    (by rw [f5, f3]; simp [maskAt]) (by rw [f3, f4]; omega)
  rw [e2]
  rw [f4] at bnd
  obtain ⟨g1, g2, g3⟩ := f7
  rw [g1, g2, g3] at bnd
  have hmem : ({ s1.withMem sp mem with m := m0, t := t0, c := s1.P, start := st0, b := b0 } : State).mem sp = mem := by
    cases sp <;> rfl
  have hPt : ({ s1.withMem sp mem with m := m0, t := t0, c := s1.P, start := st0, b := b0 } : State).P = P := by
    show (s1.withMem sp mem).P = P
    rw [State.withMem_P, f4]
  refine ⟨_, rfl, ?_, hPt, ?_, ?_, ?_, ?_, fun sp' hne => ?_, ?_, fun hw => ?_, fun hb => ?_⟩
  · rw [← hs1]; cases sp <;> rfl
  · rw [hPt]; exact f4
  · rw [hPt]; exact bnd.1
  · rw [hPt]; exact bnd.2.1
  · rw [hPt]; exact bnd.2.2
  · rw [← hs1]
    cases sp <;> cases sp' <;> first | rfl | exact absurd rfl hne
  · show Memory.wf (s1.withMem sp mem).scratch = true
    rw [State.withMem_scratch, f6]; exact wsc
  · rw [hmem, hPt]
    obtain ⟨v, r, q⟩ := w2 (by rw [f2]; exact hw)
    rw [f3, f4] at r q
    rw [f6] at r
    rw [f2] at q
    have hsc : ∀ x, x < P → Memory.read sc x = Memory.read (s.mem sp) x := by
      intro x hx
      rw [rsc, if_pos (by omega)]
      cases sp <;> rfl
    refine ⟨v, fun x hx => ?_, fun x hx => q x (.inr hx)⟩
    have := r x (Nat.zero_le _) hx
    cases dec with
    | true =>
      simp only [if_true] at this ⊢
      rw [this, hsc x hx]
    | false =>
      simp only [Bool.false_eq_true, if_false] at this ⊢
      rw [this, hsc _ (cipherTarget_lt hB hx)]
  · rw [hmem]
    have := b2 (by rw [f1, f2]; exact hb)
    rwa [f1] at this

/-- The ascending cursor reaches every processed offset (43_cipher.md R204). -/
theorem cipherTarget_surj {layer : Layer} {P y : Nat} (hB : 1 ≤ layer.blockSize) (hy : y < P) :
    ∃ x, x < P ∧ cipherTarget layer P x = y := by
  have hinj : Function.Injective (fun x : Fin P => (⟨cipherTarget layer P x, cipherTarget_lt hB x.isLt⟩ : Fin P)) :=
    fun x x' h => Fin.ext (cipherTarget_inj hB x.isLt x'.isLt (by simpa using h))
  obtain ⟨x, hx⟩ := (Finite.injective_iff_surjective.mp hinj) ⟨y, hy⟩
  exact ⟨x, x.isLt, by simpa using congrArg Fin.val hx⟩

/-- A run of one direction after a run of the other gives the bytes back (43_cipher.md R208). -/
theorem relates_inverse {layer : Layer} {P : Nat} (hB : 1 ≤ layer.blockSize) {dec : Bool} {m0 m1 m2 : Memory}
    (h1 : CipherRelates dec layer P m0 m1) (h2 : CipherRelates (!dec) layer P m1 m2) (a : Nat) :
    Memory.read m2 a = Memory.read m0 a := by
  by_cases ha : a < P
  · cases dec with
    | true =>
      have e2 := h2.1 a ha
      have e1 := h1.1 a ha
      simp only [Bool.not_true, Bool.false_eq_true, if_false, if_true] at e1 e2
      rw [e2, e1, BitVec.xor_assoc, BitVec.xor_self, BitVec.xor_zero]
    | false =>
      obtain ⟨x, hx, rfl⟩ := cipherTarget_surj hB ha
      have e2 := h2.1 x hx
      have e1 := h1.1 x hx
      simp only [Bool.not_false, Bool.false_eq_true, if_false, if_true] at e1 e2
      rw [e2, e1, BitVec.xor_assoc, BitVec.xor_self, BitVec.xor_zero]
  · rw [h2.2 a (by omega), h1.2 a (by omega)]

/-- The closed form fixes every byte of the memory after a run (43_cipher.md R207). -/
theorem relates_unique {dec : Bool} {layer : Layer} {P : Nat} (hB : 1 ≤ layer.blockSize) {m m1 m2 : Memory}
    (h1 : CipherRelates dec layer P m m1) (h2 : CipherRelates dec layer P m m2) (x : Nat) :
    Memory.read m1 x = Memory.read m2 x := by
  by_cases hx : x < P
  · cases dec
    · have e1 := h1.1 x hx
      have e2 := h2.1 x hx
      simp only [Bool.false_eq_true, if_false] at e1 e2
      rw [e1, e2]
    · obtain ⟨y, hy, rfl⟩ := cipherTarget_surj hB hx
      have e1 := h1.1 y hy
      have e2 := h2.1 y hy
      simp only [if_true] at e1 e2
      rw [e1, e2]
  · rw [h1.2 x (by omega), h2.2 x (by omega)]

/-- The closed form looks at the memory before a run through its bytes only. -/
theorem CipherRelates.of_read_eq {dec : Bool} {layer : Layer} {P : Nat} {m m' n : Memory}
    (he : ∀ x, Memory.read m x = Memory.read m' x) (h : CipherRelates dec layer P m n) :
    CipherRelates dec layer P m' n := by
  refine ⟨fun x hx => ?_, fun x hx => by rw [h.2 x hx, he]⟩
  have := h.1 x hx
  rw [he, he] at this
  exact this

end Sys2Proof.Machine
end

