-- ==== Sys2Proof/Laws/Tokens.lean ====
section
/-! SUPPORT. What the tokens do: a run of Emits in closed form, the copy loop, and the token the decoder finds. -/

namespace Sys2Proof.Machine

/-- The state after one Emit with room (41_lzss_decompress.md R165), in closed form. -/
def State.emitted (s : State) (v : Byte) : State :=
  { s with
    dst := if s.q < s.dstLen.toNat then Memory.write s.dst s.q v else s.dst
    ovr := s.ovr || !decide (s.q < s.dstLen.toNat)
    hist := Memory.write s.hist (s.q % Config.histSize) v
    q := s.q + 1 }

/-- The state after the bytes of a list are emitted one after another. -/
def State.produced (s : State) (out : List Byte) : State := out.foldl State.emitted s

/-- Emit where DST_LEN does not pass DST_MEM: the one thing it can do. -/
theorem emit_eq {s : State} (h : s.q < s.dstLen.toNat → s.q < s.launch.dstMem) (v : Byte) :
    s.emit v = some (s.emitted v) := by
  unfold State.emit State.emitted
  by_cases hq : s.q < s.dstLen.toNat
  · rw [if_pos hq, memWrite_of_lt (sp := .dst) v (h hq)]
    simp [hq, State.histWrite, State.withMem]
  · simp [hq, State.histWrite]

@[simp] theorem produced_nil (s : State) : s.produced [] = s := rfl

@[simp] theorem produced_cons (s : State) (v : Byte) (out : List Byte) :
    s.produced (v :: out) = (s.emitted v).produced out := rfl

theorem produced_append (s : State) (o1 o2 : List Byte) : s.produced (o1 ++ o2) = (s.produced o1).produced o2 := by
  simp [State.produced, List.foldl_append]

/-- Emitting touches DST, HIST, `q` and `ovr` only. -/
theorem produced_footprint (s : State) (out : List Byte) :
    s.produced out =
      { s with dst := (s.produced out).dst, hist := (s.produced out).hist, q := s.q + out.length,
               ovr := (s.produced out).ovr } := by
  induction out generalizing s with
  | nil => rfl
  | cons v out ih =>
    rw [produced_cons, ih]
    simp only [State.emitted, List.length_cons, State.mk.injEq, true_and, and_true]
    omega

@[simp] theorem produced_q (s : State) (out : List Byte) : (s.produced out).q = s.q + out.length := by
  rw [produced_footprint]

@[simp] theorem produced_launch (s : State) (out : List Byte) : (s.produced out).launch = s.launch := by
  rw [produced_footprint]

@[simp] theorem produced_srcLen (s : State) (out : List Byte) : (s.produced out).srcLen = s.srcLen := by
  rw [produced_footprint]

@[simp] theorem produced_dstLen (s : State) (out : List Byte) : (s.produced out).dstLen = s.dstLen := by
  rw [produced_footprint]

@[simp] theorem produced_src (s : State) (out : List Byte) : (s.produced out).src = s.src := by
  rw [produced_footprint]

@[simp] theorem produced_rd (s : State) (out : List Byte) : (s.produced out).rd = s.rd := by
  rw [produced_footprint]

@[simp] theorem produced_term (s : State) (out : List Byte) : (s.produced out).term = s.term := by
  rw [produced_footprint]

/-- Emits commute with a change of the read engine and of `term`, which they do not read. -/
theorem produced_with_rd_term (s : State) (out : List Byte) (rd : BitPos) (tm : Bool) :
    ({ s with rd := rd, term := tm } : State).produced out = { s.produced out with rd := rd, term := tm } := by
  induction out generalizing s with
  | nil => rfl
  | cons v out ih =>
    have e : ({ s with rd := rd, term := tm } : State).emitted v = { s.emitted v with rd := rd, term := tm } := rfl
    rw [produced_cons, produced_cons, e, ih]

/-- OVERRUN's source: some byte fell at or past DST_LEN (41_lzss_decompress.md R165). -/
theorem produced_ovr (s : State) (out : List Byte) :
    (s.produced out).ovr = (s.ovr || decide (s.dstLen.toNat < s.q + out.length ∧ out ≠ [])) := by
  induction out generalizing s with
  | nil => simp
  | cons v out ih =>
    rw [produced_cons, ih]
    simp only [State.emitted, Bool.or_assoc, List.length_cons, ne_eq, reduceCtorEq, not_false_eq_true, and_true]
    congr 1
    by_cases hq : s.q < s.dstLen.toNat
    · cases out with
      | nil => simp [hq]
      | cons w out =>
        simp only [hq, decide_true, Bool.not_true, Bool.false_or, decide_eq_decide, reduceCtorEq,
          not_false_eq_true, and_true, List.length_cons]
        omega
    · have : s.dstLen.toNat < s.q + (out.length + 1) := by omega
      simp [hq, this]

theorem produced_wf {s : State} (hd : Memory.wf s.dst = true) (hh : Memory.wf s.hist = true) (out : List Byte) :
    Memory.wf (s.produced out).dst = true ∧ Memory.wf (s.produced out).hist = true := by
  induction out generalizing s with
  | nil => exact ⟨hd, hh⟩
  | cons v out ih =>
    rw [produced_cons]
    refine ih ?_ (Memory.write_wf hh _ _)
    simp only [State.emitted]
    split
    · exact Memory.write_wf hd _ _
    · exact hd

theorem produced_below {s : State} (hlen : s.dstLen.toNat ≤ s.launch.dstMem)
    (hd : Memory.below s.launch.dstMem s.dst = true) (hh : Memory.below Config.histSize s.hist = true)
    (out : List Byte) :
    Memory.below s.launch.dstMem (s.produced out).dst = true ∧
      Memory.below Config.histSize (s.produced out).hist = true := by
  induction out generalizing s with
  | nil => exact ⟨hd, hh⟩
  | cons v out ih =>
    rw [produced_cons]
    have e : (s.emitted v).launch = s.launch := rfl
    rw [← e]
    refine ih hlen ?_ (Memory.write_below hh (Nat.mod_lt _ (by decide)) _)
    rw [e]
    simp only [State.emitted]
    split
    · exact Memory.write_below hd (by omega) _
    · exact hd

/-- The bytes stored: those below DST_LEN, in order, and no other byte of DST changes
(41_lzss_decompress.md R165, R173). -/
theorem produced_read_dst {s : State} (hd : Memory.wf s.dst = true) (out : List Byte) (x : Nat) :
    Memory.read (s.produced out).dst x =
      if s.q ≤ x ∧ x < s.q + out.length ∧ x < s.dstLen.toNat then (out[x - s.q]?).getD 0#8
      else Memory.read s.dst x := by
  induction out generalizing s with
  | nil =>
    rw [if_neg (by simp only [List.length_nil]; omega)]
    rfl
  | cons v out ih =>
    rw [produced_cons]
    have hw : Memory.wf (s.emitted v).dst = true := by
      simp only [State.emitted]
      split
      · exact Memory.write_wf hd _ _
      · exact hd
    rw [ih hw]
    have eq : (s.emitted v).q = s.q + 1 := rfl
    have el : (s.emitted v).dstLen = s.dstLen := rfl
    rw [eq, el]
    have er : Memory.read (s.emitted v).dst x =
        if x = s.q ∧ s.q < s.dstLen.toNat then v else Memory.read s.dst x := by
      simp only [State.emitted]
      split
      · rename_i h; rw [Memory.read_write hd]; simp [h]
      · rename_i h; simp [h]
    rw [er]
    simp only [List.length_cons]
    by_cases hx : x = s.q
    · subst hx
      rw [if_neg (by omega)]
      by_cases hq : s.q < s.dstLen.toNat
      · rw [if_pos ⟨rfl, hq⟩, if_pos (by omega)]
        simp
      · rw [if_neg (by omega), if_neg (by omega)]
    · by_cases hin : s.q + 1 ≤ x ∧ x < s.q + 1 + out.length ∧ x < s.dstLen.toNat
      · rw [if_pos hin, if_pos (by omega)]
        have e : x - s.q = (x - (s.q + 1)) + 1 := by omega
        rw [e, List.getElem?_cons_succ]
      · rw [if_neg hin, if_neg (by omega), if_neg (by omega)]

/-- HIST holds the latest byte of each residue (10_state.md R45): the byte at the largest position congruent to the
index, when one was emitted, else what it held. -/
theorem produced_histRead {s : State} (hh : Memory.wf s.hist = true) (out : List Byte) (i : Nat) :
    (∀ x, s.q ≤ x → x < s.q + out.length → s.q + out.length ≤ x + Config.histSize →
        x % Config.histSize = i % Config.histSize → (s.produced out).histRead i = (out[x - s.q]?).getD 0#8) ∧
      ((∀ x, s.q ≤ x → x < s.q + out.length → x % Config.histSize ≠ i % Config.histSize) →
        (s.produced out).histRead i = s.histRead i) := by
  induction out generalizing s with
  | nil => exact ⟨fun x h1 h2 => by simp at h2; omega, fun _ => rfl⟩
  | cons v out ih =>
    have hw : Memory.wf (s.emitted v).hist = true := Memory.write_wf hh _ _
    obtain ⟨ih1, ih2⟩ := ih hw
    have eq : (s.emitted v).q = s.q + 1 := rfl
    have er : (s.emitted v).histRead i =
        if i % Config.histSize = s.q % Config.histSize then v else s.histRead i := by
      simp only [State.emitted, State.histRead]
      exact Memory.read_write hh _ _ _
    rw [eq] at ih1 ih2
    rw [produced_cons]
    constructor
    · intro x h1 h2 h3 h4
      simp only [List.length_cons] at h2 h3
      by_cases hx : x = s.q
      · subst hx
        rw [ih2 fun y hy1 hy2 hy => ?_, er, if_pos h4.symm]
        · simp
        · simp only [Config.histSize] at *
          omega
      · rw [ih1 x (by omega) (by omega) (by omega) h4]
        have e : x - s.q = (x - (s.q + 1)) + 1 := by omega
        rw [e, List.getElem?_cons_succ]
    · intro hno
      rw [ih2 fun y hy1 hy2 => hno y (by omega) (by simp only [List.length_cons]; omega), er,
        if_neg fun h => hno s.q (Nat.le_refl _) (by simp) h.symm]

/-- The copy loop of a REF: it emits `n` bytes, byte `j` read from HIST after the bytes before it were emitted
(41_lzss_decompress.md R164, R166). -/
theorem copyHist_eq (n : Nat) : ∀ (i : Nat) (s : State), s.dstLen.toNat ≤ s.launch.dstMem →
    ∃ out : List Byte, out.length = n ∧ State.copyHist n i s = some (s.produced out) ∧
      ∀ j, j < n → out[j]? = some ((s.produced (out.take j)).histRead (i + j)) := by
  induction n with
  | zero => exact fun i s _ => ⟨[], rfl, rfl, fun j h => absurd h (Nat.not_lt_zero j)⟩
  | succ n ih =>
    intro i s h
    obtain ⟨out, hl, he, ho⟩ := ih (i + 1) (s.emitted (s.histRead i)) h
    refine ⟨s.histRead i :: out, by simp [hl], ?_, ?_⟩
    · rw [State.copyHist, emit_eq (by omega), Option.bind_some, he, produced_cons]
    · intro j hj
      cases j with
      | zero => simp
      | succ j =>
        rw [List.getElem?_cons_succ, ho j (by omega), List.take_succ_cons, produced_cons]
        congr 2
        omega

/-! The decoder. -/

theorem readableBit_past {mem : Memory} {len o : Nat} (h : 8 * len ≤ o) : readableBit mem len o = false := by
  simp [readableBit]; omega

theorem bitField_past {mem : Memory} {len : Nat} (n : Nat) : ∀ o, 8 * len ≤ o → bitField (readableBit mem len) o n = 0 := by
  induction n with
  | zero => exact fun _ _ => rfl
  | succ n ih =>
    intro o h
    simp [bitField, readableBit_past h, ih (o + 1) (by omega)]

theorem skip13_cur_lt (len o : Nat) : (skipBits len 13 (posAt o)).cur < len ↔ o + 13 < 8 * len := by
  rw [skipBits_posAt]
  unfold readEnd
  split
  · rw [posAt_cur]; omega
  · split
    · rw [posAt_cur]; omega
    · rw [posAt_cur]; omega

/-- The decoder, at an offset below the end, finds the token of the stream's bits (30_encoding.md R108). -/
theorem decodeToken_posAt {rd : Nat → Option Byte} {mem : Memory} {len : Nat}
    (hrd : ∀ a, a < len → rd a = some (Memory.read mem a)) {o : Nat} (ho : o < 8 * len) :
    decodeToken rd len (posAt o) = some (tokenAt (readableBit mem len) len o) := by
  have hread : ∀ n o, readBits rd len n (posAt o) =
      some (bitField (readableBit mem len) o n, readEnd len o n) := fun n o => readBits_posAt hrd n o
  have h1 : bitField (readableBit mem len) o 1 = (readableBit mem len o).toNat := by simp [bitField]
  have e1 : readEnd len o 1 = posAt (o + 1) := by rw [readEnd, if_pos (by omega)]
  unfold decodeToken tokenAt
  rw [hread, Option.bind_some, h1, e1]
  cases hb : readableBit mem len o with
  | true =>
    simp only [Bool.toNat_true, if_true]
    rw [hread]
    rfl
  | false =>
    have hs : ((skipBits len Config.idxBits (posAt o)).cur < len) ↔ o + 13 < 8 * len := skip13_cur_lt len o
    have hi : Config.idxBits = 13 := rfl
    have hl : Config.lenBits = 4 := rfl
    simp only [Bool.toNat_false, Nat.zero_ne_one, if_false, Bool.false_eq_true, hs]
    rw [hi, hl, hread, Option.bind_some]
    split
    · rfl
    · obtain ⟨o', h2, _, h4⟩ := readEnd_readEnd len (o + 1) 13 4
      rw [h2, hread, Option.map_some]
      have e : bitField (readableBit mem len) o' 4 = bitField (readableBit mem len) (o + 14) 4 := by
        by_cases hin : o + 1 + 13 ≤ 8 * len
        · rw [h4, if_pos hin]
        · rw [bitField_past 4 (o + 14) (by omega), bitField_past 4 o' (by rw [h4, if_neg hin]; split <;> omega)]
      rw [e]

/-- The token fetched at a read position below the end (41_lzss_decompress.md R160). -/
theorem fetchToken_eq {s : State} (hlen : s.srcLen.toNat ≤ s.launch.srcMem) {o : Nat} (hrd : s.rd = posAt o)
    (ho : o < 8 * s.srcLen.toNat) :
    s.fetchToken = some (tokenAt (readableBit s.src s.srcLen.toNat) s.srcLen.toNat o) := by
  rw [State.fetchToken, hrd]
  exact decodeToken_posAt (fun a ha => memRead_of_lt (sp := .src) (Nat.lt_of_lt_of_le ha hlen)) ho

end Sys2Proof.Machine
end

