-- ==== Sys2Proof/Laws/Decompress.lean ====
section
/-! SUPPORT. What one token and the token loop of DECOMPRESS can do, said once. -/

namespace Sys2Proof

/-- A token takes at least 9 bits. -/
theorem Token.nine_le_width (tok : Token) : 9 ≤ tok.width := by cases tok <;> simp [Token.width]

end Sys2Proof

namespace Sys2Proof.Machine

/-- LIT (41_lzss_decompress.md R163): the read engine 9 bits on, one byte emitted. -/
theorem litRule_eq {s : State} (h : s.q < s.dstLen.toNat → s.q < s.launch.dstMem) (v : Byte) :
    litRule v s = some ((s.skipToken 9).emitted v) :=
  emit_eq (s := s.skipToken 9) h v

/-- A terminator (41_lzss_decompress.md R168): the read engine 14 bits on and `term` set, nothing else. -/
theorem termRule_eq (s : State) : termRule s = some { s.skipToken 14 with term := true } := rfl

/-- REF (41_lzss_decompress.md R164): the read engine 18 bits on, `l + 3` bytes copied. -/
theorem refRule_eq {s : State} (h : s.dstLen.toNat ≤ s.launch.dstMem) {e : BitVec 13} (he : e ≠ 0#13) (l : BitVec 4) :
    ∃ out : List Byte, out.length = l.toNat + 3 ∧ refRule e l s = some ((s.skipToken 18).produced out) ∧
      ∀ j, j < l.toNat + 3 →
        out[j]? = some (((s.skipToken 18).produced (out.take j)).histRead (e.toNat - 1 + j)) := by
  obtain ⟨out, h1, h2, h3⟩ := copyHist_eq (l.toNat + 3) (e.toNat - 1) (s.skipToken 18) h
  exact ⟨out, h1, by rw [refRule, if_neg he]; exact h2, h3⟩

/-- The tokens a decoder can find have a non-zero index in a REF (30_encoding.md R104). -/
theorem tokenAt_ref_ne_zero {bits : Nat → Bool} {len o : Nat} {e : BitVec 13} {l : BitVec 4}
    (h : tokenAt bits len o = .ref e l) : e ≠ 0#13 := by
  unfold tokenAt at h
  split at h
  · simp at h
  · split at h
    · split at h <;> simp at h
    · rename_i hne
      simp only [Token.ref.injEq] at h
      rintro rfl
      apply hne
      have h1 := congrArg BitVec.toNat h.1
      have h2 := bitField_lt bits (o + 1) 13
      simp only [BitVec.toNat_ofNat, Nat.zero_mod] at h1
      omega

/-- Everything a token can do (41_lzss_decompress.md R163, R164, R168): the read engine moves over its bits, it emits
at most 18 bytes, and a terminator emits none and sets `term`. -/
theorem runToken_eq {s : State} (hlen : s.dstLen.toNat ≤ s.launch.dstMem) {o : Nat} (hrd : s.rd = posAt o)
    {tok : Token} (href : ∀ e l, tok = .ref e l → e ≠ 0#13) :
    ∃ out : List Byte, out.length ≤ 18 ∧ (tok.ends = true → out = []) ∧
      runToken tok s =
        some { s.produced out with rd := readEnd s.srcLen.toNat o tok.width, term := s.term || tok.ends } := by
  have hskip : ∀ n, s.skipToken n = { s with rd := readEnd s.srcLen.toNat o n } := by
    intro n
    rw [State.skipToken, hrd, skipBits_posAt]
  cases tok with
  | lit v =>
    refine ⟨[v], by simp, by simp [Token.ends], ?_⟩
    rw [runToken, litRule_eq (by omega), hskip]
    simp [Token.ends, Token.width, State.emitted]
  | ref e l =>
    obtain ⟨out, h1, h2, -⟩ := refRule_eq hlen (href e l rfl) l
    have hl := l.isLt
    refine ⟨out, by omega, by simp [Token.ends], ?_⟩
    rw [runToken, h2, hskip]
    have := produced_with_rd_term s out (readEnd s.srcLen.toNat o 18) s.term
    rw [this]
    simp [Token.ends, Token.width]
  | term => exact ⟨[], by simp, fun _ => rfl, by simp [runToken, termRule_eq, hskip, Token.ends, Token.width]⟩
  | term2 => exact ⟨[], by simp, fun _ => rfl, by simp [runToken, termRule_eq, hskip, Token.ends, Token.width]⟩

/-- The loop's state after some tokens: bytes emitted, the read engine moved, `term` maybe set. -/
def State.decoded (s : State) (out : List Byte) (o : Nat) (tm : Bool) : State :=
  { s.produced out with rd := posAt o, term := tm }

/-- One iteration of the loop (41_lzss_decompress.md R171): the exhaustion test, then the token at the read position,
run as its own meaning. -/
theorem decompressLoop_succ {s : State} (hsrc : s.srcLen.toNat ≤ s.launch.srcMem) {o : Nat} (hrd : s.rd = posAt o)
    (n : Nat) :
    decompressLoop (n + 1) s =
      if 8 * s.srcLen.toNat ≤ o then some s
      else (runToken (tokenAt (readableBit s.src s.srcLen.toNat) s.srcLen.toNat o) s).bind fun s' =>
        if s'.term then some s' else decompressLoop n s' := by
  rw [decompressLoop]
  have hc : s.rd.cur = o / 8 := by rw [hrd]; rfl
  by_cases h : 8 * s.srcLen.toNat ≤ o
  · rw [if_pos h, if_pos (by omega)]
  · rw [if_neg h, if_neg (by omega), fetchToken_eq hsrc hrd (by omega), Option.bind_some]

/-- The token loop (41_lzss_decompress.md R171, R172): it never leaves the memories, it emits a list of bytes bounded
by the bits left, and, given iterations enough, it ends on a terminator or on an exhausted source. -/
theorem decompressLoop_spec (n : Nat) : ∀ (s : State) (o : Nat), s.srcLen.toNat ≤ s.launch.srcMem →
    s.dstLen.toNat ≤ s.launch.dstMem → s.rd = posAt o → o ≤ 8 * s.srcLen.toNat → s.term = false →
    ∃ out o' tm, decompressLoop n s = some (s.decoded out o' tm) ∧ o ≤ o' ∧ o' ≤ 8 * s.srcLen.toNat ∧
      out.length ≤ 18 * ((8 * s.srcLen.toNat - o + 8) / 9) ∧
      (8 * s.srcLen.toNat ≤ o + n → tm = true ∨ o' = 8 * s.srcLen.toNat) := by
  induction n with
  | zero =>
    intro s o _ _ hrd ho htm
    refine ⟨[], o, false, ?_, Nat.le_refl _, ho, by simp, fun h => .inr (by omega)⟩
    simp only [decompressLoop, State.decoded, produced_nil, ← hrd, ← htm]
  | succ n ih =>
    intro s o hsrc hdst hrd ho htm
    rw [decompressLoop_succ hsrc hrd]
    by_cases h : 8 * s.srcLen.toNat ≤ o
    · rw [if_pos h]
      refine ⟨[], o, false, ?_, Nat.le_refl _, ho, by simp, fun _ => .inr (by omega)⟩
      simp only [State.decoded, produced_nil, ← hrd, ← htm]
    · rw [if_neg h]
      obtain ⟨out1, hl1, he1, hr1⟩ := runToken_eq hdst hrd
        (tok := tokenAt (readableBit s.src s.srcLen.toNat) s.srcLen.toNat o) fun e l heq => tokenAt_ref_ne_zero heq
      generalize htok : tokenAt (readableBit s.src s.srcLen.toNat) s.srcLen.toNat o = tok at *
      rw [hr1, Option.bind_some]
      have hw := tok.nine_le_width
      obtain ⟨o1, ho1, hlo, hhi⟩ : ∃ o1, readEnd s.srcLen.toNat o tok.width = posAt o1 ∧
          (o1 = 8 * s.srcLen.toNat ∨ o + 9 ≤ o1) ∧ o + 1 ≤ o1 ∧ o1 ≤ 8 * s.srcLen.toNat := by
        unfold readEnd
        split
        · exact ⟨_, rfl, by omega, by omega, by omega⟩
        · exact ⟨_, rfl, by omega, by omega, by omega⟩
      rw [ho1]
      cases hends : tok.ends with
      | true =>
        refine ⟨out1, o1, true, by simp [htm, State.decoded], by omega, by omega, ?_, fun _ => .inl rfl⟩
        rw [he1 hends]
        simp
      | false =>
        obtain ⟨out2, o2, tm2, h2, h3, h4, h5, h6⟩ :=
          ih { s.produced out1 with rd := posAt o1, term := false } o1 (by simpa using hsrc) (by simpa using hdst) rfl
            (by simpa using hhi.2) rfl
        simp only [produced_srcLen] at h4 h5 h6
        refine ⟨out1 ++ out2, o2, tm2, ?_, by omega, h4, ?_, fun hn => h6 (by omega)⟩
        · simp only [htm, Bool.or_self, Bool.false_eq_true, if_false]
          rw [h2]
          simp only [State.decoded]
          rw [produced_with_rd_term, produced_append]
        · rw [List.length_append]
          rcases hlo with hlo | hlo
          · rw [hlo] at h5
            simp at h5
            simp only [h5, List.length_nil]
            omega
          · omega

/-- `Decompress(len)` (41_lzss_decompress.md R171): what it leaves, with the bytes it produced as a list. -/
theorem decompressRun_spec {s : State} (hsrc : s.srcLen.toNat ≤ s.launch.srcMem)
    (hdst : s.dstLen.toNat ≤ s.launch.dstMem) :
    ∃ out o tm, decompressLoop (8 * s.srcLen.toNat) (decompressInit s) = some ((decompressInit s).decoded out o tm) ∧
      decompressRun s = some { (decompressInit s).decoded out o tm with
        status := decompressStatus s.status tm (decide (s.dstLen.toNat < out.length)) } ∧
      o ≤ 8 * s.srcLen.toNat ∧ out.length ≤ 18 * ((8 * s.srcLen.toNat + 8) / 9) ∧
      (tm = true ∨ o = 8 * s.srcLen.toNat) := by
  obtain ⟨out, o, tm, h1, -, h3, h4, h5⟩ := decompressLoop_spec (8 * s.srcLen.toNat) (decompressInit s) 0 hsrc hdst rfl
    (Nat.zero_le _) rfl
  refine ⟨out, o, tm, h1, ?_, h3, h4, h5 (by simp [decompressInit])⟩
  rw [decompressRun, h1, Option.map_some]
  have hq : (decompressInit s).q = 0 := rfl
  have ho : (decompressInit s).ovr = false := rfl
  have hd : (decompressInit s).dstLen = s.dstLen := rfl
  have hst : ((decompressInit s).decoded out o tm).status = s.status := by
    rw [State.decoded, produced_footprint]; rfl
  have htm : ((decompressInit s).decoded out o tm).term = tm := rfl
  have hov : ((decompressInit s).decoded out o tm).ovr = decide (s.dstLen.toNat < out.length) := by
    show ((decompressInit s).produced out).ovr = _
    rw [produced_ovr, hq, ho, hd]
    cases out with
    | nil => simp
    | cons v out => simp
  simp only [hst, htm, hov]

/-- DECOMPRESS's rule answers a state wherever its checks pass (41_lzss_decompress.md R172, 60_exceptions.md R242). -/
theorem decompressRun_total {s : State} (hsrc : s.srcLen.toNat ≤ s.launch.srcMem)
    (hdst : s.dstLen.toNat ≤ s.launch.dstMem) : ∃ t, decompressRun s = some t := by
  obtain ⟨out, o, tm, -, h, -⟩ := decompressRun_spec hsrc hdst
  exact ⟨_, h⟩

/-- Past `ceil(bits / 9)` iterations the count of the loop no longer matters (41_lzss_decompress.md R172). -/
theorem decompressLoop_stable (n : Nat) : ∀ (s : State) (o k : Nat), s.srcLen.toNat ≤ s.launch.srcMem →
    s.dstLen.toNat ≤ s.launch.dstMem → s.rd = posAt o → 8 * s.srcLen.toNat - o ≤ 9 * n → n ≤ k →
    decompressLoop k s = decompressLoop n s := by
  induction n with
  | zero =>
    intro s o k hs hd hr ho _
    cases k with
    | zero => rfl
    | succ k =>
      rw [decompressLoop_succ hs hr, if_pos (by omega)]
      rfl
  | succ n ih =>
    intro s o k hs hd hr ho hk
    obtain ⟨k, rfl⟩ : ∃ k', k = k' + 1 := ⟨k - 1, by omega⟩
    rw [decompressLoop_succ hs hr, decompressLoop_succ hs hr]
    by_cases h : 8 * s.srcLen.toNat ≤ o
    · rw [if_pos h, if_pos h]
    · rw [if_neg h, if_neg h]
      obtain ⟨out, h1, h2, h3⟩ := runToken_eq hd hr
        (tok := tokenAt (readableBit s.src s.srcLen.toNat) s.srcLen.toNat o) fun e l heq => tokenAt_ref_ne_zero heq
      rw [h3, Option.bind_some, Option.bind_some]
      split
      · rfl
      · have hw := (tokenAt (readableBit s.src s.srcLen.toNat) s.srcLen.toNat o).nine_le_width
        obtain ⟨o1, ho1, hlo⟩ : ∃ o1, readEnd s.srcLen.toNat o
            (tokenAt (readableBit s.src s.srcLen.toNat) s.srcLen.toNat o).width = posAt o1 ∧
            (o1 = 8 * s.srcLen.toNat ∨ o + 9 ≤ o1) := by
          unfold readEnd
          split
          · exact ⟨_, rfl, by omega⟩
          · exact ⟨_, rfl, by omega⟩
        refine ih _ o1 k (by simpa using hs) (by simpa using hd) ho1 ?_ (by omega)
        show 8 * (s.produced out).srcLen.toNat - o1 ≤ 9 * n
        rw [produced_srcLen]
        omega

end Sys2Proof.Machine
end

