-- ==== Sys2Proof/Laws/History.lean ====
section
/-! SUPPORT. HIST as a function of the bytes produced (10_state.md R45), and the token loop as a function of the stream's
bits (41_lzss_decompress.md R171): the circular history and the stored output against a plain list of bytes. -/

namespace Sys2Proof.Machine

theorem histRead_mod (s : State) (i : Nat) : s.histRead (i % Config.histSize) = s.histRead i := by
  simp [State.histRead]

/-- Where the history agrees with the bytes produced, reading it is `histAfter`. -/
theorem histRead_eq_histAfter {s : State} {out : List Byte} (h : HistHolds s out) (i : Nat) :
    s.histRead i = histAfter s.launch.histInit out i := by
  obtain ⟨-, h1, h2⟩ := h
  have hs : Config.histSize = 8192 := rfl
  have hi : i % Config.histSize < Config.histSize := Nat.mod_lt _ (by decide)
  unfold histAfter
  by_cases hlt : i % Config.histSize < out.length
  · rw [if_pos hlt]
    have hr := Nat.mod_lt (out.length - 1 - i % Config.histSize) (show Config.histSize > 0 by decide)
    rw [← h1 _ (by omega) (by omega), ← histRead_mod s i, ← histRead_mod s (_ - _)]
    congr 1
    simp only [hs] at hlt hr ⊢
    omega
  · rw [if_neg hlt, ← histRead_mod]
    exact h2 _ hi (by omega)

/-- The start of DECOMPRESS (10_state.md R54): nothing produced, every entry its start value. -/
theorem histHolds_decompressInit (s : State) : HistHolds (decompressInit s) [] :=
  ⟨rfl, fun x hx => absurd hx (by simp), fun i hi _ => by
    show Memory.read s.launch.histInit (i % Config.histSize) = _
    rw [Nat.mod_eq_of_lt hi]; rfl⟩

/-- HistHolds looks at HIST, the count and HIST_INIT only. -/
theorem HistHolds.congr {s t : State} {out : List Byte} (h : HistHolds s out) (hh : t.hist = s.hist) (hq : t.q = s.q)
    (hl : t.launch = s.launch) : HistHolds t out := by
  obtain ⟨h0, h1, h2⟩ := h
  refine ⟨by rw [hq, h0], fun x a b => ?_, fun i a b => ?_⟩
  · rw [← h1 x a b, State.histRead, State.histRead, hh]
  · rw [hl, ← h2 i a b, State.histRead, State.histRead, hh]

/-- Producing bytes keeps the agreement (10_state.md R45). -/
theorem histHolds_produced {s : State} {out0 : List Byte} (h : HistHolds s out0) (hw : Memory.wf s.hist = true)
    (out : List Byte) : HistHolds (s.produced out) (out0 ++ out) := by
  obtain ⟨hq, h1, h2⟩ := h
  have hs : Config.histSize = 8192 := rfl
  refine ⟨by rw [produced_q, hq, List.length_append], fun x hx hL => ?_, fun i hi hL => ?_⟩
  · rw [List.length_append] at hx hL
    by_cases hxq : x < out0.length
    · rw [(produced_histRead hw out x).2 fun x' a b => by simp only [hs] at hL ⊢; omega, h1 x hxq (by omega)]
      simp [List.getD_eq_getElem?_getD, List.getElem?_append_left hxq]
    · rw [(produced_histRead hw out x).1 x (by omega) (by omega) (by omega) rfl, hq]
      simp [List.getD_eq_getElem?_getD, List.getElem?_append_right (Nat.le_of_not_lt hxq)]
  · rw [List.length_append] at hL
    rw [(produced_histRead hw out i).2 fun x' a b => by simp only [hs] at hi ⊢; omega, produced_launch]
    exact h2 i hi (by omega)

theorem copiedBytes_length (init : Memory) (n : Nat) : ∀ (out : List Byte) (r : Nat),
    (copiedBytes init out r n).length = n := by
  induction n with
  | zero => intro _ _; rfl
  | succ n ih => intro out r; simp [copiedBytes, ih]

/-- The copy loop of a REF (41_lzss_decompress.md R164, R166), each byte looked up in the bytes produced so far. -/
theorem copyHist_copied (n : Nat) : ∀ (i : Nat) (s : State) (out0 : List Byte), s.dstLen.toNat ≤ s.launch.dstMem →
    HistHolds s out0 → Memory.wf s.hist = true →
    State.copyHist n i s = some (s.produced (copiedBytes s.launch.histInit out0 i n)) := by
  induction n with
  | zero => intro i s out0 _ _ _; rfl
  | succ n ih =>
    intro i s out0 hd hh hw
    have hw1 : Memory.wf (s.emitted (s.histRead i)).hist = true := Memory.write_wf hw _ _
    have hh1 : HistHolds (s.emitted (s.histRead i)) (out0 ++ [s.histRead i]) := by
      have := histHolds_produced hh hw [s.histRead i]
      simpa using this
    rw [State.copyHist, emit_eq (fun hlt => by omega), Option.bind_some,
      ih (i + 1) (s.emitted (s.histRead i)) (out0 ++ [s.histRead i]) hd hh1 hw1, copiedBytes, produced_cons,
      histRead_eq_histAfter hh i]
    rfl

/-- One token (41_lzss_decompress.md R160 to R168), as the bytes `tokenBytes` gives it. -/
theorem runToken_tokenBytes {s : State} (hd : s.dstLen.toNat ≤ s.launch.dstMem) {o : Nat} (hrd : s.rd = posAt o)
    {tok : Token} (href : ∀ e l, tok = .ref e l → e ≠ 0#13) {out0 : List Byte} (hh : HistHolds s out0)
    (hw : Memory.wf s.hist = true) :
    runToken tok s = some { s.produced (tokenBytes s.launch.histInit out0 tok) with
      rd := readEnd s.srcLen.toNat o tok.width, term := s.term || tok.ends } := by
  have hskip : ∀ n, s.skipToken n = { s with rd := readEnd s.srcLen.toNat o n } := by
    intro n
    rw [State.skipToken, hrd, skipBits_posAt]
  cases tok with
  | lit v =>
    rw [runToken, litRule_eq (by omega), hskip]
    simp [Token.ends, Token.width, State.emitted, tokenBytes]
  | ref e l =>
    have hh1 : HistHolds ({ s with rd := readEnd s.srcLen.toNat o 18 } : State) out0 := hh.congr rfl rfl rfl
    have h1 := copyHist_copied (l.toNat + Config.minMatch) (e.toNat - 1)
      ({ s with rd := readEnd s.srcLen.toNat o 18 } : State) out0 hd hh1 hw
    rw [runToken, refRule, if_neg (href e l rfl), hskip, h1]
    have := produced_with_rd_term s (copiedBytes s.launch.histInit out0 (e.toNat - 1) (l.toNat + Config.minMatch))
      (readEnd s.srcLen.toNat o 18) s.term
    simp only [tokenBytes, Token.width, Token.ends, Bool.or_false]
    rw [← this]
  | term => simp [runToken, termRule_eq, hskip, Token.ends, Token.width, tokenBytes]
  | term2 => simp [runToken, termRule_eq, hskip, Token.ends, Token.width, tokenBytes]

/-- The bits past the end of the stream make no difference to the output once every bit is read. -/
theorem streamOutput_past (init : Memory) (bits : Nat → Bool) (len n o : Nat) (out : List Byte) (h : 8 * len ≤ o) :
    streamOutput init bits len n o out = (out, false) := by
  cases n with
  | zero => rfl
  | succ n => rw [streamOutput, if_pos h]

/-- The token loop (41_lzss_decompress.md R171) against the reference: the bytes and the terminator are
`streamOutput`'s. -/
theorem decompressLoop_streamOutput (n : Nat) : ∀ (s : State) (o : Nat) (out0 : List Byte),
    s.srcLen.toNat ≤ s.launch.srcMem → s.dstLen.toNat ≤ s.launch.dstMem → s.rd = posAt o → s.term = false →
    HistHolds s out0 → Memory.wf s.hist = true →
    ∃ out o', decompressLoop n s = some (s.decoded out o'
        (streamOutput s.launch.histInit (readableBit s.src s.srcLen.toNat) s.srcLen.toNat n o out0).2) ∧
      out0 ++ out = (streamOutput s.launch.histInit (readableBit s.src s.srcLen.toNat) s.srcLen.toNat n o out0).1 := by
  induction n with
  | zero =>
    intro s o out0 _ _ hrd htm _ _
    refine ⟨[], o, ?_, by simp [streamOutput]⟩
    simp only [decompressLoop, State.decoded, produced_nil, streamOutput, ← hrd, ← htm]
  | succ n ih =>
    intro s o out0 hsrc hdst hrd htm hh hw
    rw [decompressLoop_succ hsrc hrd]
    by_cases h : 8 * s.srcLen.toNat ≤ o
    · rw [if_pos h]
      refine ⟨[], o, ?_, by rw [streamOutput, if_pos h]; simp⟩
      rw [streamOutput, if_pos h]
      simp only [State.decoded, produced_nil, ← hrd, ← htm]
    · rw [if_neg h, runToken_tokenBytes hdst hrd (fun e l heq => tokenAt_ref_ne_zero heq) hh hw, Option.bind_some,
        streamOutput, if_neg h]
      generalize htok : tokenAt (readableBit s.src s.srcLen.toNat) s.srcLen.toNat o = tok
      have hw9 := tok.nine_le_width
      cases hends : tok.ends with
      | true =>
        obtain ⟨o1, ho1⟩ : ∃ o1, readEnd s.srcLen.toNat o tok.width = posAt o1 := by
          unfold readEnd; split
          · exact ⟨_, rfl⟩
          · exact ⟨_, rfl⟩
        refine ⟨[], o1, ?_, by simp⟩
        have hnil : tokenBytes s.launch.histInit out0 tok = [] := by
          cases tok <;> first | rfl | cases hends
        simp [hnil, ho1, State.decoded, htm]
      | false =>
        simp only [htm, Bool.or_self, Bool.false_eq_true, if_false]
        generalize hb : tokenBytes s.launch.histInit out0 tok = new
        by_cases hfit : o + tok.width ≤ 8 * s.srcLen.toNat
        · rw [show readEnd s.srcLen.toNat o tok.width = posAt (o + tok.width) by rw [readEnd, if_pos hfit]]
          obtain ⟨out, o', e1, e2⟩ := ih { s.produced new with rd := posAt (o + tok.width), term := false }
            (o + tok.width) (out0 ++ new) (by simpa using hsrc) (by simpa using hdst) rfl rfl
            ((histHolds_produced hh hw new).congr rfl rfl rfl)
            (by
              show Memory.wf (s.produced new).hist = true
              have : ∀ (l : List Byte) (u : State), Memory.wf u.hist = true → Memory.wf (u.produced l).hist = true := by
                intro l
                induction l with
                | nil => intro u hu; exact hu
                | cons v l ihl => intro u hu; rw [produced_cons]; exact ihl _ (Memory.write_wf hu _ _)
              exact this new s hw)
          have f1 : ({ s.produced new with rd := posAt (o + tok.width), term := false } : State).launch = s.launch :=
            produced_launch s new
          have f2 : ({ s.produced new with rd := posAt (o + tok.width), term := false } : State).src = s.src :=
            produced_src s new
          have f3 : ({ s.produced new with rd := posAt (o + tok.width), term := false } : State).srcLen = s.srcLen :=
            produced_srcLen s new
          generalize hg : ({ s.produced new with rd := posAt (o + tok.width), term := false } : State) = u at *
          rw [f1, f2, f3] at e1 e2
          refine ⟨new ++ out, o', ?_, by rw [← List.append_assoc]; exact e2⟩
          rw [e1, ← hg]
          simp only [State.decoded]
          rw [produced_with_rd_term, produced_append]
        · rw [streamOutput_past _ _ _ _ _ _ (by omega)]
          rw [show readEnd s.srcLen.toNat o tok.width = posAt (8 * s.srcLen.toNat) by
            rw [readEnd, if_neg hfit, if_neg h]]
          refine ⟨new, 8 * s.srcLen.toNat, ?_, rfl⟩
          have hx : ∀ k, decompressLoop k ({ s.produced new with rd := posAt (8 * s.srcLen.toNat), term := false } : State) =
              some { s.produced new with rd := posAt (8 * s.srcLen.toNat), term := false } := by
            intro k
            cases k with
            | zero => rfl
            | succ k =>
              rw [decompressLoop_succ (by simpa using hsrc) rfl]
              simp
          rw [hx]
          rfl

end Sys2Proof.Machine
end

