-- ==== Sys2Proof/Laws/Fidelity.lean ====
section
/-! SUPPORT. A canonical stream decodes to its source (41_lzss_decompress.md R174, R175): the reference decoder of plain
lists against the token list of the search rules. -/

namespace Sys2Proof.Machine

/-- A history entry of a produced position still in the window (10_state.md R45). -/
theorem histAfter_of_recent {init : Memory} {out : List Byte} {i x : Nat} (hx : x < out.length)
    (hw : out.length ≤ x + Config.histSize) (hi : i % Config.histSize = x % Config.histSize) :
    histAfter init out i = out.getD x 0#8 := by
  have hz : Config.histSize = 8192 := rfl
  simp only [histAfter, hz] at hw hi ⊢
  rw [if_pos (by omega)]
  congr 1
  omega

/-- The first `p` bytes of a memory. -/
def sourcePrefix (src : Memory) (p : Nat) : List Byte := (List.range p).map (Memory.read src)

@[simp] theorem sourcePrefix_length (src : Memory) (p : Nat) : (sourcePrefix src p).length = p := by simp [sourcePrefix]

theorem sourcePrefix_getD {src : Memory} {p x : Nat} (h : x < p) : (sourcePrefix src p).getD x 0#8 = Memory.read src x := by
  simp [sourcePrefix, List.getD_eq_getElem?_getD, h]

theorem sourcePrefix_succ (src : Memory) (p : Nat) :
    sourcePrefix src (p + 1) = sourcePrefix src p ++ [Memory.read src p] := by
  simp [sourcePrefix, List.range_succ]

/-- The bytes of a match agree (42_lzss_compress.md R183), and the match stays in the source (R190). -/
theorem matchLength_agrees {src : Memory} {n a p k : Nat} (h : k < matchLength src n a p) :
    p + k < n ∧ Memory.read src (a + k) = Memory.read src (p + k) := by
  have := (takeWhile_range_spec (fun k => decide (p + k < n) && (Memory.read src (a + k) == Memory.read src (p + k))) 18).2.1 k h
  simpa using this

/-- A REF copies the source bytes its match stands for (41_lzss_decompress.md R164, R166). -/
theorem copiedBytes_match {src init : Memory} {a : Nat} (m : Nat) : ∀ (p r : Nat), a < p → p ≤ a + Config.histSize →
    r % Config.histSize = a % Config.histSize → (∀ k, k < m → Memory.read src (a + k) = Memory.read src (p + k)) →
    sourcePrefix src p ++ copiedBytes init (sourcePrefix src p) r m = sourcePrefix src (p + m) := by
  induction m generalizing a with
  | zero => intro p r _ _ _ _; simp [copiedBytes]
  | succ m ih =>
    intro p r ha hw hr hagree
    have hv : histAfter init (sourcePrefix src p) r = Memory.read src p := by
      rw [histAfter_of_recent (x := a) (by simpa using ha) (by simpa using hw) hr, sourcePrefix_getD ha]
      simpa using hagree 0 (by omega)
    rw [copiedBytes, hv, ← sourcePrefix_succ, List.append_cons, ← sourcePrefix_succ,
      ih (a := a + 1) (p + 1) (r + 1) (by omega) (by omega) (by rw [Nat.add_mod, hr, ← Nat.add_mod])
        fun k hk => by
          have := hagree (k + 1) (by omega)
          rwa [show a + (k + 1) = a + 1 + k by omega, show p + (k + 1) = p + 1 + k by omega] at this]
    congr 1; omega

/-- A bit field of a stream that spells a bit string there. -/
theorem bitField_bitString {bits : Nat → Bool} {o v n : Nat} (hv : v < 2 ^ n)
    (h : ∀ i, i < n → bits (o + i) = v.testBit (n - 1 - i)) : bitField bits o n = v := by
  apply Nat.eq_of_testBit_eq
  intro i
  rw [bitField_testBit]
  by_cases hi : i < n
  · rw [decide_eq_true hi, h (n - 1 - i) (by omega)]
    simp only [Bool.true_and]
    congr 1; omega
  · rw [decide_eq_false hi, Nat.testBit_lt_two_pow (Nat.lt_of_lt_of_le hv (Nat.pow_le_pow_right (by omega) (by omega)))]
    rfl

/-- A LIT in a stream is decoded as that LIT (30_encoding.md R103, R108). -/
theorem tokenAt_lit {bits : Nat → Bool} {len o : Nat} {v : Byte}
    (h : ∀ i, i < 9 → bits (o + i) = (tokenString (.lit v)).getD i false) : tokenAt bits len o = .lit v := by
  have h0 : bits o = true := h 0 (by omega)
  have h1 : bitField bits (o + 1) 8 = v.toNat := bitField_bitString v.isLt fun i hi => by
    have := h (i + 1) (by omega)
    rw [tokenString, List.getD_cons_succ, bitString_getD, decide_eq_true hi] at this
    rw [show o + 1 + i = o + (i + 1) by omega, this, Bool.true_and]
  rw [tokenAt, if_pos h0, h1]
  simp

/-- A REF in a stream is decoded as that REF (30_encoding.md R104, R108). -/
theorem tokenAt_ref {bits : Nat → Bool} {len o : Nat} {e : BitVec 13} {l : BitVec 4} (he : e ≠ 0#13)
    (h : ∀ i, i < 18 → bits (o + i) = (tokenString (.ref e l)).getD i false) : tokenAt bits len o = .ref e l := by
  have h0 : bits o = false := h 0 (by omega)
  have h1 : bitField bits (o + 1) 13 = e.toNat := bitField_bitString e.isLt fun i hi => by
    have := h (i + 1) (by omega)
    rw [tokenString, List.getD_cons_succ, getD_append, bitString_length, if_pos hi, bitString_getD, decide_eq_true hi]
      at this
    rw [show o + 1 + i = o + (i + 1) by omega, this, Bool.true_and]
  have h2 : bitField bits (o + 14) 4 = l.toNat := bitField_bitString l.isLt fun i hi => by
    have := h (i + 14) (by omega)
    rw [tokenString, List.getD_cons_succ, getD_append, bitString_length, if_neg (by omega), bitString_getD,
      decide_eq_true (by omega)] at this
    rw [show o + 14 + i = o + (i + 14) by omega, this, Bool.true_and, Nat.add_sub_cancel]
  have hne : ¬ e.toNat = 0 := fun hc => he (by apply BitVec.eq_of_toNat_eq; simpa using hc)
  rw [tokenAt, h0, if_neg (by simp), h1, h2, if_neg hne]
  simp

/-- Fourteen zero bits are a terminator (41_lzss_decompress.md R168, R175). -/
theorem tokenAt_zeros {bits : Nat → Bool} {len o : Nat} (h : ∀ i, i < 14 → bits (o + i) = false) :
    (tokenAt bits len o).ends = true := by
  have h0 : bits o = false := h 0 (by omega)
  have h1 : bitField bits (o + 1) 13 = 0 := bitField_bitString (by decide) fun i hi => by
    rw [show o + 1 + i = o + (i + 1) by omega, h (i + 1) (by omega)]
    simp
  rw [tokenAt, h0, if_neg (by simp), h1, if_pos rfl]
  split <;> rfl

/-- The canonical tokens of a source, decoded, give the source back and end on a terminator, whatever HIST_INIT is
(41_lzss_decompress.md R174, R175). The stream is zero past its tokens, and its length covers the terminator's bits. -/
theorem streamOutput_canonical {src init : Memory} {n len : Nat} {bits : Nat → Bool} (toks : List Token) :
    ∀ (p o fuel : Nat), CanonicalTokens src n p toks →
      (∀ i, bits (o + i) = (toks.flatMap tokenString).getD i false) →
      o + (toks.flatMap tokenString).length < 8 * len → toks.length < fuel →
      streamOutput init bits len fuel o (sourcePrefix src p) = (sourcePrefix src n, true) := by
  have hmin : Config.minMatch = 3 := rfl
  induction toks with
  | nil =>
    intro p o fuel hp hb hlen hf
    obtain ⟨fuel, rfl⟩ : ∃ f, fuel = f + 1 := ⟨fuel - 1, by simp at hf; omega⟩
    have hend : (tokenAt bits len o).ends = true := tokenAt_zeros fun i _ => by rw [hb]; rfl
    rw [streamOutput, if_neg (by simp at hlen; omega), if_pos hend]
    exact congrArg (fun x => (sourcePrefix src x, true)) hp
  | cons tok toks ih =>
    intro p o fuel hp hb hlen hf
    obtain ⟨fuel, rfl⟩ : ∃ f, fuel = f + 1 := ⟨fuel - 1, by simp at hf; omega⟩
    rw [List.flatMap_cons, List.length_append] at hlen
    have hhead : ∀ i, i < (tokenString tok).length → bits (o + i) = (tokenString tok).getD i false := by
      intro i hi
      rw [hb, List.flatMap_cons, getD_append, if_pos hi]
    have htail : ∀ i, bits (o + (tokenString tok).length + i) = (toks.flatMap tokenString).getD i false := by
      intro i
      rw [Nat.add_assoc, hb, List.flatMap_cons, getD_append, if_neg (by omega)]
      congr 1; omega
    have hf' : toks.length < fuel := by simp at hf; omega
    rw [streamOutput, if_neg (by omega)]
    cases tok with
    | lit v =>
      obtain ⟨h1, h2, -, h4⟩ := hp
      have hl : (tokenString (.lit v)).length = 9 := by simp [tokenString]
      rw [hl] at hhead htail hlen
      rw [tokenAt_lit hhead, Token.ends, if_neg (by simp), tokenBytes, Token.width, h2, ← sourcePrefix_succ]
      exact ih (p + 1) (o + 9) fuel h4 htail (by omega) hf'
    | ref e l =>
      obtain ⟨h1, ⟨a, ⟨hc, -⟩, hm, he⟩, h4⟩ := hp
      have hl : (tokenString (.ref e l)).length = 18 := by simp [tokenString]
      have hne : e ≠ 0#13 := fun h0 => by rw [h0] at he; simp at he
      rw [hl] at hhead htail hlen
      rw [tokenAt_ref hne hhead, Token.ends, if_neg (by simp), tokenBytes, Token.width,
        copiedBytes_match (a := a) _ p _ hc.1 hc.2.1 (by rw [he]; simp) fun k hk =>
          (matchLength_agrees (by rw [hm]; exact hk)).2]
      exact ih (p + (l.toNat + Config.minMatch)) (o + 18) fuel h4 htail (by omega) hf'
    | term => exact absurd hp (by simp [CanonicalTokens])
    | term2 => exact absurd hp (by simp [CanonicalTokens])

/-- The source positions fix the token list (42_lzss_compress.md R191). -/
theorem canonicalTokens_unique {src : Memory} {n : Nat} (toks : List Token) : ∀ (p : Nat) (toks' : List Token),
    CanonicalTokens src n p toks → CanonicalTokens src n p toks' → toks = toks' := by
  have hmin : Config.minMatch = 3 := rfl
  have hbest : ∀ {p a a' : Nat}, IsBestStart src n p a → IsBestStart src n p a' → a = a' := by
    intro p a a' h h'
    have h1 := h.2 a' h'.1
    have h2 := h'.2 a h.1
    rcases Nat.lt_trichotomy a a' with hlt | heq | hgt
    · have := h1.2 hlt; omega
    · exact heq
    · have := h2.2 hgt; omega
  have hlitref : ∀ {p a : Nat} {l : BitVec 4}, IsBestStart src n p a →
      matchLength src n a p = l.toNat + Config.minMatch →
      ¬ ∀ a, IsCandidate p a → matchLength src n a p < Config.minMatch := by
    intro p a l h hm hall
    have := hall a h.1
    omega
  induction toks with
  | nil =>
    intro p toks' h h'
    cases toks' with
    | nil => rfl
    | cons tok rest =>
      have hp : p = n := h
      cases tok with
      | lit v => have := h'.1; omega
      | ref e l => have := h'.1; omega
      | term => exact absurd h' (by simp [CanonicalTokens])
      | term2 => exact absurd h' (by simp [CanonicalTokens])
  | cons tok toks ih =>
    intro p toks' h h'
    cases toks' with
    | nil =>
      have hp : p = n := h'
      cases tok with
      | lit v => have := h.1; omega
      | ref e l => have := h.1; omega
      | term => exact absurd h (by simp [CanonicalTokens])
      | term2 => exact absurd h (by simp [CanonicalTokens])
    | cons tok' rest =>
      cases tok with
      | term => exact absurd h (by simp [CanonicalTokens])
      | term2 => exact absurd h (by simp [CanonicalTokens])
      | lit v =>
        obtain ⟨-, h2, h3, h4⟩ := h
        cases tok' with
        | term => exact absurd h' (by simp [CanonicalTokens])
        | term2 => exact absurd h' (by simp [CanonicalTokens])
        | lit v' =>
          obtain ⟨-, g2, -, g4⟩ := h'
          rw [h2, g2, ih _ _ h4 g4]
        | ref e l =>
          obtain ⟨-, ⟨a, ga, gm, -⟩, -⟩ := h'
          exact absurd h3 (hlitref ga gm)
      | ref e l =>
        obtain ⟨-, ⟨a, ha, hm, he⟩, h4⟩ := h
        cases tok' with
        | term => exact absurd h' (by simp [CanonicalTokens])
        | term2 => exact absurd h' (by simp [CanonicalTokens])
        | lit v' =>
          obtain ⟨-, -, g3, -⟩ := h'
          exact absurd g3 (hlitref ha hm)
        | ref e' l' =>
          obtain ⟨-, ⟨a', ha', hm', he'⟩, g4⟩ := h'
          have haa := hbest ha ha'
          subst haa
          have hle : l = l' := BitVec.eq_of_toNat_eq (by omega)
          have hee : e = e' := BitVec.eq_of_toNat_eq (by omega)
          subst hle hee
          rw [ih _ _ h4 g4]

/-- Decoding a buffer that holds a canonical stream (41_lzss_decompress.md R174). -/
theorem streamOutput_of_canonicalString {mem src init : Memory} {n len : Nat} {toks : List Token}
    (hc : CanonicalTokens src n 0 toks) (hlen : len = (canonicalString toks).length / 8 + 1)
    (hb : ∀ x, x < 8 * len → streamBit mem x = (canonicalString toks).getD x false) :
    streamOutput init (readableBit mem len) len (8 * len) 0 [] = (sourcePrefix src n, true) := by
  have hL := canonicalString_length toks
  have htl : toks.length ≤ (toks.flatMap tokenString).length := by
    clear hc hlen hb hL
    induction toks with
    | nil => simp
    | cons t r ih =>
      have : 1 ≤ (tokenString t).length := by cases t <;> simp [tokenString]
      simp only [List.flatMap_cons, List.length_append, List.length_cons]
      omega
  refine streamOutput_canonical toks 0 0 _ hc (fun i => ?_) (by omega) (by omega)
  rw [Nat.zero_add, ← canonicalString_getD]
  unfold readableBit
  by_cases h : i < 8 * len
  · rw [hb i h, decide_eq_true h, Bool.true_and]
  · rw [decide_eq_false h, Bool.false_and, List.getD_eq_getElem?_getD, List.getElem?_eq_none (by omega)]
    rfl

end Sys2Proof.Machine
end

