-- ==== Sys2Proof/Laws/Commands.lean ====
section
/-! SUPPORT. What the rule of each command does once its checks pass, said once: the rules answer, and what they leave. -/

namespace Sys2Proof.Machine

/-! What each unit leaves alone. -/

/-- The frame of a compressor run. -/
theorem compressed_frame {s t : State} (h : t = s.compressed t) :
    SameOperands s t ∧ SameBitRegs s t ∧ SameDecompressor s t ∧ SameCipher s t ∧ t.src = s.src ∧ t.status = s.status ∧
      t.core = s.core ∧ t.faultLog = s.faultLog ∧ t.resultLen = s.resultLen := by
  rw [h]
  exact ⟨⟨rfl, rfl, rfl, rfl, rfl, rfl, rfl, rfl⟩, ⟨rfl, rfl, rfl⟩, ⟨rfl, rfl, rfl, rfl⟩,
    ⟨rfl, rfl, rfl, rfl, rfl, rfl, rfl⟩, rfl, rfl, rfl, rfl, rfl⟩

/-- The frame of a cipher run. -/
theorem ciphered_frame {s t : State} (h : t = s.ciphered t) :
    SameOperands s t ∧ SameBitRegs s t ∧ SameDecompressor s t ∧ SameCompressor s t ∧ t.hist = s.hist ∧
      t.status = s.status ∧ t.core = s.core ∧ t.faultLog = s.faultLog ∧ t.resultLen = s.resultLen := by
  rw [h]
  exact ⟨⟨rfl, rfl, rfl, rfl, rfl, rfl, rfl, rfl⟩, ⟨rfl, rfl, rfl⟩, ⟨rfl, rfl, rfl, rfl⟩,
    ⟨rfl, rfl, rfl, rfl, rfl, rfl, rfl⟩, rfl, rfl, rfl, rfl, rfl⟩

/-- The frame of a decompressor run. -/
theorem decoded_frame {s t : State} {out : List Byte} {o : Nat} {ended : Bool} {st : Word}
    (h : t = { (decompressInit s).decoded out o ended with status := st }) :
    SameOperands s t ∧ SameBitRegs s t ∧ SameCompressor s t ∧ SameCipher s t ∧ t.src = s.src ∧ t.core = s.core ∧
      t.faultLog = s.faultLog ∧ t.resultLen = s.resultLen := by
  rw [State.decoded, produced_footprint] at h
  rw [h]
  exact ⟨⟨rfl, rfl, rfl, rfl, rfl, rfl, rfl, rfl⟩, ⟨rfl, rfl, rfl⟩, ⟨rfl, rfl, rfl, rfl, rfl, rfl, rfl⟩,
    ⟨rfl, rfl, rfl, rfl, rfl, rfl, rfl⟩, rfl, rfl, rfl, rfl⟩

/-- READ_BITS's rule (40_bitstream.md R146). -/
theorem readBitsRule_eq {s : State} (hlen : s.srcLen.toNat ≤ s.launch.srcMem) (hmask : oneHot s.bitMask = true) :
    readBitsRule s = some { s with
      bitData := BitVec.ofNat 16
        (bitField (readableBit s.src s.srcLen.toNat) (bitOffset s.bitPos) s.bitN.toNat)
      bitCursor := BitVec.ofNat 32 (readEnd s.srcLen.toNat (bitOffset s.bitPos) s.bitN.toNat).cur
      bitMask := (readEnd s.srcLen.toNat (bitOffset s.bitPos) s.bitN.toNat).mask } := by
  have hp : s.bitPos = posAt (bitOffset s.bitPos) := (posAt_bitOffset (pos := s.bitPos) hmask).symm
  rw [readBitsRule, hp, readBits_memRead (sp := .src) hlen, bitOffset_posAt]
  rfl

/-- WRITE_BITS's rule (40_bitstream.md R147). -/
theorem writeBitsRule_spec {s : State} {o : Nat} (hmask : oneHot s.bitMask = true) (ho : bitOffset s.bitPos = o)
    (hn : 1 ≤ s.bitN.toNat) (hfit : (o + s.bitN.toNat - 1) / 8 < s.launch.dstMem) :
    ∃ mem, writeBitsRule s = some { s with
        dst := mem
        bitCursor := BitVec.ofNat 32 ((o + s.bitN.toNat) / 8)
        bitMask := 0x80#8 >>> ((o + s.bitN.toNat) % 8) } ∧
      (Memory.wf s.dst = true → Memory.wf mem = true ∧ ∀ x, streamBit mem x = (streamBit s.dst x ||
        (decide (o ≤ x ∧ x < o + s.bitN.toNat) && s.bitData.toNat.testBit (o + s.bitN.toNat - 1 - x)))) ∧
      (Memory.below s.launch.dstMem s.dst = true → Memory.below s.launch.dstMem mem = true) := by
  have hp : s.bitPos = posAt o := by rw [← ho]; exact (posAt_bitOffset (pos := s.bitPos) hmask).symm
  obtain ⟨mem, e, w, b⟩ := writeBits_posAt .dst s.bitData.toNat s.bitN.toNat s o
    (show _ ≤ 8 * s.launch.dstMem by omega)
  refine ⟨mem, ?_, w, b⟩
  rw [writeBitsRule, hp, e]
  rfl

/-- DECOMPRESS's run against the reference decoder (41_lzss_decompress.md R171 to R173). -/
theorem decompressRun_streamOutput {s t : State} (hsrc : s.srcLen.toNat ≤ s.launch.srcMem)
    (hdst : s.dstLen.toNat ≤ s.launch.dstMem) (hi : Memory.wf s.launch.histInit = true)
    (hrun : decompressRun s = some t) {out : List Byte} {ended : Bool}
    (hout : streamOutput s.launch.histInit (readableBit s.src s.srcLen.toNat) s.srcLen.toNat (8 * s.srcLen.toNat) 0 [] =
      (out, ended)) :
    ∃ o, o ≤ 8 * s.srcLen.toNat ∧ t = { (decompressInit s).decoded out o ended with
        status := decompressStatus s.status ended (decide (s.dstLen.toNat < out.length)) } ∧
      t.q = out.length ∧ t.ovr = decide (s.dstLen.toNat < out.length) ∧ HistHolds t out ∧ out.length ≤ 18 * ((8 * s.srcLen.toNat + 8) / 9) ∧
      (Memory.wf s.dst = true → Memory.wf t.dst = true ∧ Memory.wf t.hist = true ∧
        ∀ a, Memory.read t.dst a = if a < out.length ∧ a < s.dstLen.toNat then out.getD a 0#8 else Memory.read s.dst a) ∧
      (Memory.below s.launch.dstMem s.dst = true → Memory.below Config.histSize s.launch.histInit = true →
        Memory.below s.launch.dstMem t.dst = true ∧ Memory.below Config.histSize t.hist = true) := by
  obtain ⟨out1, o1, tm, e1, e2, h3, h4, -⟩ := decompressRun_spec hsrc hdst
  obtain ⟨out2, o2, e3, h5⟩ := decompressLoop_streamOutput (8 * s.srcLen.toNat) (decompressInit s) 0 [] hsrc hdst rfl rfl
    (histHolds_decompressInit s) hi
  have f1 : (decompressInit s).launch = s.launch := rfl
  have f2 : (decompressInit s).src = s.src := rfl
  have f3 : (decompressInit s).srcLen = s.srcLen := rfl
  rw [f1, f2, f3, hout] at e3 h5
  rw [List.nil_append] at h5
  simp only at h5 e3
  subst h5
  have heq : (decompressInit s).decoded out1 o1 tm = (decompressInit s).decoded out2 o2 ended :=
    Option.some.inj (e1.symm.trans e3)
  have ht : t = { (decompressInit s).decoded out1 o1 tm with
      status := decompressStatus s.status tm (decide (s.dstLen.toNat < out1.length)) } :=
    Option.some.inj (hrun.symm.trans e2)
  have hq : ∀ out o tm, ((decompressInit s).decoded out o tm).q = out.length := by
    intro out o tm
    show ((decompressInit s).produced out).q = _
    rw [produced_q]
    show 0 + _ = _
    omega
  have hlen : out1.length = out2.length := by rw [← hq out1 o1 tm, heq, hq]
  have htm : tm = ended := congrArg State.term heq
  have hpos : posAt o1 = posAt o2 := congrArg State.rd heq
  have ho : o1 = o2 := by
    have := congrArg bitOffset hpos
    rwa [bitOffset_posAt, bitOffset_posAt] at this
  subst htm ho
  rw [heq, hlen] at ht
  have hst : t.dst = ((decompressInit s).produced out2).dst := by rw [ht]; rfl
  have hht : t.hist = ((decompressInit s).produced out2).hist := by rw [ht]; rfl
  refine ⟨o1, h3, ht, by rw [ht]; exact hq out2 o1 tm, ?_, ?_, by omega, fun hw => ?_, fun hb hib => ?_⟩
  · have h0 : t.ovr = ((decompressInit s).produced out2).ovr := by rw [ht]; rfl
    rw [h0, produced_ovr]
    show (false || decide (s.dstLen.toNat < 0 + out2.length ∧ out2 ≠ [])) = _
    cases out2 with
    | nil => simp
    | cons v out2 => simp
  · have := histHolds_produced (histHolds_decompressInit s) hi out2
    rw [List.nil_append] at this
    refine this.congr hht ?_ ?_
    · rw [ht]; rfl
    · rw [ht]; rfl
  · obtain ⟨v1, v2⟩ := produced_wf (s := decompressInit s) hw hi out2
    refine ⟨by rw [hst]; exact v1, by rw [hht]; exact v2, fun a => ?_⟩
    rw [hst, produced_read_dst (s := decompressInit s) hw]
    show (if 0 ≤ a ∧ a < 0 + out2.length ∧ a < s.dstLen.toNat then (out2[a - 0]?).getD 0#8 else Memory.read s.dst a) = _
    simp [List.getD_eq_getElem?_getD]
  · obtain ⟨v1, v2⟩ := produced_below (s := decompressInit s) hdst hb hib out2
    exact ⟨by rw [hst]; exact v1, by rw [hht]; exact v2⟩

/-- DECODE's rule (44_pipeline.md R220): two runs of the cipher over SRC and a run of the decompressor. -/
theorem decodeRule_spec {s : State} (hsrc : s.srcLen.toNat ≤ s.launch.srcMem)
    (hdst : s.dstLen.toNat ≤ s.launch.dstMem) :
    ∃ a b c, cipherRun true .src s.srcLen.toNat Config.layerA s = some a ∧
      cipherRun true .src s.srcLen.toNat Config.layerB a = some b ∧ decompressRun b = some c ∧
      decodeRule s = some { c with
        resultLen := BitVec.ofNat 32 c.q
        status := setFlag c.status flagErrSize (decide (c.q ≠ c.dstLen.toNat)) } := by
  obtain ⟨a, e1, f1, -⟩ := cipherRun_spec true .src Config.layerA (s := s) (by decide) hsrc
  have al : a.launch = s.launch := by rw [f1]; rfl
  obtain ⟨b, e2, f2, -⟩ := cipherRun_spec true .src (len := s.srcLen.toNat) Config.layerB (s := a) (by decide)
    (show _ ≤ a.launch.srcMem by rw [al]; exact hsrc)
  have bl : b.launch = s.launch := by rw [f2]; exact al
  have bs : b.srcLen = s.srcLen := by rw [f2, f1]; rfl
  have bd : b.dstLen = s.dstLen := by rw [f2, f1]; rfl
  obtain ⟨c, e3⟩ := decompressRun_total (s := b) (by rw [bl, bs]; exact hsrc) (by rw [bl, bd]; exact hdst)
  refine ⟨a, b, c, e1, e2, e3, ?_⟩
  rw [decodeRule, e1, Option.bind_some, e2, Option.bind_some, e3]
  rfl

/-- ENCODE's rule (44_pipeline.md R222): a run of the compressor and two runs of the cipher over DST. -/
theorem encodeRule_spec {s : State} (hsrc : s.srcLen.toNat ≤ s.launch.srcMem)
    (hcap : compressCap s.srcLen.toNat ≤ s.launch.dstMem) :
    ∃ a b c, compressRun s = some a ∧ a.wr.cur + 1 ≤ compressCap s.srcLen.toNat ∧
      cipherRun false .dst (a.wr.cur + 1) Config.layerB a = some b ∧
      cipherRun false .dst (a.wr.cur + 1) Config.layerA b = some c ∧
      encodeRule s = some { c with resultLen := BitVec.ofNat 32 (a.wr.cur + 1) } := by
  obtain ⟨a, o, e1, f1, -, -, -, -, hcur, -⟩ := compressRun_spec hsrc hcap
  have al : a.launch = s.launch := by rw [f1]; rfl
  obtain ⟨b, e2, f2, -⟩ := cipherRun_spec false .dst (len := a.wr.cur + 1) Config.layerB (s := a) (by decide)
    (show _ ≤ a.launch.dstMem by rw [al]; omega)
  have bl : b.launch = s.launch := by rw [f2]; exact al
  obtain ⟨c, e3, -⟩ := cipherRun_spec false .dst (len := a.wr.cur + 1) Config.layerA (s := b) (by decide)
    (show _ ≤ b.launch.dstMem by rw [bl]; omega)
  refine ⟨a, b, c, e1, hcur, e2, e3, ?_⟩
  rw [encodeRule, e1, Option.bind_some, e2, Option.bind_some, e3]
  rfl

/-! The frames compose. -/

theorem SameOperands.trans {s a b : State} (h1 : SameOperands s a) (h2 : SameOperands a b) : SameOperands s b := by
  obtain ⟨a1, a2, a3, a4, a5, a6, a7, a8⟩ := h1
  obtain ⟨b1, b2, b3, b4, b5, b6, b7, b8⟩ := h2
  exact ⟨b1.trans a1, b2.trans a2, b3.trans a3, b4.trans a4, b5.trans a5, b6.trans a6, b7.trans a7, b8.trans a8⟩

theorem SameBitRegs.trans {s a b : State} (h1 : SameBitRegs s a) (h2 : SameBitRegs a b) : SameBitRegs s b :=
  ⟨h2.1.trans h1.1, h2.2.1.trans h1.2.1, h2.2.2.trans h1.2.2⟩

theorem SameDecompressor.trans {s a b : State} (h1 : SameDecompressor s a) (h2 : SameDecompressor a b) :
    SameDecompressor s b := by
  obtain ⟨a1, a2, a3, a4⟩ := h1
  obtain ⟨b1, b2, b3, b4⟩ := h2
  exact ⟨b1.trans a1, b2.trans a2, b3.trans a3, b4.trans a4⟩

theorem SameCompressor.trans {s a b : State} (h1 : SameCompressor s a) (h2 : SameCompressor a b) :
    SameCompressor s b := by
  obtain ⟨a1, a2, a3, a4, a5, a6, a7⟩ := h1
  obtain ⟨b1, b2, b3, b4, b5, b6, b7⟩ := h2
  exact ⟨b1.trans a1, b2.trans a2, b3.trans a3, b4.trans a4, b5.trans a5, b6.trans a6, b7.trans a7⟩

/-- How a command ends: by the fault of a check, or as its rule leaves it (60_exceptions.md R240 to R242). -/
theorem runCommand_cases {check : State → Option FaultCode} {rule : State → Option State} {s t : State}
    (h : runCommand check rule s = .next t) :
    (∃ code, check s.issue = some code ∧ t = afterFault s code) ∨
      (check s.issue = none ∧ ∃ u, rule s.issue = some u ∧ t = u.complete) := by
  rcases runCommand_next_iff.mp h with ⟨code, h1, h2⟩ | h
  · exact .inl ⟨code, h1, by rw [h2, takeFault_issue]⟩
  · exact .inr h

end Sys2Proof.Machine
end

