-- ==== Sys2Proof/Laws/Encoding.lean ====
section
/-! SUPPORT. The token decoder and the packing of bits, on lists of bytes. -/

namespace Sys2Proof.Machine

/-- A list of bytes as a memory. -/
theorem byteList_read (bytes : List Byte) (a : Nat) (h : a < bytes.length) :
    bytes[a]? = some (Memory.read (Memory.writeBytes [] 0 bytes) a) := by
  rw [Memory.read_writeBytes rfl, if_pos (by omega)]
  simp [h]

/-- The first token of a non-empty list of bytes (30_encoding.md R108, R110). -/
theorem decodeStream_eq {bytes : List Byte} (h : bytes ≠ []) :
    decodeStream bytes =
      some (tokenAt (readableBit (Memory.writeBytes [] 0 bytes) bytes.length) bytes.length 0) := by
  have hl : 0 < bytes.length := List.length_pos_of_ne_nil h
  rw [decodeStream, if_neg (by omega), ← posAt_zero]
  exact decodeToken_posAt (fun a ha => byteList_read bytes a ha) (by omega)

theorem packBits_length (width val : Nat) : (packBits width val).length = (width + 7) / 8 := by simp [packBits]

/-- Bit `o` of a packed value: the value's bits, most significant first, then zeros (30_encoding.md R107). -/
theorem packBits_bit {width val o : Nat} (ho : o < 8 * ((width + 7) / 8)) :
    readableBit (Memory.writeBytes [] 0 (packBits width val)) (packBits width val).length o =
      (decide (o < width) && val.testBit (width - 1 - o)) := by
  rw [packBits_length]
  unfold readableBit streamBit
  rw [Memory.read_writeBytes rfl, packBits_length, if_pos (by omega), decide_eq_true ho]
  have hi : o / 8 < (width + 7) / 8 := by omega
  simp only [packBits, Nat.sub_zero, Bool.true_and]
  rw [List.getElem?_map, List.getElem?_range hi]
  simp only [Option.map_some, Option.getD_some, BitVec.getLsbD_ofNat, Nat.testBit_shiftRight, Nat.testBit_shiftLeft]
  have h8 : 7 - o % 8 < 8 := by omega
  rw [decide_eq_true h8, Bool.true_and]
  by_cases h : o < width
  · have h1 : 8 * ((width + 7) / 8 - 1 - o / 8) + (7 - o % 8) ≥ 8 * ((width + 7) / 8) - width := by omega
    rw [decide_eq_true h, decide_eq_true h1]
    simp only [Bool.true_and]
    congr 1; omega
  · have h1 : ¬ 8 * ((width + 7) / 8 - 1 - o / 8) + (7 - o % 8) ≥ 8 * ((width + 7) / 8) - width := by omega
    rw [decide_eq_false h, decide_eq_false h1]
    rfl

theorem packBits_ne_nil (width val : Nat) (h : 0 < width) : packBits width val ≠ [] := by
  intro hc
  have := packBits_length width val
  rw [hc] at this
  simp at this
  omega

end Sys2Proof.Machine
end

