-- ==== Sys2Proof/Laws/Invariant.lean ====
section
/-! SUPPORT. What a run of each unit keeps: the canonical form of every memory, their ranges, and the counters' widths. -/

namespace Sys2Proof.Machine

/-- A cipher run keeps every memory's canonical form. -/
theorem cipherRun_canonical {dec : Bool} {sp : Space} {len : Nat} {layer : Layer} {s t : State}
    (hB : 1 ≤ layer.blockSize) (hlen : len ≤ s.size sp) (h : cipherRun dec sp len layer s = some t)
    (hc : MemoriesCanonical s) : MemoriesCanonical t := by
  obtain ⟨t', e1, f1, -, -, -, -, -, hoth, hsc, hw, -⟩ := cipherRun_spec dec sp (len := len) layer (s := s) hB hlen
  obtain rfl : t' = t := Option.some.inj (e1.symm.trans h)
  have hwm : Memory.wf (s.mem sp) = true := by
    cases sp
    · exact hc.1
    · exact hc.2.1
  obtain ⟨v, -⟩ := hw hwm
  obtain ⟨A1, -, -, -, A5, -⟩ := ciphered_frame f1
  refine ⟨?_, ?_, by rw [A5]; exact hc.2.2.1, hsc, by rw [A1.2.2.2.2.2.1]; exact hc.2.2.2.2⟩
  · cases sp
    · exact v
    · rw [show t'.src = s.src from hoth .src (by decide)]
      exact hc.1
  · cases sp
    · rw [show t'.dst = s.dst from hoth .dst (by decide)]
      exact hc.2.1
    · exact v

/-- A cipher run keeps ranges, counters and masks. -/
theorem cipherRun_inRange {dec : Bool} {sp : Space} {len : Nat} {layer : Layer} {s t : State}
    (hB : 1 ≤ layer.blockSize) (hlen : len ≤ s.size sp) (h32 : len < 2 ^ 32)
    (h : cipherRun dec sp len layer s = some t) (hr : MemoriesInRange s) (hk : CountersFit s)
    (hm : oneHot s.rd.mask = true ∧ oneHot s.wr.mask = true) :
    MemoriesInRange t ∧ CountersFit t ∧ (oneHot t.rd.mask = true ∧ oneHot t.wr.mask = true) ∧ t.P < 2 ^ 32 := by
  obtain ⟨t', e1, f1, hP, hcP, ht, hst, hb0, hoth, -, -, hb⟩ :=
    cipherRun_spec dec sp (len := len) layer (s := s) hB hlen
  obtain rfl : t' = t := Option.some.inj (e1.symm.trans h)
  have hPle := processedLen_le len layer.blockSize
  have hlt : t'.P < 2 ^ 32 := by omega
  obtain ⟨A1, -, ⟨d1, d2, -, -⟩, ⟨c1, c2, c3, c4, c5, c6, c7⟩, A5, -⟩ := ciphered_frame f1
  obtain ⟨k1, k2, k3, k4, k5, k6, k7, k8, k9, k10, k11, k12, k13, k14⟩ := hk
  have hl : t'.launch = s.launch := A1.2.2.2.2.2.1
  refine ⟨⟨?_, ?_, by rw [A5]; exact hr.2.2.1, by rw [hl]; exact hr.2.2.2⟩,
    ⟨by rw [d1]; exact k1, by rw [c1]; exact k2, by rw [d2]; exact k3, by rw [c2]; exact k4, by rw [c4]; exact k5,
      by rw [c7]; exact k6, by rw [hcP]; exact hlt, by omega, by omega, by omega, hlt, by rw [c5]; exact k12,
      by rw [c3]; exact k13, by rw [c6]; exact k14⟩, by rw [d1, c1]; exact hm, hlt⟩
  · rw [hl]
    cases sp
    · exact hb hr.1
    · rw [show t'.src = s.src from hoth .src (by decide)]
      exact hr.1
  · rw [hl]
    cases sp
    · rw [show t'.dst = s.dst from hoth .dst (by decide)]
      exact hr.2.1
    · exact hb hr.2.1

/-- A decompressor run keeps every memory's canonical form. -/
theorem decompressRun_canonical {s t : State} (h1 : s.srcLen.toNat ≤ s.launch.srcMem)
    (h2 : s.dstLen.toNat ≤ s.launch.dstMem) (h : decompressRun s = some t) (hc : MemoriesCanonical s) :
    MemoriesCanonical t := by
  rcases hso : streamOutput s.launch.histInit (readableBit s.src s.srcLen.toNat) s.srcLen.toNat (8 * s.srcLen.toNat) 0 []
    with ⟨out, ended⟩
  obtain ⟨o, -, et, -, -, -, -, w, -⟩ := decompressRun_streamOutput h1 h2 hc.2.2.2.2 h hso
  obtain ⟨w1, w2, -⟩ := w hc.2.1
  obtain ⟨C1, -, -, C4, C5, -⟩ := decoded_frame et
  exact ⟨by rw [C5]; exact hc.1, w1, w2, by rw [C4.2.2.2.2.2.2]; exact hc.2.2.2.1,
    by rw [C1.2.2.2.2.2.1]; exact hc.2.2.2.2⟩

/-- A decompressor run keeps ranges, counters and masks, and sets only its own two flags. -/
theorem decompressRun_inRange {s t : State} (h1 : s.srcLen.toNat ≤ s.launch.srcMem)
    (h2 : s.dstLen.toNat ≤ s.launch.dstMem) (h : decompressRun s = some t) (hm : MemSizes s)
    (hi : Memory.wf s.launch.histInit = true) (hr : MemoriesInRange s) (hk : CountersFit s)
    (ho : oneHot s.wr.mask = true) :
    MemoriesInRange t ∧ CountersFit t ∧ (oneHot t.rd.mask = true ∧ oneHot t.wr.mask = true) ∧
      ∃ tm ovr, t.status = decompressStatus s.status tm ovr := by
  rcases hso : streamOutput s.launch.histInit (readableBit s.src s.srcLen.toNat) s.srcLen.toNat (8 * s.srcLen.toNat) 0 []
    with ⟨out, ended⟩
  obtain ⟨o, hoo, et, hq, -, -, hb, -, wb⟩ := decompressRun_streamOutput h1 h2 hi h hso
  obtain ⟨w1, w2⟩ := wb hr.2.1 hr.2.2.2
  obtain ⟨C1, -, ⟨c1, c2, c3, c4, c5, c6, c7⟩, ⟨m1, m2, m3, m4, m5, m6, m7⟩, C5, -⟩ := decoded_frame et
  have hl : t.launch = s.launch := C1.2.2.2.2.2.1
  have hrd : t.rd = posAt o := by rw [et]; rfl
  obtain ⟨k1, k2, k3, k4, k5, k6, k7, k8, k9, k10, k11, k12, k13, k14⟩ := hk
  have h27 : s.launch.srcMem ≤ 134217728 := hm.1
  exact ⟨⟨by rw [C5, hl]; exact hr.1, by rw [hl]; exact w1, w2, by rw [hl]; exact hr.2.2.2⟩,
    ⟨by rw [hrd, posAt_cur]; omega, by rw [c1]; exact k2, by rw [hq]; omega, by rw [c2]; exact k4, by rw [c4]; exact k5,
      by rw [c7]; exact k6, by rw [m2]; exact k7, by rw [m3]; exact k8, by rw [m4]; exact k9, by rw [m5]; exact k10,
      by rw [m6]; exact k11, by rw [c5]; exact k12, by rw [c3]; exact k13, by rw [c6]; exact k14⟩,
    ⟨by rw [hrd]; exact oneHot_posAt o, by rw [c1]; exact ho⟩, ended, decide (s.dstLen.toNat < out.length), by rw [et]⟩

/-- A compressor run keeps every memory's canonical form. -/
theorem compressRun_canonicalForm {s t : State} (h1 : s.srcLen.toNat ≤ s.launch.srcMem)
    (h2 : compressCap s.srcLen.toNat ≤ s.launch.dstMem) (h : compressRun s = some t) (hc : MemoriesCanonical s) :
    MemoriesCanonical t := by
  obtain ⟨u, o, e1, f1, -, -, -, -, -, -, -, -, -, w1, -, w2, -⟩ := compressRun_spec h1 h2
  obtain rfl : u = t := Option.some.inj (e1.symm.trans h)
  obtain ⟨k1, -, -, k4, k5, -⟩ := compressed_frame f1
  exact ⟨by rw [k5]; exact hc.1, (w1 hc.2.1).1, w2 hc.2.2.1, by rw [k4.2.2.2.2.2.2]; exact hc.2.2.2.1,
    by rw [k1.2.2.2.2.2.1]; exact hc.2.2.2.2⟩

/-- A compressor run keeps ranges, counters and masks. -/
theorem compressRun_inRange {s t : State} (h1 : s.srcLen.toNat ≤ s.launch.srcMem)
    (h2 : compressCap s.srcLen.toNat ≤ s.launch.dstMem) (h : compressRun s = some t) (hm : MemSizes s)
    (hr : MemoriesInRange s) (hk : CountersFit s) (ho : oneHot s.rd.mask = true) :
    MemoriesInRange t ∧ CountersFit t ∧ (oneHot t.rd.mask = true ∧ oneHot t.wr.mask = true) ∧
      t.wr.cur + 1 < 2 ^ 32 := by
  obtain ⟨u, o, e1, f1, c1, p1, hoo, p6, hcur, q1, q2, q3, q4, -, b1, -, b2⟩ := compressRun_spec h1 h2
  obtain rfl : u = t := Option.some.inj (e1.symm.trans h)
  obtain ⟨a1, -, ⟨d1, d2, -, -⟩, ⟨m1, m2, m3, m4, m5, m6, m7⟩, a5, -⟩ := compressed_frame f1
  have hl : u.launch = s.launch := a1.2.2.2.2.2.1
  obtain ⟨k1, k2, k3, k4, k5, k6, k7, k8, k9, k10, k11, k12, k13, k14⟩ := hk
  have h31 : s.launch.dstMem ≤ 2147483648 := hm.2
  have hN := s.srcLen.isLt
  exact ⟨⟨by rw [a5, hl]; exact hr.1, by rw [hl]; exact b1 hr.2.1, b2 hr.2.2.1, by rw [hl]; exact hr.2.2.2⟩,
    ⟨by rw [d1]; exact k1, by omega, by rw [d2]; exact k3, by rw [p6]; exact hN, by omega, by rw [c1]; omega,
      by rw [m2]; exact k7, by rw [m3]; exact k8, by rw [m4]; exact k9, by rw [m5]; exact k10, by rw [m6]; exact k11,
      q4 k12, q1 k13, q3 k14⟩, ⟨by rw [d1]; exact ho, by rw [p1]; exact oneHot_posAt _⟩, by omega⟩

/-! A run of each unit is a function of what a host sees (10_state.md R51). -/

/-- DECOMPRESS's run from two states a host cannot tell apart. -/
theorem decompressRun_visible {s s' t t' : State} (h : SameVisible s s') (hst : s.status = s'.status)
    (hc : MemoriesCanonical s) (hc' : MemoriesCanonical s') (h1 : s.srcLen.toNat ≤ s.launch.srcMem)
    (h2 : s.dstLen.toNat ≤ s.launch.dstMem) (e : decompressRun s = some t) (e' : decompressRun s' = some t') :
    SameVisible t t' ∧ t.status = t'.status ∧ t.q = t'.q := by
  rcases hso : streamOutput s.launch.histInit (readableBit s.src s.srcLen.toNat) s.srcLen.toNat (8 * s.srcLen.toNat) 0 []
    with ⟨out, ended⟩
  obtain ⟨v1, v2, v3, v4, v5, v6, v7, v8, v9, v10, v11, v12⟩ := h
  have h1' : s'.srcLen.toNat ≤ s'.launch.srcMem := by rw [← v1, ← v12]; exact h1
  have h2' : s'.dstLen.toNat ≤ s'.launch.dstMem := by rw [← v2, ← v12]; exact h2
  have k1 := decompressRun_canonical h1 h2 e hc
  have k2 := decompressRun_canonical h1' h2' e' hc'
  obtain ⟨o, -, et, hq, -, -, -, w, -⟩ := decompressRun_streamOutput h1 h2 hc.2.2.2.2 e hso
  rw [v12, v10, v1] at hso
  obtain ⟨o', -, et', hq', -, -, -, w', -⟩ := decompressRun_streamOutput h1' h2' hc'.2.2.2.2 e' hso
  have x1 : t.status = t'.status := by
    rw [et, et']
    simp only [hst, v2]
  obtain ⟨⟨a1, a2, a3, a4, a5, a6, -⟩, ⟨b1, b2, b3⟩, -, -, c1, -, -, d1⟩ := decoded_frame et
  obtain ⟨⟨a1', a2', a3', a4', a5', a6', -⟩, ⟨b1', b2', b3'⟩, -, -, c1', -, -, d1'⟩ := decoded_frame et'
  refine ⟨⟨by rw [a1, a1', v1], by rw [a2, a2', v2], by rw [d1, d1', v3], by rw [a3, a3', v4], by rw [a4, a4', v5],
    by rw [b1, b1', v6], by rw [b2, b2', v7], by rw [a5, a5', v8], by rw [b3, b3', v9], by rw [c1, c1', v10], ?_,
    by rw [a6, a6', v12]⟩, x1, by rw [hq, hq']⟩
  refine Memory.ext k1.2.1 k2.2.1 fun a => ?_
  rw [(w hc.2.1).2.2, (w' hc'.2.1).2.2, v2, v11]

/-- A cipher run from two states a host cannot tell apart. -/
theorem cipherRun_visible {dec : Bool} {sp : Space} {len : Nat} {layer : Layer} {s s' t t' : State}
    (hB : 1 ≤ layer.blockSize) (hlen : len ≤ s.size sp) (h : SameVisible s s') (hst : s.status = s'.status)
    (hc : MemoriesCanonical s) (hc' : MemoriesCanonical s') (e : cipherRun dec sp len layer s = some t)
    (e' : cipherRun dec sp len layer s' = some t') : SameVisible t t' ∧ t.status = t'.status ∧ t.P = t'.P := by
  obtain ⟨v1, v2, v3, v4, v5, v6, v7, v8, v9, v10, v11, v12⟩ := h
  have hlen' : len ≤ s'.size sp := by
    cases sp <;> (simp only [State.size] at *; rw [← v12]; exact hlen)
  have k1 := cipherRun_canonical hB hlen e hc
  have k2 := cipherRun_canonical hB hlen' e' hc'
  obtain ⟨t1, e1, f1, P1, -, -, -, -, o1, -, w1, -⟩ := cipherRun_spec dec sp layer hB hlen
  obtain ⟨t2, e2, f2, P2, -, -, -, -, o2, -, w2, -⟩ := cipherRun_spec dec sp layer hB hlen'
  obtain rfl : t1 = t := Option.some.inj (e1.symm.trans e)
  obtain rfl : t2 = t' := Option.some.inj (e2.symm.trans e')
  obtain ⟨⟨a1, a2, a3, a4, a5, a6, -⟩, ⟨b1, b2, b3⟩, -, -, -, st, -, -, d1⟩ := ciphered_frame f1
  obtain ⟨⟨a1', a2', a3', a4', a5', a6', -⟩, ⟨b1', b2', b3'⟩, -, -, -, st', -, -, d1'⟩ := ciphered_frame f2
  have hmem : ∀ sp', s.mem sp' = s'.mem sp' := by
    intro sp'
    cases sp'
    · exact v10
    · exact v11
  have hwf : ∀ sp', Memory.wf (s.mem sp') = true := by
    intro sp'
    cases sp'
    · exact hc.1
    · exact hc.2.1
  have key : ∀ sp', Memory.wf (t1.mem sp') = true → Memory.wf (t2.mem sp') = true → t1.mem sp' = t2.mem sp' := by
    intro sp' g1 g2
    by_cases h : sp' = sp
    · subst h
      refine Memory.ext g1 g2 fun x => ?_
      have r1 := (w1 (hwf sp')).2
      have r2 := (w2 (by rw [← hmem]; exact hwf sp')).2
      rw [P1] at r1
      rw [P2, ← hmem] at r2
      exact relates_unique hB r1 r2 x
    · rw [o1 _ h, o2 _ h, hmem]
  exact ⟨⟨by rw [a1, a1', v1], by rw [a2, a2', v2], by rw [d1, d1', v3], by rw [a3, a3', v4], by rw [a4, a4', v5],
    by rw [b1, b1', v6], by rw [b2, b2', v7], by rw [a5, a5', v8], by rw [b3, b3', v9], key .src k1.1 k2.1,
    key .dst k1.2.1 k2.2.1, by rw [a6, a6', v12]⟩, by rw [st, st', hst], by rw [P1, P2]⟩

/-- A compressor run from two states a host cannot tell apart. -/
theorem compressRun_visible {s s' t t' : State} (h : SameVisible s s') (hst : s.status = s'.status)
    (hc : MemoriesCanonical s) (hc' : MemoriesCanonical s') (h1 : s.srcLen.toNat ≤ s.launch.srcMem)
    (h2 : compressCap s.srcLen.toNat ≤ s.launch.dstMem) (e : compressRun s = some t) (e' : compressRun s' = some t') :
    SameVisible t t' ∧ t.status = t'.status ∧ t.wr = t'.wr := by
  obtain ⟨v1, v2, v3, v4, v5, v6, v7, v8, v9, v10, v11, v12⟩ := h
  have h1' : s'.srcLen.toNat ≤ s'.launch.srcMem := by rw [← v1, ← v12]; exact h1
  have h2' : compressCap s'.srcLen.toNat ≤ s'.launch.dstMem := by rw [← v1, ← v12]; exact h2
  have k1 := compressRun_canonicalForm h1 h2 e hc
  have k2 := compressRun_canonicalForm h1' h2' e' hc'
  obtain ⟨t1, o, e1, f1, -, -, -, -, -, -, -, -, -, w1, -⟩ := compressRun_spec h1 h2
  obtain ⟨t2, o', e2, f2, -, -, -, -, -, -, -, -, -, w2, -⟩ := compressRun_spec h1' h2'
  obtain rfl : t1 = t := Option.some.inj (e1.symm.trans e)
  obtain rfl : t2 = t' := Option.some.inj (e2.symm.trans e')
  obtain ⟨toks, g1, g2, g3⟩ := compressRun_canonical h1 h2 hc.2.1 hc.2.2.1 e1
  obtain ⟨toks', g1', g2', g3'⟩ := compressRun_canonical h1' h2' hc'.2.1 hc'.2.2.1 e2
  rw [← v10, ← v1] at g1'
  obtain rfl := canonicalTokens_unique _ _ _ g1 g1'
  obtain ⟨⟨a1, a2, a3, a4, a5, a6, -⟩, ⟨b1, b2, b3⟩, -, -, c1, st, -, -, d1⟩ := compressed_frame f1
  obtain ⟨⟨a1', a2', a3', a4', a5', a6', -⟩, ⟨b1', b2', b3'⟩, -, -, c1', st', -, -, d1'⟩ := compressed_frame f2
  refine ⟨⟨by rw [a1, a1', v1], by rw [a2, a2', v2], by rw [d1, d1', v3], by rw [a3, a3', v4], by rw [a4, a4', v5],
    by rw [b1, b1', v6], by rw [b2, b2', v7], by rw [a5, a5', v8], by rw [b3, b3', v9], by rw [c1, c1', v10], ?_,
    by rw [a6, a6', v12]⟩, by rw [st, st', hst], by rw [g2, g2']⟩
  refine Memory.ext k1.2.1 k2.2.1 fun a => ?_
  by_cases ha : a < compressCap s.srcLen.toNat
  · refine read_eq_iff_streamBit.mpr fun i hi => ?_
    rw [g3 _ (by omega), g3' _ (by rw [← v1]; omega)]
  · rw [(w1 hc.2.1).2.2 a (by omega), (w2 hc'.2.1).2.2 a (by rw [← v1]; omega), v11]

end Sys2Proof.Machine
end

