-- ==== Sys2Proof/Laws/PerInstr.lean ====
section
/-! SUPPORT. What holds of every instruction as syntax: a command is written as a word for CMD, a token as the bytes of a
stream, as few as its bits need (30_encoding.md R100, R103 to R107). -/

namespace Sys2Proof.Laws.EncodingForm

/-- How many bits the encoder stores for an instruction: a word of 32, or a token's bits, 2 for the truncated terminator
(30_encoding.md R100, R103 to R106). -/
def storedBits : Instr → Nat
  | .readBits _ => 32
  | .writeBits _ => 32
  | .decompress _ => 32
  | .compress _ => 32
  | .decrypt _ => 32
  | .encrypt _ => 32
  | .decode _ => 32
  | .encode _ => 32
  | .badOp _ => 32
  | .lit _ => 9
  | .ref _ _ => 18
  | .term => 14
  | .term2 => 2

/-- The form of an instruction's encoding. -/
def Statement (i : Instr) : Prop :=
  match encode i with
  | .word _ => i.isCommand = true ∧ storedBits i = 32
  | .stream bytes => i.isCommand = false ∧ bytes.length = (storedBits i + 7) / 8

theorem readBits (sel : Space) : Statement (.readBits sel) := ⟨rfl, rfl⟩

theorem writeBits (sel : Space) : Statement (.writeBits sel) := ⟨rfl, rfl⟩

theorem decompress (sel : Space) : Statement (.decompress sel) := ⟨rfl, rfl⟩

theorem compress (sel : Space) : Statement (.compress sel) := ⟨rfl, rfl⟩

theorem decrypt (sel : Space) : Statement (.decrypt sel) := ⟨rfl, rfl⟩

theorem encrypt (sel : Space) : Statement (.encrypt sel) := ⟨rfl, rfl⟩

theorem decode (sel : Space) : Statement (.decode sel) := ⟨rfl, rfl⟩

theorem encode (sel : Space) : Statement (.encode sel) := ⟨rfl, rfl⟩

theorem badOp (w : Word) : Statement (.badOp w) := ⟨rfl, rfl⟩

theorem lit (v : Byte) : Statement (.lit v) := ⟨rfl, Sys2Proof.Machine.packBits_length _ _⟩

theorem ref (e : BitVec 13) (l : BitVec 4) : Statement (.ref e l) := ⟨rfl, Sys2Proof.Machine.packBits_length _ _⟩

theorem term : Statement .term := ⟨rfl, Sys2Proof.Machine.packBits_length _ _⟩

theorem term2 : Statement .term2 := ⟨rfl, Sys2Proof.Machine.packBits_length _ _⟩

end Sys2Proof.Laws.EncodingForm
end

