-- ==== Sys2Proof/Laws/Step.lean ====
section
/-! SUPPORT. What one step does, said once for each kind of host transaction. -/

namespace Sys2Proof.Machine

theorem step_nil {s : State} (h : s.host = []) : step s = .next s := by
  unfold step
  rw [h]

/-- With the core IDLE the step is the host's next transaction (20_memory.md R73). -/
theorem step_idle {s : State} {op : HostOp} {rest : List HostOp} (hc : s.core = .idle) (h : s.host = op :: rest) :
    step s = hostAccess op { s with host := rest } := by
  have hn : ¬ (s.core = .busy ∧ op.whileBusy = false) := by rw [hc]; simp
  unfold step
  rw [h]
  exact if_neg hn

/-- While BUSY every transaction but a STATUS read is refused (70_reset_and_hazards.md R281). -/
theorem step_busy {s : State} {op : HostOp} {rest : List HostOp} (hc : s.core = .busy) (h : s.host = op :: rest)
    (hop : op.whileBusy = false) : step s = .refused .hostAccessWhileBusy := by
  have hn : s.core = .busy ∧ op.whileBusy = false := ⟨hc, hop⟩
  unfold step
  rw [h]
  exact if_pos hn

/-- While BUSY a STATUS read is done (70_reset_and_hazards.md R281). -/
theorem step_busy_status {s : State} {op : HostOp} {rest : List HostOp} (h : s.host = op :: rest)
    (hop : op.whileBusy = true) : step s = hostAccess op { s with host := rest } := by
  have hn : ¬ (s.core = .busy ∧ op.whileBusy = false) := by rw [hop]; simp
  unfold step
  rw [h]
  exact if_neg hn

/-- A write of CMD is exec of the command the word encodes (60_exceptions.md R240). -/
theorem hostAccess_cmd (w : Word) (s : State) : hostAccess (.wr 0 w) s = exec (decodeCmd w) s := rfl

/-- A write of another slot is the register's write (10_state.md R53). -/
theorem hostAccess_wr {slot : Fin 16} (h : regOfSlot slot ≠ .cmd) (data : Word) (s : State) :
    hostAccess (.wr slot data) s = .next (s.writeReg data (regOfSlot slot)) := if_neg h

theorem readReg_with_host (s : State) (rest : List HostOp) (r : Reg) :
    ({ s with host := rest } : State).readReg r = s.readReg r := by cases r <;> rfl

/-- A register read (10_state.md R53). -/
theorem step_rd {s : State} {slot : Fin 16} {rest : List HostOp} (hc : s.core = .idle) (h : s.host = .rd slot :: rest) :
    step s = .next { s with
      host := rest
      replies := s.replies ++ [.reg slot (s.readReg (regOfSlot slot))] } := by
  rw [step_idle hc h, ← readReg_with_host s rest]
  rfl

theorem hostAccess_mw {s : State} {sp : Space} {a : Nat} (v : Byte) (h : a < s.size sp) :
    hostAccess (.mw sp a v) s = .next (s.withMem sp (Memory.write (s.mem sp) a v)) := by
  simp only [hostAccess, memWrite_of_lt v h]

theorem hostAccess_mr {s : State} {sp : Space} {a : Nat} (h : a < s.size sp) :
    hostAccess (.mr sp a) s = .next (s.reply (.byte sp a (s.byteAt sp a))) := by
  simp only [hostAccess, memRead_of_lt h]

theorem hostAccess_mw_out {s : State} {sp : Space} {a : Nat} (v : Byte) (h : s.size sp ≤ a) :
    hostAccess (.mw sp a v) s = .fault .hostOutOfRange := by
  simp only [hostAccess, State.memWrite, if_neg (Nat.not_lt.mpr h)]

theorem hostAccess_mr_out {s : State} {sp : Space} {a : Nat} (h : s.size sp ≤ a) :
    hostAccess (.mr sp a) s = .fault .hostOutOfRange := by
  simp only [hostAccess, State.memRead, if_neg (Nat.not_lt.mpr h)]

@[simp] theorem size_with_host (s : State) (rest : List HostOp) (sp : Space) :
    ({ s with host := rest } : State).size sp = s.size sp := by cases sp <;> rfl

@[simp] theorem byteAt_with_host (s : State) (rest : List HostOp) (sp : Space) (a : Nat) :
    ({ s with host := rest } : State).byteAt sp a = s.byteAt sp a := by cases sp <;> rfl

/-- The command decoder answers commands only (30_encoding.md R101). -/
theorem decodeCmd_isCommand (w : Word) : (decodeCmd w).isCommand = true := by
  unfold decodeCmd
  split
  · rfl
  · simp only
    split <;> rfl

/-- Every command ends IDLE (60_exceptions.md R241, R242). -/
theorem runCommand_idle {check : State → Option FaultCode} {rule : State → Option State} {s t : State}
    (h : runCommand check rule s = .next t) : t.core = .idle := by
  rcases runCommand_next_iff.mp h with ⟨code, -, rfl⟩ | ⟨-, u, -, rfl⟩ <;> rfl

theorem exec_idle {i : Instr} {s t : State} (hi : i.isCommand = true) (h : exec i s = .next t) : t.core = .idle := by
  cases i with
  | readBits sel => exact runCommand_idle h
  | writeBits sel => exact runCommand_idle h
  | decompress sel => exact runCommand_idle h
  | compress sel => exact runCommand_idle h
  | decrypt sel => exact runCommand_idle h
  | encrypt sel => exact runCommand_idle h
  | decode sel => exact runCommand_idle h
  | encode sel => exact runCommand_idle h
  | badOp w => injection h with h; subst h; rfl
  | lit v => cases hi
  | ref e l => cases hi
  | term => cases hi
  | term2 => cases hi

theorem writeReg_core (s : State) (data : Word) (r : Reg) : (s.writeReg data r).core = s.core := by cases r <;> rfl

theorem withMem_core (s : State) (sp : Space) (mem : Memory) : (s.withMem sp mem).core = s.core := by cases sp <;> rfl

/-- A host transaction leaves an IDLE core IDLE: commands are atomic (10_state.md R30). -/
theorem hostAccess_idle {op : HostOp} {s t : State} (hc : s.core = .idle) (h : hostAccess op s = .next t) :
    t.core = .idle := by
  cases op with
  | wr slot data =>
    by_cases hs : regOfSlot slot = .cmd
    · rw [hostAccess, hostWrite, if_pos hs] at h
      exact exec_idle (decodeCmd_isCommand data) h
    · rw [hostAccess_wr hs] at h
      injection h with h
      rw [← h, writeReg_core, hc]
  | rd slot => injection h with h; subst h; exact hc
  | mw sp a v =>
    by_cases ha : a < s.size sp
    · rw [hostAccess_mw v ha] at h
      injection h with h
      rw [← h, withMem_core, hc]
    · rw [hostAccess_mw_out v (Nat.not_lt.mp ha)] at h
      cases h
  | mr sp a =>
    by_cases ha : a < s.size sp
    · rw [hostAccess_mr ha] at h
      injection h with h
      subst h
      exact hc
    · rw [hostAccess_mr_out (Nat.not_lt.mp ha)] at h
      cases h

/-- A step leaves an IDLE core IDLE (10_state.md R30). -/
theorem step_core_idle {s t : State} (hc : s.core = .idle) (h : step s = .next t) : t.core = .idle := by
  cases hh : s.host with
  | nil => rw [step_nil hh] at h; injection h with h; subst h; exact hc
  | cons op rest =>
    rw [step_idle hc hh] at h
    exact hostAccess_idle (by exact hc) h

/-! ## Runs -/

@[simp] theorem run_zero (s : State) : run 0 s = .next s := rfl

/-- A run is its first step and the run after it. -/
theorem run_succ {s t : State} (n : Nat) (h : step s = .next t) : run (n + 1) s = run n t := by
  unfold run
  rw [Host.Core.run]
  simp only [h]

/-- A run that answers a next state made a first step. -/
theorem run_succ_next {s u : State} {n : Nat} (h : run (n + 1) s = .next u) :
    ∃ t, step s = .next t ∧ run n t = .next u := by
  cases hs : step s with
  | next t => exact ⟨t, rfl, by rw [← run_succ n hs]; exact h⟩
  | fault r =>
    unfold run at h
    rw [Host.Core.run] at h
    simp [hs] at h
  | refused r =>
    unfold run at h
    rw [Host.Core.run] at h
    simp [hs] at h

/-- What every step keeps holds along a run. -/
theorem run_keeps {p : State → Prop} (hp : ∀ s t, p s → step s = .next t → p t) (n : Nat) :
    ∀ {s t : State}, p s → run n s = .next t → p t := by
  induction n with
  | zero => intro s t hs h; injection h with h; rwa [← h]
  | succ n ih =>
    intro s t hs h
    obtain ⟨u, h1, h2⟩ := run_succ_next h
    exact ih (hp s u hs h1) h2

/-- A run from an IDLE core stays IDLE, so the host's duty while BUSY never arises (70_reset_and_hazards.md R281). -/
theorem run_core_idle {n : Nat} {s t : State} (hc : s.core = .idle) (h : run n s = .next t) : t.core = .idle :=
  run_keeps (p := fun s => s.core = .idle) (fun _ _ => step_core_idle) n hc h

theorem keepsBusyDuty_of_idle {s : State} (hc : s.core = .idle) : KeepsBusyDuty s :=
  fun hb => by rw [hc] at hb; cases hb

end Sys2Proof.Machine
end

