-- ==== Sys2Proof/Tests/Slice0.lean ====
section
/-! SUPPORT. Tests. Expected values are those of 95_test_vectors.md (the vector's name stands at the test), or written out by
hand from the encoding tables of 30_encoding.md. After them, one witness for the hypotheses of each statement that has
any. -/

-- One thread: the many kernel evaluations below would each start one.
set_option Elab.async false

namespace Sys2Proof.Tests

open Sys2Proof Sys2Proof.Machine

/-! ## Helpers -/

/-- A machine after reset with small memories, `src` in SRC and SRC_LEN its length, `dst` in DST. -/
def small (src dst : List Byte) : State :=
  { State.reset with
    src := Memory.writeBytes [] 0 src
    dst := Memory.writeBytes [] 0 dst
    srcLen := BitVec.ofNat 32 src.length
    launch := { srcMem := 64, dstMem := 64, histInit := [] } }

/-- `small` with DST_LEN. -/
def sized (src dst : List Byte) (dstLen : Word) : State := { small src dst with dstLen := dstLen }

/-- `small` with the bit position, BIT_N and BIT_DATA. -/
def bits (src dst : List Byte) (cursor : Word) (mask : Byte) (n : BitVec 5) (data : BitVec 16) : State :=
  { small src dst with bitCursor := cursor, bitMask := mask, bitN := n, bitData := data }

/-- `small` with the cipher's registers. -/
def keyed (src dst : List Byte) (dstLen block : Word) (key : BitVec 16) : State :=
  { small src dst with dstLen := dstLen, ciphBlock := block, ciphKey := key }

/-- The next state, if there is one. -/
def next? : Host.Outcome State Fault Refusal → Option State
  | .next t => some t
  | .fault _ => none
  | .refused _ => none

/-- The first `n` bytes of a memory. -/
def bytes (mem : Memory) (n : Nat) : List Byte := (List.range n).map (Memory.read mem)

theorem exists_next {o : Host.Outcome State Fault Refusal} (h : (next? o).isSome = true) : ∃ t, o = .next t := by
  cases o with
  | next t => exact ⟨t, rfl⟩
  | fault r => cases h
  | refused r => cases h

theorem exists_next_and {o : Host.Outcome State Fault Refusal} {p : State → Prop} [DecidablePred p]
    (h : (next? o).any (fun t => decide (p t)) = true) : ∃ t, o = .next t ∧ p t := by
  cases o with
  | next t => exact ⟨t, rfl, of_decide_eq_true h⟩
  | fault r => cases h
  | refused r => cases h

/-! ## WellFormed: what it refuses -/

/-- BAD_OP does not carry a legal command word (30_encoding.md R100, R101). -/
theorem test_wellFormed_badOp :
    Instr.wellFormed (.badOp 0x00000015#32) = false ∧ Instr.wellFormed (.badOp 0x00000009#32) = true ∧
      Instr.wellFormed (.badOp 0x00000020#32) = true ∧ Instr.wellFormed (.badOp 0x00000010#32) = true := by decide

/-- A REF has no index 0 (30_encoding.md R104). -/
theorem test_wellFormed_ref : Instr.wellFormed (.ref 0#13 5#4) = false ∧ Instr.wellFormed (.ref 1#13 5#4) = true := by
  decide

/-! ## Decoding: words written out from the encoding tables -/

/-- `[31:5] = 0 | SEL | OP` (30_encoding.md R100). -/
theorem test_decode_commands :
    decodeTableWord 32 0b00000000000000000000000000000001 = some (.readBits .src) ∧
    decodeTableWord 32 0b00000000000000000000000000000010 = some (.writeBits .src) ∧
    decodeTableWord 32 0b00000000000000000000000000000011 = some (.decompress .src) ∧
    decodeTableWord 32 0b00000000000000000000000000000100 = some (.compress .src) ∧
    decodeTableWord 32 0b00000000000000000000000000010101 = some (.decrypt .dst) ∧
    decodeTableWord 32 0b00000000000000000000000000000110 = some (.encrypt .src) ∧
    decodeTableWord 32 0b00000000000000000000000000000111 = some (.decode .src) ∧
    decodeTableWord 32 0b00000000000000000000000000001000 = some (.encode .src) := by decide

/-- Reserved words: OP 0, OP 9 to 15, a bit of [31:5] (30_encoding.md R100, R101; PR6). -/
theorem test_decode_badOp :
    decodeTableWord 32 0x00000000 = some (.badOp 0x00000000#32) ∧
    decodeTableWord 32 0x0000001F = some (.badOp 0x0000001F#32) ∧
    decodeTableWord 32 0x00000021 = some (.badOp 0x00000021#32) ∧
    decodeTableWord 32 0x80000003 = some (.badOp 0x80000003#32) := by decide

/-- `1 vvvvvvvv`, packed from bit 7 of the first byte: 1 01000001 is A0 80 (30_encoding.md R103, R107). -/
theorem test_decode_lit :
    decode (.stream [0xA0#8, 0x80#8]) = some (.lit 0x41#8) ∧ decodeTableWord 16 0x80A0 = some (.lit 0x41#8) := by decide

/-- `0 eeeeeeeeeeeee llll`: 0 1111111111111 0001 is 7F FC 40 (30_encoding.md R104, R107). -/
theorem test_decode_ref :
    decode (.stream [0x7F#8, 0xFC#8, 0x40#8]) = some (.ref 8191#13 1#4) ∧
    decodeTableWord 24 0x40FC7F = some (.ref 8191#13 1#4) := by decide

/-- Fourteen zeros, and the two of a truncated one (30_encoding.md R105, R106; log 10). -/
theorem test_decode_terminators :
    decodeTableWord 16 0x0000 = some .term ∧ decodeTableWord 8 0x00 = some .term2 := by decide

/-- The encoder writes the same words and bytes. -/
theorem test_encode :
    encode (.encrypt .dst) = .word 0x00000016#32 ∧ encode (.lit 0x41#8) = .stream [0xA0#8, 0x80#8] ∧
    encode (.ref 8191#13 1#4) = .stream [0x7F#8, 0xFC#8, 0x40#8] ∧ encode .term = .stream [0x00#8, 0x00#8] ∧
    encode .term2 = .stream [0x00#8] := by decide

/-! ## One step of each instruction -/

/-- V-B13: a field across a byte boundary. -/
theorem test_readBits_across :
    (next? (exec (.readBits .src) (bits [0x12#8, 0x34#8, 0x56#8] [] 1#32 0x01#8 9#5 0xFFFF#16))).map
      (fun t => (t.bitData, t.bitCursor, t.bitMask, t.status)) = some (0x0056#16, 3#32, 0x80#8, 0x002#32) := by
  decide +kernel

/-- V-B3: bits past the end read 0 and the position stops there. -/
theorem test_readBits_past_end :
    (next? (exec (.readBits .dst) (bits [0xA5#8, 0x3C#8] [] 1#32 0x08#8 8#5 0#16))).map
      (fun t => (t.bitData, t.bitCursor, t.bitMask, t.status)) = some (0x00C0#16, 2#32, 0x80#8, 0x002#32) := by
  decide +kernel

/-- V-B11: sixteen bits over three bytes. -/
theorem test_writeBits_across :
    (next? (exec (.writeBits .src) (bits [] [] 0#32 0x02#8 16#5 0xABCD#16))).map
      (fun t => (bytes t.dst 3, t.bitCursor, t.bitMask, t.status)) =
      some ([0x02#8, 0xAF#8, 0x34#8], 2#32, 0x02#8, 0x002#32) := by decide +kernel

/-- V-B10: the bits are ORed with the old byte. -/
theorem test_writeBits_or :
    (next? (exec (.writeBits .src) (bits [] [0x0F#8] 0#32 0x80#8 4#5 0xA#16))).map
      (fun t => (bytes t.dst 1, t.bitCursor, t.bitMask)) = some ([0xAF#8], 0#32, 0x08#8) := by decide +kernel

/-- V-D4: a REF that reads across the end of HIST. -/
theorem test_decompress_wrap :
    (next? (exec (.decompress .src) (sized [0xBC#8, 0x5E#8, 0x5F#8, 0xFF#8, 0x10#8, 0x00#8, 0x00#8] [] 6#32))).map
      (fun t => (bytes t.dst 6, t.resultLen, t.status, t.rd)) =
      some ([0x78#8, 0x79#8, 0x00#8, 0x00#8, 0x78#8, 0x79#8], 6#32, 0x002#32, { cur := 6, mask := 0x20#8 }) := by
  decide +kernel

/-- PR7, on a DST that holds something: OVERRUN, and the bytes from DST_LEN on stay. -/
theorem test_decompress_overrun :
    (next? (exec (.decompress .src)
      (sized [0xBC#8, 0x5E#8, 0x5F#8, 0xFF#8, 0x10#8, 0x00#8, 0x00#8] [1#8, 2#8, 3#8, 4#8, 5#8, 6#8] 4#32))).map
      (fun t => (bytes t.dst 6, t.resultLen, t.status)) =
      some ([0x78#8, 0x79#8, 0x00#8, 0x00#8, 5#8, 6#8], 6#32, 0x012#32) := by decide +kernel

/-- V-C6: a match of length 6 at distance 3. -/
theorem test_compress_match :
    (next? (exec (.compress .src)
      (small [0x41#8, 0x42#8, 0x43#8, 0x41#8, 0x42#8, 0x43#8, 0x41#8, 0x42#8, 0x43#8] []))).map
      (fun t => (bytes t.dst 6, t.resultLen, t.cap, t.wr, t.status)) =
      some ([0xA0#8, 0xD0#8, 0xA8#8, 0x60#8, 0x00#8, 0x98#8], 6#32, 13, { cur := 5, mask := 0x01#8 }, 0x002#32) := by
  decide +kernel

/-- V-C10: the longer match wins over the nearer. -/
theorem test_compress_longest :
    (next? (exec (.compress .src)
      (small [0x41#8, 0x42#8, 0x43#8, 0x44#8, 0x78#8, 0x41#8, 0x42#8, 0x43#8, 0x79#8, 0x41#8, 0x42#8, 0x43#8, 0x44#8]
        []))).map (fun t => (bytes t.dst 12, t.resultLen)) =
      some ([0xA0#8, 0xD0#8, 0xA8#8, 0x74#8, 0x4B#8, 0xC0#8, 0x00#8, 0x21#8, 0x79#8, 0x00#8, 0x04#8, 0x40#8], 12#32) := by
  decide +kernel

/-- V-X5: two blocks, a kept remainder, masks that go on over the blocks. -/
theorem test_decrypt_blocks :
    (next? (exec (.decrypt .src)
      (keyed [1#8, 2#8, 3#8, 4#8, 5#8, 6#8, 7#8, 8#8, 9#8] [] 0#32 4#32 0x1110#16))).map
      (fun t => (bytes t.src 9, t.resultLen, t.status)) =
      some ([0x47#8, 0x23#8, 0x31#8, 0x11#8, 0x8F#8, 0x63#8, 0x71#8, 0x51#8, 0x09#8], 8#32, 0x002#32) := by decide +kernel

/-- V-X16: SEL = 1 works on DST and leaves SRC alone. -/
theorem test_decrypt_dst :
    (next? (exec (.decrypt .dst) (keyed [9#8] [1#8, 2#8, 3#8, 4#8] 4#32 4#32 0x0100#16))).map
      (fun t => (bytes t.dst 4, bytes t.src 1, t.resultLen)) = some ([7#8, 3#8, 1#8, 1#8], [9#8], 4#32) := by
  decide +kernel

/-- V-X8: an odd block size. -/
theorem test_encrypt_odd_block :
    (next? (exec (.encrypt .src) (keyed [1#8, 2#8, 3#8, 4#8, 5#8, 6#8] [] 0#32 3#32 0#16))).map
      (fun t => (bytes t.src 6, t.resultLen)) = some ([3#8, 1#8, 2#8, 6#8, 4#8, 5#8], 6#32) := by decide +kernel

/-- V-X4: a short last block and an odd length. -/
theorem test_encrypt_short_block :
    (next? (exec (.encrypt .src) (keyed [1#8, 2#8, 3#8, 4#8, 5#8, 6#8, 7#8] [] 0#32 4#32 0x0100#16))).map
      (fun t => (bytes t.src 7, t.resultLen)) = some ([4#8, 3#8, 1#8, 2#8, 2#8, 0#8, 7#8], 6#32) := by decide +kernel

/-- V-P2d: layer B deciphers, SRC is left with the compressed stream (44_pipeline.md R225). -/
theorem test_decode_deciphers :
    (next? (exec (.decode .src) (sized
      [0x7D#8, 0xFE#8, 0xCD#8, 0x4D#8, 0x1D#8, 0x94#8, 0xB7#8, 0x4F#8, 0x4E#8, 0xEF#8, 0xB4#8, 0x6B#8, 0x54#8, 0x7F#8,
       0x7E#8, 0x91#8, 0x65#8, 0x72#8, 0xCD#8, 0x72#8, 0x91#8, 0xBB#8, 0x61#8, 0x70#8, 0x1B#8, 0xFA#8, 0x9D#8, 0xBF#8,
       0x58#8, 0x7F#8, 0x80#8, 0x41#8, 0x2A#8, 0x25#8, 0x91#8, 0xBD#8, 0x9D#8, 0x56#8, 0xE5#8, 0xE7#8, 0xAF#8, 0x24#8,
       0x4F#8, 0xB7#8, 0xA5#8, 0x7B#8] [] 40#32))).map
      (fun t => (bytes t.dst 40, bytes t.src 4, t.resultLen, t.status)) =
      some ((List.range 40).map (BitVec.ofNat 8), [0x80#8, 0x40#8, 0x60#8, 0x50#8], 40#32, 0x002#32) := by decide +kernel

/-- V-P1d with DST_LEN 10: ERR_SIZE and OVERRUN (44_pipeline.md R221). -/
theorem test_decode_wrong_size :
    (next? (exec (.decode .src) (sized [0xD5#8, 0x00#8, 0x03#8, 0xFA#8, 0xA0#8] [] 10#32))).map
      (fun t => (bytes t.dst 11, t.resultLen, t.status)) =
      some (List.replicate 10 0xAA#8 ++ [0x00#8], 20#32, 0x01A#32) := by decide +kernel

/-- V-P1. -/
theorem test_encode_short :
    (next? (exec (.encode .src) (small (List.replicate 20 0xAA#8) (List.replicate 25 0xFF#8)))).map
      (fun t => (bytes t.dst 25, t.resultLen, t.status)) =
      some ([0xD5#8, 0x00#8, 0x03#8, 0xFA#8, 0xA0#8] ++ List.replicate 20 0x00#8, 5#32, 0x002#32) := by decide +kernel

/-- V-P2: 46 compressed bytes, which layer B enciphers. -/
theorem test_encode_enciphered :
    (next? (exec (.encode .src) (small ((List.range 40).map (BitVec.ofNat 8)) []))).map
      (fun t => (bytes t.dst 8, t.resultLen, t.status)) =
      some ([0x7D#8, 0xFE#8, 0xCD#8, 0x4D#8, 0x1D#8, 0x94#8, 0xB7#8, 0x4F#8], 46#32, 0x002#32) := by decide +kernel

/-- PR6: a reserved word's fault, and the fault log. -/
theorem test_badOp :
    (next? (exec (.badOp 0x00000021#32) (small [0xA5#8] []))).map (fun t => (t.status, t.faultLog, t.src, t.core)) =
      some (0x122#32, [.badOp], [(0, 0xA5#8)], .idle) := by decide +kernel

/-- A literal within DST_LEN (41_lzss_decompress.md R163, R165; the first token of V-D6). -/
theorem test_lit_stores :
    (next? (exec (.lit 0x41#8) (sized [0xA0#8, 0x80#8, 0x00#8] [] 1#32))).map
      (fun t => (bytes t.dst 1, t.histRead 0, t.q, t.ovr, t.rd)) =
      some ([0x41#8], 0x41#8, 1, false, { cur := 1, mask := 0x40#8 }) := by decide +kernel

/-- A literal past DST_LEN still enters HIST and counts (41_lzss_decompress.md R165). -/
theorem test_lit_overruns :
    (next? (exec (.lit 0x41#8) { sized [0xA0#8, 0x80#8, 0x00#8] [] 3#32 with q := 8195 })).map
      (fun t => (t.dst, t.histRead 3, t.q, t.ovr)) = some ([], 0x41#8, 8196, true) := by decide +kernel

/-- The overlapping copy of V-D2: length 5 at distance 1. -/
theorem test_ref_overlap :
    (next? (exec (.ref 1#13 2#4)
      { sized [0xB0#8, 0x80#8, 0x02#8, 0x40#8] [0x61#8] 6#32 with
        q := 1, hist := [(0, 0x61#8)], rd := { cur := 1, mask := 0x40#8 } })).map
      (fun t => (bytes t.dst 6, t.q, t.rd)) = some (List.replicate 6 0x61#8, 6, { cur := 3, mask := 0x10#8 }) := by
  decide +kernel

/-- V-D5's REF at distance 8192: HIST's old bytes. -/
theorem test_ref_far :
    (next? (exec (.ref 3#13 0#4)
      { sized [0xBC#8, 0x5E#8, 0x40#8, 0x03#8, 0x00#8, 0x00#8, 0x00#8] [0x78#8, 0x79#8] 5#32 with
        q := 2, hist := [(0, 0x78#8), (1, 0x79#8), (2, 7#8), (4, 8#8)], rd := { cur := 2, mask := 0x20#8 } })).map
      (fun t => (bytes t.dst 5, t.q, t.rd)) =
      some ([0x78#8, 0x79#8, 7#8, 0#8, 8#8], 5, { cur := 4, mask := 0x08#8 }) := by decide +kernel

/-- The TERM of V-D6: 14 bits read, no byte. -/
theorem test_term :
    (next? (exec .term { sized [0xA0#8, 0x80#8, 0x00#8] [] 1#32 with q := 1, rd := { cur := 1, mask := 0x40#8 } })).map
      (fun t => (t.term, t.q, t.rd, t.dst)) = some (true, 1, { cur := 2, mask := 0x01#8 }, []) := by decide +kernel

/-- The TERM2 of V-D10: the reader stops at the end of the buffer. -/
theorem test_term2 :
    (next? (exec .term2 (sized [0x00#8] [] 4#32))).map (fun t => (t.term, t.q, t.rd, t.dst)) =
      some (true, 0, { cur := 1, mask := 0x80#8 }, []) := by decide +kernel

/-! ## Steps -/

/-- PR6's first READ_BITS after reset: BAD_WIDTH, since BIT_N is 0. -/
theorem test_step_from_reset :
    (next? (step (State.reset.withFetchWord 32 0x00000001))).map (fun t => (t.status, t.host)) = some (0x222#32, []) := by
  decide +kernel

/-- A token row run as the first instruction after reset: DECOMPRESS runs it first (log 11, log 17). -/
theorem test_step_token :
    (next? (step (State.reset.withFetchWord 16 0x80A0))).map (fun t => (t.q, t.histRead 0, t.status)) =
      some (1, 0x41#8, 0x012#32) := by decide +kernel

/-! ## Witnesses: each meets the hypotheses of the statement it is named after -/

theorem witness_DecodeEncodeRoundTrip :
    Instr.wellFormed (.ref 8191#13 15#4) = true ∧ Instr.wellFormed (.badOp 0xFFFFFFFF#32) = true ∧
      Instr.wellFormed .term2 = true := by decide

theorem witness_CommandWordTable : (0x00000009#32 : Word) ∉ [0x01#32, 0x02#32, 0x03#32, 0x04#32, 0x05#32, 0x15#32, 0x06#32,
    0x16#32, 0x07#32, 0x08#32, 0x11#32, 0x12#32, 0x13#32, 0x14#32, 0x17#32, 0x18#32] := by decide

theorem witness_TokenDecoderTotal : ([0x00#8] : List Byte) ≠ [] := by decide

/-- All three clauses, on 9 bits from the last bit of a byte to the end of the buffer. -/
theorem witness_BitEngineRoundTrip :
    oneHot 0x01#8 = true ∧ 2 ≤ (small [0xA5#8, 0x3C#8] []).size .dst ∧
      (∀ i, i < 9 → (bitOffset { cur := 0, mask := 0x01#8 } + i) / 8 < 2) ∧
      Memory.wf ((small [0xA5#8, 0x3C#8] []).mem .dst) = true ∧
      (∀ i, i < 9 → streamBit ((small [0xA5#8, 0x3C#8] []).mem .dst) (bitOffset { cur := 0, mask := 0x01#8 } + i) = false) ∧
      ∃ t pos', (small [0xA5#8, 0x3C#8] []).writeBits .dst 0x1FF 9 { cur := 0, mask := 0x01#8 } = some (t, pos') :=
  ⟨by decide, by decide, by decide, by decide, by decide, _, _, rfl⟩

theorem witness_BitEngineConcatenation :
    2 ≤ (small [0xA5#8, 0x3C#8] []).size .src ∧
      ∃ t u pos1 pos2, (small [0xA5#8, 0x3C#8] []).writeBits .dst 5 3 BitPos.first = some (t, pos1) ∧
        t.writeBits .dst 0x1FF 9 pos1 = some (u, pos2) :=
  ⟨by decide, _, _, _, _, rfl, rfl⟩

/-- BIT_N at both ends of its range. -/
theorem witness_ReadBitsReadsField :
    ∀ n ∈ [1#5, 16#5], ∀ mask ∈ [0x80#8, 0x01#8],
      (bits [0xA5#8, 0x3C#8] [] 1#32 mask n 0#16).srcLen.toNat ≤ (bits [0xA5#8, 0x3C#8] [] 1#32 mask n 0#16).launch.srcMem ∧
        1 ≤ n.toNat ∧ n.toNat ≤ 16 ∧ oneHot mask = true := by decide

/-- V-B22: the last bit written is DST's last. -/
theorem witness_WriteBitsOrsField :
    Memory.wf (bits [] [0x0F#8] 63#32 0x01#8 1#5 1#16).dst = true ∧ oneHot 0x01#8 = true ∧
      bitOffset { cur := (63#32 : Word).toNat, mask := 0x01#8 } = 511 ∧
      (511 + 1 - 1) / 8 < (bits [] [0x0F#8] 63#32 0x01#8 1#5 1#16).launch.dstMem := by decide

/-- Below DST_LEN and at it. -/
theorem witness_LitEmitsByte :
    ∀ q ∈ [2, 3], ({ sized [0xA0#8] [] 3#32 with q := q } : State).dstLen.toNat ≤ 64 ∧
      oneHot ({ sized [0xA0#8] [] 3#32 with q := q } : State).rd.mask = true ∧
      Memory.wf ({ sized [0xA0#8] [] 3#32 with q := q } : State).dst = true ∧
      Memory.wf ({ sized [0xA0#8] [] 3#32 with q := q } : State).hist = true := by decide

/-- The smallest and the largest index. -/
theorem witness_RefCopiesHistory :
    1#13 ≠ 0#13 ∧ 8191#13 ≠ 0#13 ∧ (sized [0xA0#8] [] 3#32).dstLen.toNat ≤ (sized [0xA0#8] [] 3#32).launch.dstMem ∧
      oneHot (sized [0xA0#8] [] 3#32).rd.mask = true ∧ Memory.wf (sized [0xA0#8] [] 3#32).dst = true ∧
      Memory.wf (sized [0xA0#8] [] 3#32).hist = true := by decide

/-- Distance 1 (index 1 at q = 1) and distance 0 modulo 8192 (index 2 at q = 1). -/
theorem witness_OverlappingCopyRepeats :
    (∀ p ∈ [(1#13, 1), (2#13, 0)], p.1 ≠ 0#13 ∧ p.2 < 8192 ∧ (p.1.toNat - 1 + p.2) % 8192 = 1 % 8192 ∧
      ({ sized [0xA0#8] [] 3#32 with q := 1 } : State).dstLen.toNat ≤ 64 ∧
      Memory.wf ({ sized [0xA0#8] [] 3#32 with q := 1 } : State).dst = true ∧
      Memory.wf ({ sized [0xA0#8] [] 3#32 with q := 1 } : State).hist = true) ∧
    (∃ t, exec (.ref 1#13 2#4) { sized [0xA0#8] [] 3#32 with q := 1 } = .next t) ∧
    ∃ t, exec (.ref 2#13 2#4) { sized [0xA0#8] [] 3#32 with q := 1 } = .next t :=
  ⟨by decide, exists_next (by decide +kernel), exists_next (by decide +kernel)⟩

theorem witness_TerminatorsEndStream : oneHot (small [0x00#8] []).rd.mask = true := by decide

/-- A token below the end, the end itself, and a token on the last bit. -/
theorem witness_TokenLoopRunsDecodedToken :
    (sized [0xA0#8, 0x80#8] [] 3#32).rd.cur < (sized [0xA0#8, 0x80#8] [] 3#32).srcLen.toNat ∧
    (sized [0xA0#8, 0x80#8] [] 3#32).fetchToken = some (.lit 0x41#8) ∧
    (∃ t, exec (Token.instr (.lit 0x41#8)) (sized [0xA0#8, 0x80#8] [] 3#32) = .next t) ∧
    (sized [] [] 3#32).srcLen.toNat ≤ (sized [] [] 3#32).rd.cur ∧
    (sized [0xA0#8, 0x80#8] [] 3#32).srcLen.toNat ≤ (sized [0xA0#8, 0x80#8] [] 3#32).launch.srcMem ∧
    oneHot ({ sized [0xA0#8, 0x80#8] [] 3#32 with rd := { cur := 1, mask := 0x01#8 } } : State).rd.mask = true ∧
    ({ sized [0xA0#8, 0x80#8] [] 3#32 with rd := { cur := 1, mask := 0x01#8 } } : State).rd.cur <
      (sized [0xA0#8, 0x80#8] [] 3#32).srcLen.toNat :=
  ⟨by decide, by decide, exists_next (by decide +kernel), by decide, by decide, by decide, by decide⟩

theorem witness_HistoryHoldsProducedBytes :
    (Token.instr (.ref 1#13 2#4)).wellFormed = true ∧
      (decompressInit (sized [0xA0#8] [] 3#32)).dstLen.toNat ≤ (decompressInit (sized [0xA0#8] [] 3#32)).launch.dstMem ∧
      Memory.wf (decompressInit (sized [0xA0#8] [] 3#32)).hist = true ∧
      HistHolds (decompressInit (sized [0xA0#8] [] 3#32)) [] ∧
      ∃ t, exec (Token.instr (.ref 1#13 2#4)) (decompressInit (sized [0xA0#8] [] 3#32)) = .next t :=
  ⟨by decide, by decide, by decide, histHolds_decompressInit _, exists_next (by decide +kernel)⟩

/-- The state of the decompressor's and DECODE's witnesses: V-D1's stream, DST_LEN at DST_MEM. -/
def streamState : State := sized [0xD5#8, 0x00#8, 0x03#8, 0xFA#8, 0xA0#8] [] 64#32

theorem streamState_canonical : MemoriesCanonical streamState := by
  unfold MemoriesCanonical
  decide

theorem streamState_sizes : MemSizes streamState := by
  unfold MemSizes
  decide

theorem witness_DecompressProducesStream :
    MemSizes streamState ∧ MemoriesCanonical streamState ∧ streamState.srcLen.toNat ≤ streamState.launch.srcMem ∧
      streamState.dstLen.toNat ≤ streamState.launch.dstMem :=
  ⟨streamState_sizes, streamState_canonical, by decide, by decide⟩

theorem witness_DecompressBounded :
    streamState.launch.srcMem ≤ 2 ^ 27 ∧ streamState.srcLen.toNat ≤ streamState.launch.srcMem ∧
      streamState.dstLen.toNat ≤ streamState.launch.dstMem ∧ ∃ t, exec (.decompress .src) streamState = .next t :=
  ⟨by decide, by decide, by decide, exists_next (by decide +kernel)⟩

/-- A search with no match (at the start of the source) and one with a match. -/
theorem witness_SearchFindsNearestLongest :
    ∀ p ∈ [0, 1, 4], HistMirrorsSrc ({ small [7#8, 7#8, 7#8, 7#8] [] with p := p, hist := [(0, 7#8), (1, 7#8), (2, 7#8), (3, 7#8)] } : State) ∧
      4 ≤ (small [7#8, 7#8, 7#8, 7#8] []).launch.srcMem ∧ p ≤ 4 := by
  unfold HistMirrorsSrc
  decide +kernel

theorem witness_EmittedReferencesInRange_search :
    4 ≤ (small [7#8, 7#8, 7#8, 7#8] []).launch.srcMem ∧
      ∃ t, searchMatch 4 { small [7#8, 7#8, 7#8, 7#8] [] with p := 1, hist := [(0, 7#8)] } = some t ∧ Config.minMatch ≤ t.best :=
  ⟨by decide, _, rfl, by decide⟩

/-- The state of the compressor's and ENCODE's witnesses: V-C5's source. -/
def sourceState : State := small [0xAA#8, 0xAA#8, 0xAA#8, 0xAA#8] [1#8, 2#8, 3#8]

theorem sourceState_canonical : MemoriesCanonical sourceState := by
  unfold MemoriesCanonical
  decide

theorem sourceState_sizes : MemSizes sourceState := by
  unfold MemSizes
  decide

theorem witness_CompressWritesCanonicalStream :
    MemSizes sourceState ∧ MemoriesCanonical sourceState ∧ sourceState.srcLen.toNat ≤ sourceState.launch.srcMem ∧
      (9 * sourceState.srcLen.toNat + 7) / 8 + 2 ≤ sourceState.launch.dstMem :=
  ⟨sourceState_sizes, sourceState_canonical, by decide, by decide⟩

/-- V-C5's token list: a literal, then the REF of distance 1 that repeats it. -/
theorem sourceState_tokens : CanonicalTokens sourceState.src 4 0 [.lit 0xAA#8, .ref 1#13 0#4] := by
  refine ⟨by decide, by decide, fun a ha => absurd ha.1 (Nat.not_lt_zero a), by decide,
    ⟨0, ⟨⟨by decide, by decide, by decide⟩, fun a ha => ?_⟩, by decide, by decide⟩, rfl⟩
  have : a = 0 := Nat.lt_one_iff.mp ha.1
  subst this
  exact ⟨Nat.le_refl _, fun h => absurd h (Nat.lt_irrefl 0)⟩

theorem witness_EmittedReferencesInRange :
    MemSizes sourceState ∧ MemoriesCanonical sourceState ∧ sourceState.srcLen.toNat ≤ sourceState.launch.srcMem ∧
      (9 * sourceState.srcLen.toNat + 7) / 8 + 2 ≤ sourceState.launch.dstMem ∧
      (∃ t, exec (.compress .src) sourceState = .next t) ∧
      CanonicalTokens sourceState.src 4 0 [.lit 0xAA#8, .ref 1#13 0#4] ∧
      ([.lit 0xAA#8, .ref 1#13 0#4] : List Token) = [.lit 0xAA#8] ++ .ref 1#13 0#4 :: [] ∧
      coveredBytes [.lit 0xAA#8] = 1 :=
  ⟨sourceState_sizes, sourceState_canonical, by decide, by decide, exists_next (by decide +kernel), sourceState_tokens,
    rfl, rfl⟩

/-- `cap` at DST_MEM exactly, and a run. -/
theorem witness_CompressStaysWithinBound :
    (9 * sourceState.srcLen.toNat + 7) / 8 + 2 ≤ 7 ∧ MemSizes sourceState ∧ MemoriesCanonical sourceState ∧
      sourceState.srcLen.toNat ≤ sourceState.launch.srcMem ∧
      (9 * sourceState.srcLen.toNat + 7) / 8 + 2 ≤ sourceState.launch.dstMem ∧
      ∃ t, exec (.compress .src) sourceState = .next t :=
  ⟨by decide, sourceState_sizes, sourceState_canonical, by decide, by decide, exists_next (by decide +kernel)⟩

/-- The second state differs past the source, in DST and in the internal state. -/
theorem witness_CompressDependsOnSourceOnly :
    let s' : State := { sourceState with src := Memory.writeBytes [] 0 (List.replicate 6 0xAA#8), dst := [], hist := [(5, 9#8)], p := 7 }
    MemSizes sourceState ∧ MemSizes s' ∧ MemoriesCanonical sourceState ∧ MemoriesCanonical s' ∧
      sourceState.srcLen = s'.srcLen ∧
      (∀ a, a < sourceState.srcLen.toNat → sourceState.byteAt .src a = s'.byteAt .src a) ∧
      sourceState.srcLen.toNat ≤ sourceState.launch.srcMem ∧ sourceState.srcLen.toNat ≤ s'.launch.srcMem ∧
      (9 * sourceState.srcLen.toNat + 7) / 8 + 2 ≤ sourceState.launch.dstMem ∧
      (9 * sourceState.srcLen.toNat + 7) / 8 + 2 ≤ s'.launch.dstMem ∧
      (∃ t, exec (.compress .src) sourceState = .next t) ∧ ∃ t', exec (.compress .src) s' = .next t' :=
  ⟨sourceState_sizes, sourceState_sizes, sourceState_canonical, by unfold MemoriesCanonical; decide, rfl,
    by decide +kernel, by decide, by decide, by decide, by decide, exists_next (by decide +kernel),
    exists_next (by decide +kernel)⟩

/-- V-C5's stream, with DST_LEN the source's length. -/
theorem witness_CompressThenDecompressRestores :
    let u : State := sized [0xD5#8, 0x00#8, 0x02#8, 0x00#8] [] 4#32
    MemSizes sourceState ∧ MemSizes u ∧ MemoriesCanonical sourceState ∧ MemoriesCanonical u ∧
      sourceState.srcLen.toNat ≤ sourceState.launch.srcMem ∧
      (9 * sourceState.srcLen.toNat + 7) / 8 + 2 ≤ sourceState.launch.dstMem ∧
      u.srcLen.toNat ≤ u.launch.srcMem ∧ u.dstLen.toNat ≤ u.launch.dstMem ∧
      sourceState.srcLen.toNat ≤ u.dstLen.toNat ∧
      ∃ t, exec (.compress .src) sourceState = .next t ∧ u.srcLen = t.resultLen ∧
        ∀ a, a < t.resultLen.toNat → u.byteAt .src a = t.byteAt .dst a :=
  ⟨sourceState_sizes, by unfold MemSizes; decide, sourceState_canonical, by unfold MemoriesCanonical; decide, by decide,
    by decide, by decide, by decide, by decide, exists_next_and (by decide +kernel)⟩

/-- The state of the cipher's witnesses: V-X4's bytes in both memories. -/
def cipherState : State :=
  keyed [1#8, 2#8, 3#8, 4#8, 5#8, 6#8, 7#8] [1#8, 2#8, 3#8, 4#8, 5#8, 6#8, 7#8] 7#32 4#32 0x0100#16

theorem cipherState_canonical : MemoriesCanonical cipherState := by
  unfold MemoriesCanonical
  decide

theorem witness_CipherClosedForm :
    ∀ sel ∈ [Space.src, Space.dst], cipherState.cipherLen sel ≤ cipherState.size sel ∧ cipherState.ciphBlock ≠ 0#32 ∧
      ({ blockSize := 4, baseMask := 0x00#8, maskInc := 0x01#8 } : Layer) =
        { blockSize := cipherState.ciphBlock.toNat, baseMask := cipherState.ciphKey.extractLsb' 0 8,
          maskInc := cipherState.ciphKey.extractLsb' 8 8 } ∧
      6 = processedLen (cipherState.cipherLen sel) cipherState.ciphBlock.toNat ∧ MemoriesCanonical cipherState := by
  intro sel hsel
  refine ⟨?_, by decide, by decide, ?_, cipherState_canonical⟩ <;> revert sel <;> decide

/-- An odd length, and lengths at either side of a kept remainder (the table of 43_cipher.md R201). -/
theorem witness_ProcessedLengthRule :
    (cipherState.cipherLen .src = 7 ∧ cipherState.ciphBlock.toNat = 4 ∧ cipherState.cipherLen .src ≤ cipherState.size .src ∧
      cipherState.ciphBlock.toNat ≠ 0 ∧ ∃ t, exec (.decrypt .src) cipherState = .next t) ∧
    processedLen 9 4 = 8 ∧ processedLen 10 8 = 10 ∧ processedLen 31 0x80 = 0 ∧ processedLen 0x11FF 0x800 = 0xFFF :=
  ⟨⟨by decide, by decide, by decide, by decide, exists_next (by decide +kernel)⟩, by decide, by decide, by decide,
    by decide⟩

/-- The run's clause at B = 1 and L = DST_MEM; the worked example's values for the last. -/
theorem witness_CipherInverseLaw :
    let ex := keyed [] [1#8, 2#8, 3#8, 4#8] 4#32 4#32 0x0100#16
    (1 ≤ ({ blockSize := 1, baseMask := 0#8, maskInc := 1#8 } : Layer).blockSize ∧ 64 ≤ cipherState.size .dst ∧
      Memory.wf (cipherState.mem .dst) = true) ∧
    MemoriesCanonical cipherState ∧ cipherState.cipherLen .dst ≤ cipherState.size .dst ∧ cipherState.ciphBlock ≠ 0#32 ∧
      MemoriesCanonical ex ∧ ex.cipherLen .dst ≤ ex.size .dst ∧ ex.cipherLen .dst = 4 ∧ ex.ciphBlock = 4#32 ∧
      ex.ciphKey = 0x0100#16 ∧ (List.range 4).map (ex.byteAt .dst) = [0x01#8, 0x02#8, 0x03#8, 0x04#8] :=
  ⟨by decide, cipherState_canonical, by decide, by decide, by unfold MemoriesCanonical; decide, by decide, by decide, rfl,
    rfl, by decide⟩

/-- L = 31 meets every clause: below both thresholds, a small remainder, odd. -/
theorem witness_LayersLeaveShortStreams :
    MemoriesCanonical cipherState ∧ 31 ≤ cipherState.size .src ∧ 31 < 0x20 ∧ 31 % 0x80 < 0x20 ∧ 31 % 2 = 1 ∧
      31 < 0x200 ∧ 31 % 0x800 < 0x200 :=
  ⟨cipherState_canonical, by decide, by decide, by decide, by decide, by decide, by decide⟩

theorem witness_DecodeDeciphersThenDecompresses :
    MemSizes streamState ∧ MemoriesCanonical streamState ∧ streamState.srcLen.toNat ≤ streamState.launch.srcMem ∧
      streamState.dstLen.toNat ≤ streamState.launch.dstMem := witness_DecompressProducesStream

theorem witness_EncodeCompressesThenEnciphers :
    MemSizes sourceState ∧ MemoriesCanonical sourceState ∧ sourceState.srcLen.toNat ≤ sourceState.launch.srcMem ∧
      (9 * sourceState.srcLen.toNat + 7) / 8 + 2 ≤ sourceState.launch.dstMem := witness_CompressWritesCanonicalStream

theorem witness_PipelinesEqualByHand :
    (MemSizes streamState ∧ MemoriesCanonical streamState ∧ streamState.srcLen.toNat ≤ streamState.launch.srcMem ∧
      streamState.dstLen.toNat ≤ streamState.launch.dstMem) ∧
    MemSizes sourceState ∧ MemoriesCanonical sourceState ∧ sourceState.srcLen.toNat ≤ sourceState.launch.srcMem ∧
      (9 * sourceState.srcLen.toNat + 7) / 8 + 2 ≤ sourceState.launch.dstMem :=
  ⟨witness_DecompressProducesStream, witness_CompressWritesCanonicalStream⟩

theorem witness_EncodeThenDecodeRestores :
    let u : State := sized [0xD5#8, 0x00#8, 0x02#8, 0x00#8] [] 4#32
    MemSizes sourceState ∧ MemSizes u ∧ MemoriesCanonical sourceState ∧ MemoriesCanonical u ∧
      sourceState.srcLen.toNat ≤ sourceState.launch.srcMem ∧
      (9 * sourceState.srcLen.toNat + 7) / 8 + 2 ≤ sourceState.launch.dstMem ∧
      u.srcLen.toNat ≤ u.launch.srcMem ∧ u.dstLen = sourceState.srcLen ∧ u.dstLen.toNat ≤ u.launch.dstMem ∧
      ∃ t, exec (.encode .src) sourceState = .next t ∧ u.srcLen = t.resultLen ∧
        ∀ a, a < t.resultLen.toNat → u.byteAt .src a = t.byteAt .dst a :=
  ⟨sourceState_sizes, by unfold MemSizes; decide, sourceState_canonical, by unfold MemoriesCanonical; decide, by decide,
    by decide, by decide, by decide, by decide, exists_next_and (by decide +kernel)⟩

theorem witness_BadOpTakesFault : Word.reserved 0x00000000#32 = true ∧ Word.reserved 0x00000021#32 = true := by decide

/-- Each row's checks failing one after the other, at the boundary (V-B17 to V-B24, V-D15, V-C14, V-X15), and passing. -/
theorem witness_IssueChecksInOrder :
    (([(.readBits .src, { bits [] [] 0#32 0x03#8 0#5 0#16 with srcLen := 65#32 }),
       (.readBits .src, { bits [] [] 0#32 0x03#8 17#5 0#16 with srcLen := 64#32 }),
       (.readBits .src, bits [] [] 0#32 0x03#8 16#5 0#16),
       (.readBits .src, bits [] [] 0#32 0x01#8 1#5 0#16),
       (.writeBits .src, bits [] [] 64#32 0x03#8 0#5 0#16),
       (.writeBits .src, bits [] [] 64#32 0x03#8 1#5 0#16),
       (.writeBits .src, bits [] [] 63#32 0x01#8 2#5 0#16),
       (.writeBits .src, bits [] [] 63#32 0x01#8 1#5 0#16),
       (.decompress .src, { sized [] [] 64#32 with srcLen := 65#32 }),
       (.decompress .src, sized [] [] 65#32),
       (.compress .src, { small [] [] with srcLen := 55#32, launch := { srcMem := 54, dstMem := 64, histInit := [] } }),
       (.compress .src, { small [] [] with srcLen := 56#32 }),
       (.decrypt .src, { keyed [] [] 0#32 0#32 0#16 with srcLen := 65#32 }),
       (.encrypt .dst, keyed [] [] 64#32 0#32 0#16),
       (.decode .src, sized [] [] 65#32),
       (.encode .src, { small [] [] with srcLen := 56#32 })] : List (Instr × State)).map
      fun x => (next? (exec x.1 x.2)).map State.status) =
    [some 0x422#32, some 0x222#32, some 0x322#32, some 0x002#32, some 0x222#32, some 0x322#32, some 0x622#32,
     some 0x002#32, some 0x422#32, some 0x422#32, some 0x422#32, some 0x622#32, some 0x422#32, some 0x522#32,
     some 0x422#32, some 0x622#32] := by decide +kernel

theorem witness_FaultChangesStatusOnly :
    Instr.isCommand (.decrypt .src) = true ∧
      ∃ t, exec (.decrypt .src) State.reset = .next t ∧ getFlag t.status flagFault = true :=
  ⟨rfl, exists_next_and (by decide +kernel)⟩

/-- A command that ends well, and one that faults. -/
theorem witness_FaultLogRecordsFaults :
    Instr.isCommand (.decompress .src) = true ∧ Instr.isCommand (.decrypt .src) = true ∧
      (∃ t, exec (.decompress .src) streamState = .next t ∧ getFlag t.status flagFault = false) ∧
      ∃ t, exec (.decrypt .src) State.reset = .next t ∧ getFlag t.status flagFault = true :=
  ⟨rfl, rfl, exists_next_and (by decide +kernel), exists_next_and (by decide +kernel)⟩

theorem witness_EveryCommandCompletes : Instr.isCommand (.encode .dst) = true ∧ Instr.isCommand (.badOp 0#32) = true := by
  decide

theorem witness_StatusConditionsByCommand :
    Instr.isCommand (.decode .src) = true ∧
      ∃ t, exec (.decode .src) (sized [0xD5#8, 0x00#8, 0x03#8, 0xFA#8] [] 10#32) = .next t ∧ t.status = 0x0000001E#32 :=
  ⟨rfl, exists_next_and (by decide +kernel)⟩

theorem witness_OperandRegistersNeverWritten :
    Instr.isCommand (.compress .src) = true ∧ (∃ t, exec (.compress .src) sourceState = .next t) ∧
      ∀ sel, Instr.compress .src ≠ .readBits sel ∧ Instr.compress .src ≠ .writeBits sel :=
  ⟨rfl, exists_next (by decide +kernel), by simp⟩

theorem witness_BitRegistersSeparate :
    (∃ t, exec (.readBits .src) (bits [0xA5#8] [] 0#32 0x80#8 4#5 0#16) = .next t) ∧
      (∃ t, exec (.compress .src) sourceState = .next t) ∧
      0 < streamState.srcLen.toNat ∧ streamState.srcLen.toNat ≤ streamState.launch.srcMem ∧
      streamState.dstLen.toNat ≤ streamState.launch.dstMem ∧ ∃ t, exec (.decompress .src) streamState = .next t :=
  ⟨exists_next (by decide +kernel), exists_next (by decide +kernel), by decide, by decide, by decide,
    exists_next (by decide +kernel)⟩

/-- The second state's HIST, SCRATCH and internal registers differ. -/
theorem witness_NothingInternalCarriesOver :
    let s' : State := { streamState with hist := [(0, 9#8)], scratch := [(3, 1#8)], q := 5, term := true, wr := { cur := 2, mask := 0x01#8 } }
    Instr.isCommand (.decode .src) = true ∧ MemoriesCanonical streamState ∧ MemoriesCanonical s' ∧
      SameVisible streamState s' ∧ streamState.status = s'.status ∧ (∃ t, exec (.decode .src) streamState = .next t) ∧
      ∃ t', exec (.decode .src) s' = .next t' :=
  ⟨rfl, streamState_canonical, by unfold MemoriesCanonical; decide, by unfold SameVisible; decide, rfl,
    exists_next (by decide +kernel), exists_next (by decide +kernel)⟩

/-- The reset state with a command pending. -/
def pending (w : Word) : State := { State.reset with host := [.wr 0 w] }

theorem pending_inv (w : Word) : Inv (pending w) where
  memSizes := ⟨Nat.le_refl _, Nat.le_refl _⟩
  canonical := ⟨rfl, rfl, rfl, rfl, rfl⟩
  inRange := ⟨rfl, rfl, rfl, rfl⟩
  idle := rfl
  status := rfl
  masks := ⟨rfl, rfl⟩
  counters := by
    show CountersFit State.reset
    unfold CountersFit
    decide

theorem witness_StepKeepsInvariant : Inv (pending 0x00000003#32) ∧ ∃ t, step (pending 0x00000003#32) = .next t :=
  ⟨pending_inv _, exists_next (by decide +kernel)⟩

theorem witness_StepRunsDecodedCommand :
    (pending 0x00000016#32).core = .idle ∧ (pending 0x00000016#32).host = .wr 0 0x00000016#32 :: [] ∧
      Instr.wellFormed (.encrypt .dst) = true ∧ encode (.encrypt .dst) = .word 0x00000016#32 := by decide

/-- One slot of each clause, at the ends of its range. -/
theorem witness_RegisterAccessRules :
    State.reset.core = .idle ∧ ((11 : Fin 16) = 1 ∨ (11 : Fin 16) = 4 ∨ 11 ≤ (11 : Fin 16).val) ∧
      ({ State.reset with host := [.wr 2 0xFFFFFFFF#32] } : State).host = .wr 2 0xFFFFFFFF#32 :: [] ∧
      ({ State.reset with host := [.wr 10 0xFFFFFFFF#32] } : State).host = .wr 10 0xFFFFFFFF#32 :: [] ∧
      ({ State.reset with host := [.wr 15 1#32] } : State).host = .wr 15 1#32 :: [] ∧
      ({ State.reset with host := [.rd 0] } : State).host = .rd 0 :: [] ∧
      ({ State.reset with host := [.rd 15] } : State).host = .rd 15 :: [] ∧
      ({ State.reset with host := [.wr 9 0xFFFFFFFF#32, .rd 9] } : State).host = .wr 9 0xFFFFFFFF#32 :: .rd 9 :: [] ∧
      (pending 0x00000021#32).host = .wr 0 0x00000021#32 :: [] ∧ (0x00000021#32 : Word).extractLsb' 5 27 ≠ 0#27 := by
  decide

/-- The last byte of a memory. -/
theorem witness_HostMemoryAccess :
    (small [] []).core = .idle ∧ MemoriesCanonical (small [] []) ∧ 63 < (small [] []).size .dst ∧
      ({ small [] [] with host := [.mw .dst 63 7#8] } : State).host = .mw .dst 63 7#8 :: [] ∧
      ({ small [] [] with host := [.mr .dst 63] } : State).host = .mr .dst 63 :: [] :=
  ⟨rfl, by unfold MemoriesCanonical; decide, by decide, rfl, rfl⟩

/-- The first byte outside a memory, and a BUSY core. -/
theorem witness_StopsOutsideTheSpec :
    (small [] []).core = .idle ∧ (small [] []).size .src ≤ 64 ∧
      ({ small [] [] with host := [.mr .src 64] } : State).host = .mr .src 64 :: [] ∧
      ({ small [] [] with core := .busy, host := [.rd 2] } : State).core = .busy ∧ HostOp.rd 2 ≠ .rd 1 ∧
      (small [] []).host = [] := by decide

theorem witness_AcceptsCommandAfterReset :
    PowerOnReset (pending 0x00000003#32) ∧ (pending 0x00000003#32).host = .wr 0 0x00000003#32 :: [] :=
  ⟨by unfold PowerOnReset; decide, rfl⟩

/-- A program that writes the last byte of DST, reads STATUS and issues a reserved word. -/
theorem witness_HostProgramRunsToItsEnd :
    let s : State := { small [] [] with host := [.mw .dst 63 7#8, .rd 1, .wr 0 0#32] }
    s.core = .idle ∧ (∀ op, op ∈ s.host → op.inRange s) ∧ 3 ≤ s.host.length := by
  refine ⟨rfl, ?_, by decide⟩
  simp [HostOp.inRange, State.size, small]

/-- DECOMPRESS of an empty source right after reset. -/
theorem witness_NoFaultAndLaunchParametersHoldThroughout : LaunchPremises 1 [] [] (pending 0x00000003#32) where
  powerOnReset := by unfold PowerOnReset; decide
  memSizes := ⟨Nat.le_refl _, Nat.le_refl _⟩
  histInit := rfl
  hostDuties := ⟨fun _ _ h => keepsBusyDuty_of_idle (run_core_idle rfl h), by simp⟩
  noFault := exists_next_and (p := fun t => t.faultLog = []) (by decide +kernel)

/-- The first two fields of PR1: a tag bit and the literal 0x61. -/
theorem witness_WriteBitsSequenceLeavesString :
    let fields : List (BitVec 5 × BitVec 16) := [(1#5, 1#16), (8#5, 0x61#16)]
    let s : State := { small [] [] with host := fieldProgram fields ++ [] }
    MemSizes s ∧ Memory.wf s.dst = true ∧ s.core = .idle ∧ oneHot s.bitMask = true ∧ bitOffset s.bitPos = 0 ∧
      (∀ f, f ∈ fields → 1 ≤ f.1.toNat ∧ f.1.toNat ≤ 16) ∧ s.host = fieldProgram fields ++ [] ∧ fields ≠ [] ∧
      (0 + (fieldString fields).length - 1) / 8 < s.launch.dstMem ∧
      HostDuties [{ first := 2, width := (fieldString fields).length }] s := by
  refine ⟨by unfold MemSizes; decide, by decide, rfl, by decide, by decide, by simp, rfl, by simp, by decide,
    fun _ _ h => keepsBusyDuty_of_idle (run_core_idle rfl h), fun w hw t ht => ?_⟩
  obtain rfl := List.mem_singleton.mp hw
  obtain rfl := Host.Outcome.next.inj ht
  exact fun a _ _ => rfl

end Sys2Proof.Tests
end

/-! How a transaction of the host ends, said once: by a command's fault, by a command's clean end, or by an access that
keeps STATUS. The invariant of the reachable states and the safety of an unfaulted run follow from it. -/

namespace Sys2Proof.Machine

/-! ## The data part of the invariant -/

/-- The part of `Inv` that speaks of memories and internal registers: it does not mention the core's mode or STATUS, so
it also holds in the middle of a command. -/
structure DataInv (s : State) : Prop where
  memSizes  : MemSizes s
  canonical : MemoriesCanonical s
  inRange   : MemoriesInRange s
  masks     : oneHot s.rd.mask = true ∧ oneHot s.wr.mask = true
  counters  : CountersFit s

theorem inv_iff {s : State} : Inv s ↔ DataInv s ∧ s.core = .idle ∧ legalStatus s.status = true :=
  ⟨fun h => ⟨⟨h.memSizes, h.canonical, h.inRange, h.masks, h.counters⟩, h.idle, h.status⟩,
    fun ⟨h, hi, hs⟩ => ⟨h.memSizes, h.canonical, h.inRange, hi, hs, h.masks, h.counters⟩⟩

/-- The interface registers, the core's mode and the model's own lists are free: `DataInv` reads none of them. -/
theorem DataInv.withRegisters {s : State} (h : DataInv s) (core : CoreState)
    (status srcLen dstLen resultLen ciphBlock bitCursor : Word) (ciphKey bitData : BitVec 16) (bitMask : Byte)
    (bitN : BitVec 5) (faultLog : List FaultCode) (host : List HostOp) (replies : List Reply) :
    DataInv { s with
      core := core, status := status, srcLen := srcLen, dstLen := dstLen, resultLen := resultLen,
      ciphBlock := ciphBlock, ciphKey := ciphKey, bitCursor := bitCursor, bitMask := bitMask, bitN := bitN,
      bitData := bitData, faultLog := faultLog, host := host, replies := replies } :=
  ⟨h.memSizes, h.canonical, h.inRange, h.masks, h.counters⟩

/-- A memory space may be replaced by one in canonical form that lists no address outside it (20_memory.md R70). -/
theorem DataInv.withMem {s : State} (h : DataInv s) {sp : Space} {mem : Memory}
    (hwf : Memory.wf (s.mem sp) = true → Memory.wf mem = true)
    (hbelow : Memory.below (s.size sp) (s.mem sp) = true → Memory.below (s.size sp) mem = true) :
    DataInv (s.withMem sp mem) := by
  obtain ⟨wsrc, wdst, wrest⟩ := h.canonical
  obtain ⟨bsrc, bdst, brest⟩ := h.inRange
  cases sp with
  | src => exact ⟨h.memSizes, ⟨hwf wsrc, wdst, wrest⟩, ⟨hbelow bsrc, bdst, brest⟩, h.masks, h.counters⟩
  | dst => exact ⟨h.memSizes, ⟨wsrc, hwf wdst, wrest⟩, ⟨bsrc, hbelow bdst, brest⟩, h.masks, h.counters⟩

/-- A space's capacity fits a counter (00_scope.md R8). -/
theorem DataInv.size_lt {s : State} (h : DataInv s) (sp : Space) : s.size sp < 2 ^ 32 := by
  obtain ⟨hsrc, hdst⟩ := h.memSizes
  simp only [Config.srcMemMax, Config.dstMemMax] at hsrc hdst
  cases sp with
  | src => rw [State.size_src]; omega
  | dst => rw [State.size_dst]; omega

/-! ## What the units and the rules keep -/

theorem MemSizes.of_launch {s t : State} (h : MemSizes s) (hl : t.launch = s.launch) : MemSizes t := by
  rw [MemSizes, hl]
  exact h

theorem SameOperands.launch {s t : State} (h : SameOperands s t) : t.launch = s.launch := by
  obtain ⟨-, -, -, -, -, hlaunch, -⟩ := h
  exact hlaunch

/-- What every unit and every rule of a command keeps: the launch, the fault log, and the data part of the invariant. -/
structure Keeps (s t : State) : Prop where
  launch   : t.launch = s.launch
  faultLog : t.faultLog = s.faultLog
  data     : DataInv s → DataInv t

theorem Keeps.trans {s t u : State} (h1 : Keeps s t) (h2 : Keeps t u) : Keeps s u :=
  ⟨h2.launch.trans h1.launch, h2.faultLog.trans h1.faultLog, fun h => h2.data (h1.data h)⟩

/-- The registers a rule sets at its end: RESULT_LEN, STATUS and the BIT_* registers. -/
theorem Keeps.results (s : State) (status resultLen bitCursor : Word) (bitMask : Byte) (bitData : BitVec 16) :
    Keeps s { s with
      status := status, resultLen := resultLen, bitCursor := bitCursor, bitMask := bitMask, bitData := bitData } :=
  ⟨rfl, rfl, fun h => h.withRegisters ..⟩

theorem cipherRun_keeps {dec : Bool} {sp : Space} {len : Nat} {layer : Layer} {s t : State}
    (hB : 1 ≤ layer.blockSize) (hlen : len ≤ s.size sp) (h : cipherRun dec sp len layer s = some t) :
    Keeps s t ∧ SameOperands s t ∧ t.status = s.status := by
  obtain ⟨t', e, ft, -⟩ := cipherRun_spec dec sp layer hB hlen
  obtain rfl : t' = t := Option.some.inj (e.symm.trans h)
  obtain ⟨hops, -, -, -, -, hstatus, -, hlog, -⟩ := ciphered_frame ft
  have hlaunch := hops.launch
  refine ⟨⟨hlaunch, hlog, fun hd => ?_⟩, hops, hstatus⟩
  obtain ⟨hrange, hcount, hmasks, -⟩ := cipherRun_inRange hB hlen (Nat.lt_of_le_of_lt hlen (hd.size_lt sp)) h hd.inRange
    hd.counters hd.masks
  exact ⟨hd.memSizes.of_launch hlaunch, cipherRun_canonical hB hlen h hd.canonical, hrange, hmasks, hcount⟩

theorem compressRun_keeps {s t : State} (hsrc : s.srcLen.toNat ≤ s.launch.srcMem)
    (hcap : compressCap s.srcLen.toNat ≤ s.launch.dstMem) (h : compressRun s = some t) :
    Keeps s t ∧ t.status = s.status := by
  obtain ⟨t', -, e, ft, -⟩ := compressRun_spec hsrc hcap
  obtain rfl : t' = t := Option.some.inj (e.symm.trans h)
  obtain ⟨hops, -, -, -, -, hstatus, -, hlog, -⟩ := compressed_frame ft
  have hlaunch := hops.launch
  refine ⟨⟨hlaunch, hlog, fun hd => ?_⟩, hstatus⟩
  obtain ⟨hrange, hcount, hmasks, -⟩ := compressRun_inRange hsrc hcap h hd.memSizes hd.inRange hd.counters hd.masks.1
  exact ⟨hd.memSizes.of_launch hlaunch, compressRun_canonicalForm hsrc hcap h hd.canonical, hrange, hmasks,
    hcount⟩

theorem decompressRun_keeps {s t : State} (hsrc : s.srcLen.toNat ≤ s.launch.srcMem)
    (hdst : s.dstLen.toNat ≤ s.launch.dstMem) (h : decompressRun s = some t) :
    Keeps s t ∧ ∃ ended ovr, t.status = decompressStatus s.status ended ovr := by
  obtain ⟨out, o, ended, -, e, -⟩ := decompressRun_spec hsrc hdst
  have ft := Option.some.inj (h.symm.trans e)
  obtain ⟨hops, -, -, -, -, -, hlog, -⟩ := decoded_frame ft
  have hlaunch := hops.launch
  refine ⟨⟨hlaunch, hlog, fun hd => ?_⟩, ended, decide (s.dstLen.toNat < out.length), by rw [ft]⟩
  obtain ⟨-, -, -, -, hinit⟩ := hd.canonical
  obtain ⟨hrange, hcount, hmasks, -⟩ := decompressRun_inRange hsrc hdst h hd.memSizes hinit hd.inRange hd.counters
    hd.masks.2
  exact ⟨hd.memSizes.of_launch hlaunch, decompressRun_canonical hsrc hdst h hd.canonical, hrange, hmasks,
    hcount⟩

/-! ## How a command ends -/

theorem legalStatus_endStatus (w e o : Bool) : legalStatus (endStatus w e o) = true := by
  revert w e o
  decide

theorem endStatus_noFault (w e o : Bool) : getFlag (endStatus w e o) flagFault = false := by
  revert w e o
  decide

/-- DONE on a STATUS that holds DECOMPRESS's two conditions (60_exceptions.md R242, R243). -/
theorem setDone_decompressStatus (ended ovr : Bool) :
    setFlag (decompressStatus 0#32 ended ovr) flagDone true = endStatus (!ended) false ovr := by
  revert ended ovr
  decide

/-- DONE on a STATUS that holds DECODE's three conditions (44_pipeline.md R220, R221). -/
theorem setDone_decodeStatus (ended ovr err : Bool) :
    setFlag (setFlag (decompressStatus 0#32 ended ovr) flagErrSize err) flagDone true = endStatus (!ended) err ovr := by
  revert ended ovr err
  decide

/-- A command passed its checks and ended: STATUS is DONE with conditions, and what `Keeps` lists is kept. -/
structure EndsClean (s t : State) : Prop extends Keeps s t where
  status : ∃ w e o, t.status = endStatus w e o

/-- The rule of a command after its checks, run from issue, leads to a clean end. -/
def RuleEndsClean (check : State → Option FaultCode) (rule : State → Option State) : Prop :=
  ∀ s u, s.status = 0#32 → check s = none → rule s = some u →
    Keeps s u ∧ ∃ w e o, setFlag u.status flagDone true = endStatus w e o

/-- A rule that sets no condition leaves DONE alone. -/
theorem setDone_of_zero {st : Word} (h : st = 0#32) : ∃ w e o, setFlag st flagDone true = endStatus w e o :=
  ⟨false, false, false, by rw [h]; decide⟩

theorem readBits_endsClean : RuleEndsClean checkReadBits readBitsRule := by
  intro s u hst hc hr
  obtain ⟨hsrc, -, hmask⟩ := checkReadBits_none.mp hc
  rw [readBitsRule_eq (of_decide_eq_true hsrc) hmask] at hr
  obtain rfl := Option.some.inj hr
  exact ⟨Keeps.results s .., setDone_of_zero hst⟩

theorem writeBits_endsClean : RuleEndsClean checkWriteBits writeBitsRule := by
  intro s u hst hc hr
  obtain ⟨hwidth, hmask, hfit⟩ := checkWriteBits_none.mp hc
  rw [State.widthOk, Bool.and_eq_true] at hwidth
  obtain ⟨mem, e, hwf, hbelow⟩ := writeBitsRule_spec hmask rfl (of_decide_eq_true hwidth.1) (of_decide_eq_true hfit)
  obtain rfl := Option.some.inj (e.symm.trans hr)
  have hmem : Keeps s (s.withMem .dst mem) :=
    ⟨rfl, rfl, fun hd => hd.withMem (sp := .dst) (fun h => (hwf h).1) hbelow⟩
  exact ⟨hmem.trans (Keeps.results (s.withMem .dst mem) ..), setDone_of_zero hst⟩

theorem cipher_endsClean (dec : Bool) (sel : Space) : RuleEndsClean (checkCipher sel) (cipherRule dec sel) := by
  intro s u hst hc hr
  obtain ⟨hlen, hblock⟩ := checkCipher_none.mp hc
  have hB : 1 ≤ s.keyLayer.blockSize := Nat.pos_of_ne_zero fun h => hblock (BitVec.eq_of_toNat_eq h)
  obtain ⟨v, hv, rfl⟩ := Option.map_eq_some_iff.mp hr
  obtain ⟨hk, -, hstv⟩ := cipherRun_keeps hB hlen hv
  exact ⟨hk.trans (Keeps.results v ..), setDone_of_zero (hstv.trans hst)⟩

theorem compress_endsClean : RuleEndsClean checkCompress compressRule := by
  intro s u hst hc hr
  obtain ⟨hsrc, hcap⟩ := checkCompress_none.mp hc
  obtain ⟨v, hv, rfl⟩ := Option.map_eq_some_iff.mp hr
  obtain ⟨hk, hstv⟩ := compressRun_keeps (of_decide_eq_true hsrc) (of_decide_eq_true hcap) hv
  exact ⟨hk.trans (Keeps.results v ..), setDone_of_zero (hstv.trans hst)⟩

theorem decompress_endsClean : RuleEndsClean checkBothLens decompressRule := by
  intro s u hst hc hr
  obtain ⟨hsrc, hdst⟩ := checkBothLens_none.mp hc
  obtain ⟨v, hv, rfl⟩ := Option.map_eq_some_iff.mp hr
  obtain ⟨hk, ended, ovr, hstv⟩ := decompressRun_keeps (of_decide_eq_true hsrc) (of_decide_eq_true hdst) hv
  rw [hst] at hstv
  exact ⟨hk.trans (Keeps.results v ..), !ended, false, ovr, by rw [← setDone_decompressStatus, ← hstv]⟩

theorem decode_endsClean : RuleEndsClean checkBothLens decodeRule := by
  intro s u hst hc hr
  obtain ⟨hsrc, hdst⟩ := checkBothLens_none.mp hc
  have hsrc : s.srcLen.toNat ≤ s.launch.srcMem := of_decide_eq_true hsrc
  have hdst : s.dstLen.toNat ≤ s.launch.dstMem := of_decide_eq_true hdst
  obtain ⟨a, b, c, ea, eb, ec, e⟩ := decodeRule_spec hsrc hdst
  obtain rfl := Option.some.inj (e.symm.trans hr)
  obtain ⟨ka, oa, sa⟩ := cipherRun_keeps (by decide) hsrc ea
  obtain ⟨kb, ob, sb⟩ := cipherRun_keeps (by decide) (by rw [State.size_src, ka.launch]; exact hsrc) eb
  obtain ⟨hsrcb, hdstb, -, -, -, hlaunchb, -⟩ := oa.trans ob
  obtain ⟨kc, ended, ovr, sc⟩ := decompressRun_keeps (by rw [hsrcb, hlaunchb]; exact hsrc)
    (by rw [hdstb, hlaunchb]; exact hdst) ec
  rw [sb, sa, hst] at sc
  refine ⟨((ka.trans kb).trans kc).trans (Keeps.results c ..), !ended, decide (c.q ≠ c.dstLen.toNat), ovr, ?_⟩
  rw [← setDone_decodeStatus, ← sc]

theorem encode_endsClean : RuleEndsClean checkCompress encodeRule := by
  intro s u hst hc hr
  obtain ⟨hsrc, hcap⟩ := checkCompress_none.mp hc
  have hcap : compressCap s.srcLen.toNat ≤ s.launch.dstMem := of_decide_eq_true hcap
  obtain ⟨a, b, c, ea, hcur, eb, ec, e⟩ := encodeRule_spec (of_decide_eq_true hsrc) hcap
  obtain rfl := Option.some.inj (e.symm.trans hr)
  obtain ⟨ka, sa⟩ := compressRun_keeps (of_decide_eq_true hsrc) hcap ea
  have hlen : a.wr.cur + 1 ≤ s.launch.dstMem := hcur.trans hcap
  obtain ⟨kb, -, sb⟩ := cipherRun_keeps (by decide) (by rw [State.size_dst, ka.launch]; exact hlen) eb
  obtain ⟨kc, -, sc⟩ := cipherRun_keeps (by decide) (by rw [State.size_dst, (ka.trans kb).launch]; exact hlen) ec
  exact ⟨((ka.trans kb).trans kc).trans (Keeps.results c ..), setDone_of_zero (by rw [sc, sb, sa, hst])⟩

/-- How a command ends (60_exceptions.md R240 to R242): by a fault, or clean. -/
theorem runCommand_ends {check : State → Option FaultCode} {rule : State → Option State}
    (hrule : RuleEndsClean check rule) {s t : State} (h : runCommand check rule s = .next t) :
    (∃ code, t = afterFault s code) ∨ EndsClean s t := by
  rcases runCommand_cases h with ⟨code, -, ht⟩ | ⟨hc, u, hu, rfl⟩
  · exact .inl ⟨code, ht⟩
  · obtain ⟨hk, hstatus⟩ := hrule s.issue u rfl hc hu
    exact .inr ⟨⟨hk.launch, hk.faultLog, fun hd => (hk.data (hd.withRegisters ..)).withRegisters ..⟩, hstatus⟩

theorem exec_ends {i : Instr} {s t : State} (hi : i.isCommand = true) (h : exec i s = .next t) :
    (∃ code, t = afterFault s code) ∨ EndsClean s t := by
  cases i with
  | readBits sel => exact runCommand_ends readBits_endsClean h
  | writeBits sel => exact runCommand_ends writeBits_endsClean h
  | decompress sel => exact runCommand_ends decompress_endsClean h
  | compress sel => exact runCommand_ends compress_endsClean h
  | decrypt sel => exact runCommand_ends (cipher_endsClean true sel) h
  | encrypt sel => exact runCommand_ends (cipher_endsClean false sel) h
  | decode sel => exact runCommand_ends decode_endsClean h
  | encode sel => exact runCommand_ends encode_endsClean h
  | badOp w => exact .inl ⟨.badOp, (Host.Outcome.next.inj h).symm.trans (takeFault_issue s .badOp)⟩
  | lit v => cases hi
  | ref e l => cases hi
  | term => cases hi
  | term2 => cases hi

/-! ## How a step ends -/

/-- A host access that runs no command: STATUS stays, and so does what `Keeps` lists. -/
structure KeepsStatus (s t : State) : Prop extends Keeps s t where
  status : t.status = s.status

theorem writeReg_keepsStatus (s : State) (data : Word) (r : Reg) : KeepsStatus s (s.writeReg data r) := by
  cases r <;> exact ⟨⟨rfl, rfl, fun h => h.withRegisters ..⟩, rfl⟩

theorem reply_keepsStatus (s : State) (r : Reply) : KeepsStatus s (s.reply r) :=
  ⟨⟨rfl, rfl, fun h => h.withRegisters ..⟩, rfl⟩

theorem memWrite_keepsStatus {s t : State} {sp : Space} {a : Nat} {v : Byte} (h : s.memWrite sp a v = some t) :
    KeepsStatus s t := by
  obtain ⟨ha, rfl⟩ := memWrite_eq_some.mp h
  exact ⟨⟨by simp, by simp, fun hd => hd.withMem (fun hw => Memory.write_wf hw a v) fun hb => Memory.write_below hb ha v⟩,
    by simp⟩

/-- How a host transaction can end: a command's fault, a command's clean end, or an access that keeps STATUS. -/
def TransactionEnds (s t : State) : Prop :=
  (∃ code, t = afterFault s code) ∨ EndsClean s t ∨ KeepsStatus s t

theorem hostAccess_ends {op : HostOp} {s t : State} (h : hostAccess op s = .next t) : TransactionEnds s t := by
  cases op with
  | wr slot data =>
    by_cases hs : regOfSlot slot = .cmd
    · rw [hostAccess, hostWrite, if_pos hs] at h
      exact (exec_ends (decodeCmd_isCommand data) h).imp_right .inl
    · rw [hostAccess_wr hs] at h
      obtain rfl := Host.Outcome.next.inj h
      exact .inr (.inr (writeReg_keepsStatus s data _))
  | rd slot =>
    obtain rfl := Host.Outcome.next.inj h
    exact .inr (.inr (reply_keepsStatus s _))
  | mw sp a v =>
    simp only [hostAccess] at h
    split at h
    · rename_i u hu
      obtain rfl := Host.Outcome.next.inj h
      exact .inr (.inr (memWrite_keepsStatus hu))
    · cases h
  | mr sp a =>
    simp only [hostAccess] at h
    split at h
    · obtain rfl := Host.Outcome.next.inj h
      exact .inr (.inr (reply_keepsStatus s _))
    · cases h

/-- A step that answers did nothing, or the host's next transaction, taken off the queue. -/
theorem step_next_cases {s t : State} (h : step s = .next t) :
    t = s ∨ ∃ op rest, hostAccess op { s with host := rest } = .next t := by
  cases hh : s.host with
  | nil => exact .inl (Host.Outcome.next.inj (h.symm.trans (step_nil hh)))
  | cons op rest =>
    have hcore : s.core = .idle ∨ s.core = .busy := by
      cases s.core with
      | idle => exact .inl rfl
      | busy => exact .inr rfl
    refine .inr ⟨op, rest, ?_⟩
    rcases hcore with hc | hc
    · rwa [step_idle hc hh] at h
    · cases hop : op.whileBusy with
      | true => rwa [step_busy_status hh hop] at h
      | false => rw [step_busy hc hh hop] at h; cases h

/-- How a step can end, up to the host's queue. -/
theorem step_ends {s t : State} (h : step s = .next t) : ∃ host, TransactionEnds { s with host := host } t := by
  rcases step_next_cases h with rfl | ⟨op, rest, h⟩
  · exact ⟨t.host, .inr (.inr ⟨⟨rfl, rfl, id⟩, rfl⟩)⟩
  · exact ⟨rest, hostAccess_ends h⟩

theorem legalStatus_afterFault (s : State) (code : FaultCode) : legalStatus (afterFault s code).status = true := by
  rw [← takeFault_issue]
  exact legalStatus_fault code

/-- Settles O41: the core stays IDLE by `step_core_idle`, and STATUS and the data follow from how the step ends. -/
theorem stepKeepsInvariant : Obligations.StepKeepsInvariant := by
  unfold Obligations.StepKeepsInvariant
  intro s t hinv h
  obtain ⟨hdata, hidle, hstatus⟩ := inv_iff.mp hinv
  have hdata' : ∀ host, DataInv { s with host := host } := fun host => hdata.withRegisters ..
  obtain ⟨host, ⟨code, rfl⟩ | hclean | hkeeps⟩ := step_ends h
  · exact inv_iff.mpr ⟨(hdata' host).withRegisters .., rfl, legalStatus_afterFault _ code⟩
  · obtain ⟨w, e, o, hst⟩ := hclean.status
    exact inv_iff.mpr ⟨hclean.data (hdata' host), step_core_idle hidle h, by rw [hst, legalStatus_endStatus]⟩
  · exact inv_iff.mpr ⟨hkeeps.data (hdata' host), step_core_idle hidle h, by rw [hkeeps.status]; exact hstatus⟩

/-! ## Faults along a run -/

/-- STATUS shows FAULT only where a command of the run faulted: the log is then not empty (60_exceptions.md R241, R248). -/
def FaultIsLogged (s : State) : Prop := getFlag s.status flagFault = true → ¬ NoFault s

/-- No step changes the launch (00_scope.md R8). -/
theorem step_launch {s t : State} (h : step s = .next t) : t.launch = s.launch := by
  obtain ⟨host, ⟨code, rfl⟩ | hclean | hkeeps⟩ := step_ends h
  · rfl
  · exact hclean.launch
  · exact hkeeps.launch

/-- No step empties the fault log (60_exceptions.md R248). -/
theorem step_keeps_fault {s t : State} (hs : ¬ NoFault s) (h : step s = .next t) : ¬ NoFault t := by
  obtain ⟨host, ⟨code, rfl⟩ | hclean | hkeeps⟩ := step_ends h
  · exact List.append_ne_nil_of_right_ne_nil _ (List.cons_ne_nil code [])
  · rw [NoFault, hclean.faultLog]
    exact hs
  · rw [NoFault, hkeeps.faultLog]
    exact hs

theorem step_keeps_faultIsLogged {s t : State} (hs : FaultIsLogged s) (h : step s = .next t) : FaultIsLogged t := by
  intro hflag
  obtain ⟨host, ⟨code, rfl⟩ | hclean | hkeeps⟩ := step_ends h
  · exact List.append_ne_nil_of_right_ne_nil _ (List.cons_ne_nil code [])
  · obtain ⟨w, e, o, hst⟩ := hclean.status
    rw [hst, endStatus_noFault] at hflag
    cases hflag
  · rw [hkeeps.status] at hflag
    rw [NoFault, hkeeps.faultLog]
    exact hs hflag

/-- A run passes through the end of each of its prefixes. -/
theorem run_add_next {k m : Nat} {s u : State} (h : run (k + m) s = .next u) :
    ∃ t, run k s = .next t ∧ run m t = .next u := by
  induction k generalizing s with
  | zero => exact ⟨s, rfl, by rwa [Nat.zero_add] at h⟩
  | succ k ih =>
    rw [Nat.add_right_comm] at h
    obtain ⟨v, hv, hrest⟩ := run_succ_next h
    obtain ⟨t, ht, hu⟩ := ih hrest
    exact ⟨t, by rw [run_succ k hv, ht], hu⟩

theorem run_launch {n : Nat} {s t : State} (h : run n s = .next t) : t.launch = s.launch :=
  run_keeps (p := fun u => u.launch = s.launch) (fun _ _ hu hstep => (step_launch hstep).trans hu) n rfl h

/-- A run that ends unfaulted started unfaulted. -/
theorem noFault_of_run {n : Nat} {s t : State} (h : run n s = .next t) (ht : NoFault t) : NoFault s :=
  Classical.byContradiction fun hs => run_keeps (fun _ _ => step_keeps_fault) n hs h ht

theorem faultIsLogged_of_powerOnReset {s : State} (h : PowerOnReset s) : FaultIsLogged s := by
  obtain ⟨-, hstatus, -⟩ := h
  intro hflag
  rw [hstatus] at hflag
  cases hflag

/-- Settles O50: a point before an unfaulted end is unfaulted, so FAULT is clear there, and the launch never changes. -/
theorem noFaultAndLaunchParametersHoldThroughout : Obligations.NoFaultAndLaunchParametersHoldThroughout := by
  unfold Obligations.NoFaultAndLaunchParametersHoldThroughout
  intro n init streams s hp k hk
  obtain ⟨u, hu, hnone⟩ := hp.noFault
  rw [← Nat.add_sub_cancel' hk] at hu
  obtain ⟨t, ht, htu⟩ := run_add_next hu
  have hnf : NoFault t := noFault_of_run htu hnone
  have hlogged : FaultIsLogged t :=
    run_keeps (fun _ _ => step_keeps_faultIsLogged) k (faultIsLogged_of_powerOnReset hp.powerOnReset) ht
  have hlaunch : t.launch = s.launch := run_launch ht
  exact ⟨t, ht, hnf, Bool.eq_false_iff.mpr fun hflag => hlogged hflag hnf, hp.memSizes.of_launch hlaunch,
    (congrArg Launch.histInit hlaunch).trans hp.histInit⟩

end Sys2Proof.Machine

/-! No command carries internal state into the next (10_state.md R51): each unit's run, and so each command, is a function
of what a host sees. With it, what the issue checks of 60_exceptions.md R244 give a rule, said once for every command. -/

namespace Sys2Proof.Machine

/-! ## What the issue checks give -/

theorem bounds_of_checkReadBits {s : State} (h : checkReadBits s = none) :
    s.srcLen.toNat ≤ s.launch.srcMem ∧ oneHot s.bitMask = true := by
  obtain ⟨hsrc, -, hmask⟩ := checkReadBits_none.mp h
  exact ⟨of_decide_eq_true hsrc, hmask⟩

theorem bounds_of_checkWriteBits {s : State} (h : checkWriteBits s = none) :
    oneHot s.bitMask = true ∧ 1 ≤ s.bitN.toNat ∧ (bitOffset s.bitPos + s.bitN.toNat - 1) / 8 < s.launch.dstMem := by
  obtain ⟨hwidth, hmask, hfit⟩ := checkWriteBits_none.mp h
  rw [State.widthOk, Bool.and_eq_true] at hwidth
  exact ⟨hmask, of_decide_eq_true hwidth.1, of_decide_eq_true hfit⟩

theorem bounds_of_checkBothLens {s : State} (h : checkBothLens s = none) :
    s.srcLen.toNat ≤ s.launch.srcMem ∧ s.dstLen.toNat ≤ s.launch.dstMem := by
  obtain ⟨hsrc, hdst⟩ := checkBothLens_none.mp h
  exact ⟨of_decide_eq_true hsrc, of_decide_eq_true hdst⟩

theorem bounds_of_checkCompress {s : State} (h : checkCompress s = none) :
    s.srcLen.toNat ≤ s.launch.srcMem ∧ compressCap s.srcLen.toNat ≤ s.launch.dstMem := by
  obtain ⟨hsrc, hcap⟩ := checkCompress_none.mp h
  exact ⟨of_decide_eq_true hsrc, of_decide_eq_true hcap⟩

theorem bounds_of_checkCipher {sel : Space} {s : State} (h : checkCipher sel s = none) :
    1 ≤ s.keyLayer.blockSize ∧ s.cipherLen sel ≤ s.size sel := by
  obtain ⟨hlen, hblock⟩ := checkCipher_none.mp h
  exact ⟨Nat.pos_of_ne_zero fun h0 => hblock (BitVec.eq_of_toNat_eq h0), hlen⟩

/-! ## The pipelines, unit by unit -/

/-- DECODE's rule with the bounds that each of its units starts from (44_pipeline.md R220). -/
theorem decodeRule_stages {s u : State} (hsrc : s.srcLen.toNat ≤ s.launch.srcMem)
    (hdst : s.dstLen.toNat ≤ s.launch.dstMem) (h : decodeRule s = some u) :
    ∃ a b c, cipherRun true .src s.srcLen.toNat Config.layerA s = some a ∧
      s.srcLen.toNat ≤ a.launch.srcMem ∧ cipherRun true .src s.srcLen.toNat Config.layerB a = some b ∧
      (b.srcLen.toNat ≤ b.launch.srcMem ∧ b.dstLen.toNat ≤ b.launch.dstMem) ∧ decompressRun b = some c ∧
      u = { c with
        resultLen := BitVec.ofNat 32 c.q
        status := setFlag c.status flagErrSize (decide (c.q ≠ c.dstLen.toNat)) } := by
  obtain ⟨a, b, c, ea, eb, ec, e⟩ := decodeRule_spec hsrc hdst
  obtain ⟨-, oa, -⟩ := cipherRun_keeps (by decide) hsrc ea
  have ha : s.srcLen.toNat ≤ a.launch.srcMem := by rw [oa.launch]; exact hsrc
  obtain ⟨-, ob, -⟩ := cipherRun_keeps (by decide) ha eb
  obtain ⟨hsrcb, hdstb, -, -, -, hlaunchb, -⟩ := oa.trans ob
  exact ⟨a, b, c, ea, ha, eb, by rw [hsrcb, hdstb, hlaunchb]; exact ⟨hsrc, hdst⟩, ec, Option.some.inj (h.symm.trans e)⟩

/-- ENCODE's rule with the bounds that each of its units starts from (44_pipeline.md R222). -/
theorem encodeRule_stages {s u : State} (hsrc : s.srcLen.toNat ≤ s.launch.srcMem)
    (hcap : compressCap s.srcLen.toNat ≤ s.launch.dstMem) (h : encodeRule s = some u) :
    ∃ a b c, compressRun s = some a ∧ a.wr.cur + 1 ≤ a.launch.dstMem ∧
      cipherRun false .dst (a.wr.cur + 1) Config.layerB a = some b ∧ a.wr.cur + 1 ≤ b.launch.dstMem ∧
      cipherRun false .dst (a.wr.cur + 1) Config.layerA b = some c ∧
      u = { c with resultLen := BitVec.ofNat 32 (a.wr.cur + 1) } := by
  obtain ⟨a, b, c, ea, hcur, eb, ec, e⟩ := encodeRule_spec hsrc hcap
  obtain ⟨ka, -⟩ := compressRun_keeps hsrc hcap ea
  have ha : a.wr.cur + 1 ≤ a.launch.dstMem := by rw [ka.launch]; exact hcur.trans hcap
  obtain ⟨kb, -⟩ := cipherRun_keeps (by decide) ha eb
  exact ⟨a, b, c, ea, ha, eb, by rw [kb.launch]; exact ha, ec, Option.some.inj (h.symm.trans e)⟩

/-! ## States a host cannot tell apart -/

theorem readReg_visible {s s' : State} (h : SameVisible s s') (hst : s.status = s'.status) (r : Reg) :
    s.readReg r = s'.readReg r := by
  obtain ⟨hsrcLen, hdstLen, hresult, hblock, hkey, hcursor, hmask, hn, hdata, -⟩ := h
  cases r with
  | cmd => rfl
  | status => exact hst
  | srcLen => exact hsrcLen
  | dstLen => exact hdstLen
  | resultLen => exact hresult
  | ciphBlock => exact hblock
  | ciphKey => exact congrArg (·.setWidth 32) hkey
  | bitCursor => exact hcursor
  | bitMask => exact congrArg (·.setWidth 32) hmask
  | bitN => exact congrArg (·.setWidth 32) hn
  | bitData => exact congrArg (·.setWidth 32) hdata
  | reserved => rfl

theorem byteAt_visible {s s' : State} (h : SameVisible s s') (sp : Space) (a : Nat) : s.byteAt sp a = s'.byteAt sp a := by
  obtain ⟨-, -, -, -, -, -, -, -, -, hsrc, hdst, -⟩ := h
  cases sp with
  | src => exact congrArg (Memory.read · a) hsrc
  | dst => exact congrArg (Memory.read · a) hdst

theorem bitPos_visible {s s' : State} (h : SameVisible s s') : s.bitPos = s'.bitPos := by
  obtain ⟨-, -, -, -, -, hcursor, hmask, -⟩ := h
  rw [State.bitPos, State.bitPos, hcursor, hmask]

/-- Two states a host cannot tell apart, STATUS included, with every memory in canonical form: the relation that each
unit keeps, from one command's start to its end. -/
structure Alike (s s' : State) : Prop where
  visible    : SameVisible s s'
  status     : s.status = s'.status
  canonical  : MemoriesCanonical s
  canonical' : MemoriesCanonical s'

/-- The results a rule writes at its end: RESULT_LEN and the conditions of STATUS. -/
theorem Alike.withResult {s s' : State} (h : Alike s s') {status status' resultLen resultLen' : Word}
    (hst : status = status') (hlen : resultLen = resultLen') :
    Alike { s with status := status, resultLen := resultLen } { s' with status := status', resultLen := resultLen' } := by
  obtain ⟨⟨hsrcLen, hdstLen, -, hrest⟩, -, hc, hc'⟩ := h
  exact ⟨⟨hsrcLen, hdstLen, hlen, hrest⟩, hst, hc, hc'⟩

theorem Alike.srcLen {s s' : State} (h : Alike s s') : s.srcLen = s'.srcLen := by
  obtain ⟨hsrcLen, -⟩ := h.visible
  exact hsrcLen

theorem Alike.dstLen {s s' : State} (h : Alike s s') : s.dstLen = s'.dstLen := by
  obtain ⟨-, hdstLen, -⟩ := h.visible
  exact hdstLen

theorem Alike.launch {s s' : State} (h : Alike s s') : s.launch = s'.launch := by
  obtain ⟨-, -, -, -, -, -, -, -, -, -, -, hlaunch⟩ := h.visible
  exact hlaunch

theorem Alike.cipherLen {s s' : State} (h : Alike s s') (sel : Space) : s.cipherLen sel = s'.cipherLen sel := by
  cases sel with
  | src => exact congrArg BitVec.toNat h.srcLen
  | dst => exact congrArg BitVec.toNat h.dstLen

theorem Alike.keyLayer {s s' : State} (h : Alike s s') : s.keyLayer = s'.keyLayer := by
  obtain ⟨-, -, -, hblock, hkey, -⟩ := h.visible
  rw [State.keyLayer, State.keyLayer, hblock, hkey]

theorem Alike.size {s s' : State} (h : Alike s s') (sp : Space) : s.size sp = s'.size sp := by
  cases sp with
  | src => exact congrArg Launch.srcMem h.launch
  | dst => exact congrArg Launch.dstMem h.launch

/-! ## Each unit keeps two states alike -/

theorem cipherRun_alike {dec : Bool} {sp : Space} {len : Nat} {layer : Layer} {s s' t t' : State} (h : Alike s s')
    (hB : 1 ≤ layer.blockSize) (hlen : len ≤ s.size sp) (e : cipherRun dec sp len layer s = some t)
    (e' : cipherRun dec sp len layer s' = some t') : Alike t t' ∧ t.P = t'.P := by
  obtain ⟨hv, hst, hP⟩ := cipherRun_visible hB hlen h.visible h.status h.canonical h.canonical' e e'
  have hlen' : len ≤ s'.size sp := by rw [← h.size]; exact hlen
  exact ⟨⟨hv, hst, cipherRun_canonical hB hlen e h.canonical, cipherRun_canonical hB hlen' e' h.canonical'⟩, hP⟩

theorem compressRun_alike {s s' t t' : State} (h : Alike s s') (hsrc : s.srcLen.toNat ≤ s.launch.srcMem)
    (hcap : compressCap s.srcLen.toNat ≤ s.launch.dstMem) (e : compressRun s = some t) (e' : compressRun s' = some t') :
    Alike t t' ∧ t.wr = t'.wr := by
  obtain ⟨hv, hst, hwr⟩ := compressRun_visible h.visible h.status h.canonical h.canonical' hsrc hcap e e'
  have hsrc' : s'.srcLen.toNat ≤ s'.launch.srcMem := by rw [← h.srcLen, ← h.launch]; exact hsrc
  have hcap' : compressCap s'.srcLen.toNat ≤ s'.launch.dstMem := by rw [← h.srcLen, ← h.launch]; exact hcap
  exact ⟨⟨hv, hst, compressRun_canonicalForm hsrc hcap e h.canonical,
    compressRun_canonicalForm hsrc' hcap' e' h.canonical'⟩, hwr⟩

theorem decompressRun_alike {s s' t t' : State} (h : Alike s s') (hsrc : s.srcLen.toNat ≤ s.launch.srcMem)
    (hdst : s.dstLen.toNat ≤ s.launch.dstMem) (e : decompressRun s = some t) (e' : decompressRun s' = some t') :
    Alike t t' ∧ t.q = t'.q := by
  obtain ⟨hv, hst, hq⟩ := decompressRun_visible h.visible h.status h.canonical h.canonical' hsrc hdst e e'
  have hsrc' : s'.srcLen.toNat ≤ s'.launch.srcMem := by rw [← h.srcLen, ← h.launch]; exact hsrc
  have hdst' : s'.dstLen.toNat ≤ s'.launch.dstMem := by rw [← h.dstLen, ← h.launch]; exact hdst
  exact ⟨⟨hv, hst, decompressRun_canonical hsrc hdst e h.canonical, decompressRun_canonical hsrc' hdst' e' h.canonical'⟩,
    hq⟩

/-! ## Each command keeps two states alike -/

/-- The checks of a command read what a host sees only, and its rule keeps two states alike that pass them. -/
structure IgnoresInternals (check : State → Option FaultCode) (rule : State → Option State) : Prop where
  sameFault : ∀ {s s' : State}, Alike s s' → check s = check s'
  sameEnd   : ∀ {s s' u u' : State}, Alike s s' → check s = none → check s' = none → rule s = some u →
    rule s' = some u' → Alike u u'

theorem checkBothLens_alike {s s' : State} (h : Alike s s') : checkBothLens s = checkBothLens s' := by
  simp only [checkBothLens, State.srcLenOk, State.dstLenOk, h.srcLen, h.dstLen, h.launch]

theorem checkCompress_alike {s s' : State} (h : Alike s s') : checkCompress s = checkCompress s' := by
  simp only [checkCompress, State.srcLenOk, State.capFits, h.srcLen, h.launch]

theorem checkCipher_alike {sel : Space} {s s' : State} (h : Alike s s') : checkCipher sel s = checkCipher sel s' := by
  obtain ⟨-, -, -, hblock, -⟩ := h.visible
  simp only [checkCipher, h.cipherLen, h.size, hblock]

theorem readBits_ignoresInternals : IgnoresInternals checkReadBits readBitsRule where
  sameFault h := by
    obtain ⟨hsrcLen, -, -, -, -, -, hmask, hn, -, -, -, hlaunch⟩ := h.visible
    simp only [checkReadBits, State.srcLenOk, State.widthOk, hsrcLen, hmask, hn, hlaunch]
  sameEnd h hc hc' hr hr' := by
    obtain ⟨hsrc, hmask⟩ := bounds_of_checkReadBits hc
    obtain ⟨hsrc', hmask'⟩ := bounds_of_checkReadBits hc'
    rw [readBitsRule_eq hsrc hmask] at hr
    rw [readBitsRule_eq hsrc' hmask'] at hr'
    obtain rfl := Option.some.inj hr
    obtain rfl := Option.some.inj hr'
    have hpos := bitPos_visible h.visible
    obtain ⟨⟨hsrcLen, hdstLen, hresult, hblock, hkey, -, -, hn, -, hmem, hrest⟩, hst, hcan, hcan'⟩ := h
    exact ⟨⟨hsrcLen, hdstLen, hresult, hblock, hkey, by simp only [hsrcLen, hn, hpos],
      by simp only [hsrcLen, hn, hpos], hn, by simp only [hsrcLen, hn, hpos, hmem], hmem, hrest⟩, hst, hcan, hcan'⟩

theorem writeBits_ignoresInternals : IgnoresInternals checkWriteBits writeBitsRule where
  sameFault h := by
    have hpos := bitPos_visible h.visible
    obtain ⟨-, -, -, -, -, -, hmask, hn, -, -, -, hlaunch⟩ := h.visible
    simp only [checkWriteBits, State.widthOk, State.writeFits, hpos, hmask, hn, hlaunch]
  sameEnd {s s' u u'} h hc hc' hr hr' := by
    obtain ⟨hmask, hwidth, hfit⟩ := bounds_of_checkWriteBits hc
    obtain ⟨hmask', hwidth', hfit'⟩ := bounds_of_checkWriteBits hc'
    obtain ⟨mem, e, hspec, -⟩ := writeBitsRule_spec hmask rfl hwidth hfit
    obtain ⟨mem', e', hspec', -⟩ := writeBitsRule_spec hmask' rfl hwidth' hfit'
    obtain rfl := Option.some.inj (e.symm.trans hr)
    obtain rfl := Option.some.inj (e'.symm.trans hr')
    have hpos := bitPos_visible h.visible
    obtain ⟨⟨hsrcLen, hdstLen, hresult, hblock, hkey, -, -, hn, hdata, hsrc, hdst, hlaunch⟩, hst, ⟨wsrc, wdst, wrest⟩,
      wsrc', wdst', wrest'⟩ := h
    obtain ⟨hwf, hbits⟩ := hspec wdst
    obtain ⟨hwf', hbits'⟩ := hspec' wdst'
    have hmem : mem = mem' := Memory.ext hwf hwf' fun a => read_eq_iff_streamBit.mpr fun i _ => by
      rw [hbits, hbits', hpos, hn, hdata, hdst]
    exact ⟨⟨hsrcLen, hdstLen, hresult, hblock, hkey, by simp only [hn, hpos], by simp only [hn, hpos], hn, hdata, hsrc, hmem,
      hlaunch⟩, hst, ⟨wsrc, hwf, wrest⟩, wsrc', hwf', wrest'⟩

theorem cipher_ignoresInternals (dec : Bool) (sel : Space) :
    IgnoresInternals (checkCipher sel) (cipherRule dec sel) where
  sameFault := checkCipher_alike
  sameEnd h hc _ hr hr' := by
    obtain ⟨hB, hlen⟩ := bounds_of_checkCipher hc
    obtain ⟨v, hv, rfl⟩ := Option.map_eq_some_iff.mp hr
    obtain ⟨v', hv', rfl⟩ := Option.map_eq_some_iff.mp hr'
    rw [← h.cipherLen, ← h.keyLayer] at hv'
    obtain ⟨hout, hP⟩ := cipherRun_alike h hB hlen hv hv'
    exact hout.withResult hout.status (by rw [hP])

theorem compress_ignoresInternals : IgnoresInternals checkCompress compressRule where
  sameFault := checkCompress_alike
  sameEnd h hc _ hr hr' := by
    obtain ⟨hsrc, hcap⟩ := bounds_of_checkCompress hc
    obtain ⟨v, hv, rfl⟩ := Option.map_eq_some_iff.mp hr
    obtain ⟨v', hv', rfl⟩ := Option.map_eq_some_iff.mp hr'
    obtain ⟨hout, hwr⟩ := compressRun_alike h hsrc hcap hv hv'
    exact hout.withResult hout.status (by rw [hwr])

theorem decompress_ignoresInternals : IgnoresInternals checkBothLens decompressRule where
  sameFault := checkBothLens_alike
  sameEnd h hc _ hr hr' := by
    obtain ⟨hsrc, hdst⟩ := bounds_of_checkBothLens hc
    obtain ⟨v, hv, rfl⟩ := Option.map_eq_some_iff.mp hr
    obtain ⟨v', hv', rfl⟩ := Option.map_eq_some_iff.mp hr'
    obtain ⟨hout, hq⟩ := decompressRun_alike h hsrc hdst hv hv'
    exact hout.withResult hout.status (by rw [hq])

theorem decode_ignoresInternals : IgnoresInternals checkBothLens decodeRule where
  sameFault := checkBothLens_alike
  sameEnd h hc hc' hr hr' := by
    obtain ⟨hsrc, hdst⟩ := bounds_of_checkBothLens hc
    obtain ⟨hsrc', hdst'⟩ := bounds_of_checkBothLens hc'
    obtain ⟨a, b, c, ea, ha, eb, ⟨hsrcb, hdstb⟩, ec, rfl⟩ := decodeRule_stages hsrc hdst hr
    obtain ⟨a', b', c', ea', -, eb', -, ec', rfl⟩ := decodeRule_stages hsrc' hdst' hr'
    rw [← h.srcLen] at ea' eb'
    obtain ⟨hA, -⟩ := cipherRun_alike h (by decide) hsrc ea ea'
    obtain ⟨hB, -⟩ := cipherRun_alike hA (by decide) ha eb eb'
    obtain ⟨hC, hq⟩ := decompressRun_alike hB hsrcb hdstb ec ec'
    exact hC.withResult (by rw [hC.status, hC.dstLen, hq]) (by rw [hq])

theorem encode_ignoresInternals : IgnoresInternals checkCompress encodeRule where
  sameFault := checkCompress_alike
  sameEnd h hc hc' hr hr' := by
    obtain ⟨hsrc, hcap⟩ := bounds_of_checkCompress hc
    obtain ⟨hsrc', hcap'⟩ := bounds_of_checkCompress hc'
    obtain ⟨a, b, c, ea, ha, eb, hb, ec, rfl⟩ := encodeRule_stages hsrc hcap hr
    obtain ⟨a', b', c', ea', -, eb', -, ec', rfl⟩ := encodeRule_stages hsrc' hcap' hr'
    obtain ⟨hA, hwr⟩ := compressRun_alike h hsrc hcap ea ea'
    rw [← hwr] at eb' ec'
    obtain ⟨hB, -⟩ := cipherRun_alike hA (by decide) ha eb eb'
    obtain ⟨hC, -⟩ := cipherRun_alike hB (by decide) hb ec ec'
    exact hC.withResult hC.status (by rw [hwr])

/-- A command from two states that a host cannot tell apart but for STATUS, which the issue clears (60_exceptions.md
R240). -/
theorem runCommand_visible {check : State → Option FaultCode} {rule : State → Option State}
    (hi : IgnoresInternals check rule) {s s' t t' : State} (h : SameVisible s s') (hc : MemoriesCanonical s)
    (hc' : MemoriesCanonical s') (e : runCommand check rule s = .next t) (e' : runCommand check rule s' = .next t') :
    SameVisible t t' ∧ t.status = t'.status := by
  have hissue : Alike s.issue s'.issue := ⟨h, rfl, hc, hc'⟩
  have hcheck := hi.sameFault hissue
  rcases runCommand_cases e with ⟨code, hf, rfl⟩ | ⟨hok, u, hu, rfl⟩ <;>
    rcases runCommand_cases e' with ⟨code', hf', rfl⟩ | ⟨hok', u', hu', rfl⟩
  case inl.inl =>
    obtain rfl : code = code' := Option.some.inj (hf.symm.trans (hcheck.trans hf'))
    exact ⟨h, rfl⟩
  case inl.inr => cases hf.symm.trans (hcheck.trans hok')
  case inr.inl => cases hok.symm.trans (hcheck.trans hf')
  case inr.inr =>
    have hend := hi.sameEnd hissue hok hok' hu hu'
    exact ⟨hend.visible, congrArg (setFlag · flagDone true) hend.status⟩

theorem exec_visible {i : Instr} {s s' t t' : State} (hi : i.isCommand = true) (hc : MemoriesCanonical s)
    (hc' : MemoriesCanonical s') (h : SameVisible s s') (e : exec i s = .next t) (e' : exec i s' = .next t') :
    SameVisible t t' ∧ t.status = t'.status := by
  cases i with
  | readBits sel => exact runCommand_visible readBits_ignoresInternals h hc hc' e e'
  | writeBits sel => exact runCommand_visible writeBits_ignoresInternals h hc hc' e e'
  | decompress sel => exact runCommand_visible decompress_ignoresInternals h hc hc' e e'
  | compress sel => exact runCommand_visible compress_ignoresInternals h hc hc' e e'
  | decrypt sel => exact runCommand_visible (cipher_ignoresInternals true sel) h hc hc' e e'
  | encrypt sel => exact runCommand_visible (cipher_ignoresInternals false sel) h hc hc' e e'
  | decode sel => exact runCommand_visible decode_ignoresInternals h hc hc' e e'
  | encode sel => exact runCommand_visible encode_ignoresInternals h hc hc' e e'
  | badOp w =>
    obtain rfl := Host.Outcome.next.inj e
    obtain rfl := Host.Outcome.next.inj e'
    exact ⟨h, rfl⟩
  | lit v => cases hi
  | ref e l => cases hi
  | term => cases hi
  | term2 => cases hi

/-- Settles O40: every host read is of a visible part, and every command keeps two states alike, by `exec_visible`. -/
theorem nothingInternalCarriesOver : Obligations.NothingInternalCarriesOver := by
  unfold Obligations.NothingInternalCarriesOver
  exact ⟨fun _ _ h hst => ⟨fun slot => readReg_visible h hst (regOfSlot slot), byteAt_visible h⟩,
    fun _ _ _ _ _ hi hc hc' h e e' => exec_visible hi hc hc' h e e'⟩

end Sys2Proof.Machine

/-! The interface registers a command leaves alone, and that every command answers: with them, a host program runs to its
end. -/

namespace Sys2Proof.Machine

/-! ## The registers that a command may write -/

/-- `t` differs from `s`, of the operand registers, the launch and the model's lists, only in what `i` owns: BIT_DATA is
READ_BITS's, the position registers are READ_BITS's and WRITE_BITS's (40_bitstream.md R146, R147). -/
def WritesOwnRegisters (i : Instr) (s t : State) : Prop :=
  SameOperands s t ∧
    ((∀ sel, i ≠ .readBits sel) → t.bitData = s.bitData) ∧
    ((∀ sel, i ≠ .readBits sel ∧ i ≠ .writeBits sel) → t.bitCursor = s.bitCursor ∧ t.bitMask = s.bitMask)

theorem SameOperands.refl (s : State) : SameOperands s s := ⟨rfl, rfl, rfl, rfl, rfl, rfl, rfl, rfl⟩

theorem SameBitRegs.refl (s : State) : SameBitRegs s s := ⟨rfl, rfl, rfl⟩

theorem writesOwnRegisters_of_frame {s t : State} (h : SameOperands s t ∧ SameBitRegs s t) (i : Instr) :
    WritesOwnRegisters i s t := by
  obtain ⟨hops, hcursor, hmask, hdata⟩ := h
  exact ⟨hops, fun _ => hdata, fun _ => ⟨hcursor, hmask⟩⟩

theorem frame_trans {s a b : State} (h1 : SameOperands s a ∧ SameBitRegs s a) (h2 : SameOperands a b ∧ SameBitRegs a b) :
    SameOperands s b ∧ SameBitRegs s b :=
  ⟨h1.1.trans h2.1, h1.2.trans h2.2⟩

theorem cipherRun_frame {dec : Bool} {sp : Space} {len : Nat} {layer : Layer} {s t : State}
    (hB : 1 ≤ layer.blockSize) (hlen : len ≤ s.size sp) (h : cipherRun dec sp len layer s = some t) :
    SameOperands s t ∧ SameBitRegs s t := by
  obtain ⟨t', e, ft, -⟩ := cipherRun_spec dec sp layer hB hlen
  obtain rfl : t' = t := Option.some.inj (e.symm.trans h)
  obtain ⟨hops, hbits, -⟩ := ciphered_frame ft
  exact ⟨hops, hbits⟩

theorem compressRun_frame {s t : State} (hsrc : s.srcLen.toNat ≤ s.launch.srcMem)
    (hcap : compressCap s.srcLen.toNat ≤ s.launch.dstMem) (h : compressRun s = some t) :
    SameOperands s t ∧ SameBitRegs s t := by
  obtain ⟨t', -, e, ft, -⟩ := compressRun_spec hsrc hcap
  obtain rfl : t' = t := Option.some.inj (e.symm.trans h)
  obtain ⟨hops, hbits, -⟩ := compressed_frame ft
  exact ⟨hops, hbits⟩

theorem decompressRun_frame {s t : State} (hsrc : s.srcLen.toNat ≤ s.launch.srcMem)
    (hdst : s.dstLen.toNat ≤ s.launch.dstMem) (h : decompressRun s = some t) : SameOperands s t ∧ SameBitRegs s t := by
  obtain ⟨out, o, ended, -, e, -⟩ := decompressRun_spec hsrc hdst
  obtain ⟨hops, hbits, -⟩ := decoded_frame (Option.some.inj (h.symm.trans e))
  exact ⟨hops, hbits⟩

/-- A rule leaves every register that is not `i`'s own. -/
def RuleWritesOwnRegisters (i : Instr) (check : State → Option FaultCode) (rule : State → Option State) : Prop :=
  ∀ s u, check s = none → rule s = some u → WritesOwnRegisters i s u

theorem readBits_writesOwn (sel : Space) : RuleWritesOwnRegisters (.readBits sel) checkReadBits readBitsRule := by
  intro s u _ hr
  obtain ⟨r, -, rfl⟩ := Option.map_eq_some_iff.mp hr
  exact ⟨SameOperands.refl s, fun h => absurd rfl (h sel), fun h => absurd rfl (h sel).1⟩

theorem writeBits_writesOwn (sel : Space) : RuleWritesOwnRegisters (.writeBits sel) checkWriteBits writeBitsRule := by
  intro s u hc hr
  obtain ⟨hmask, hwidth, hfit⟩ := bounds_of_checkWriteBits hc
  obtain ⟨mem, e, -⟩ := writeBitsRule_spec hmask rfl hwidth hfit
  obtain rfl := Option.some.inj (e.symm.trans hr)
  exact ⟨SameOperands.refl s, fun _ => rfl, fun h => absurd rfl (h sel).2⟩

theorem cipher_writesOwn (i : Instr) (dec : Bool) (sel : Space) :
    RuleWritesOwnRegisters i (checkCipher sel) (cipherRule dec sel) := by
  intro s u hc hr
  obtain ⟨hB, hlen⟩ := bounds_of_checkCipher hc
  obtain ⟨v, hv, rfl⟩ := Option.map_eq_some_iff.mp hr
  exact writesOwnRegisters_of_frame (cipherRun_frame hB hlen hv) i

theorem compress_writesOwn (i : Instr) : RuleWritesOwnRegisters i checkCompress compressRule := by
  intro s u hc hr
  obtain ⟨hsrc, hcap⟩ := bounds_of_checkCompress hc
  obtain ⟨v, hv, rfl⟩ := Option.map_eq_some_iff.mp hr
  exact writesOwnRegisters_of_frame (compressRun_frame hsrc hcap hv) i

theorem decompress_writesOwn (i : Instr) : RuleWritesOwnRegisters i checkBothLens decompressRule := by
  intro s u hc hr
  obtain ⟨hsrc, hdst⟩ := bounds_of_checkBothLens hc
  obtain ⟨v, hv, rfl⟩ := Option.map_eq_some_iff.mp hr
  exact writesOwnRegisters_of_frame (decompressRun_frame hsrc hdst hv) i

theorem decode_writesOwn (i : Instr) : RuleWritesOwnRegisters i checkBothLens decodeRule := by
  intro s u hc hr
  obtain ⟨hsrc, hdst⟩ := bounds_of_checkBothLens hc
  obtain ⟨a, b, c, ea, ha, eb, ⟨hsrcb, hdstb⟩, ec, rfl⟩ := decodeRule_stages hsrc hdst hr
  have fa := cipherRun_frame (by decide) hsrc ea
  have fb := cipherRun_frame (by decide) ha eb
  exact writesOwnRegisters_of_frame (frame_trans (frame_trans fa fb) (decompressRun_frame hsrcb hdstb ec)) i

theorem encode_writesOwn (i : Instr) : RuleWritesOwnRegisters i checkCompress encodeRule := by
  intro s u hc hr
  obtain ⟨hsrc, hcap⟩ := bounds_of_checkCompress hc
  obtain ⟨a, b, c, ea, ha, eb, hb, ec, rfl⟩ := encodeRule_stages hsrc hcap hr
  have fb := cipherRun_frame (by decide) ha eb
  have fc := cipherRun_frame (by decide) hb ec
  exact writesOwnRegisters_of_frame (frame_trans (frame_trans (compressRun_frame hsrc hcap ea) fb) fc) i

/-- Neither issue, nor a fault, nor completion touches an operand register (60_exceptions.md R240 to R242). -/
theorem runCommand_writesOwn {i : Instr} {check : State → Option FaultCode} {rule : State → Option State}
    (hrule : RuleWritesOwnRegisters i check rule) {s t : State} (h : runCommand check rule s = .next t) :
    WritesOwnRegisters i s t := by
  rcases runCommand_cases h with ⟨code, -, rfl⟩ | ⟨hc, u, hu, rfl⟩
  · exact writesOwnRegisters_of_frame ⟨SameOperands.refl s, SameBitRegs.refl s⟩ i
  · exact hrule s.issue u hc hu

theorem exec_writesOwn {i : Instr} {s t : State} (hi : i.isCommand = true) (h : exec i s = .next t) :
    WritesOwnRegisters i s t := by
  cases i with
  | readBits sel => exact runCommand_writesOwn (readBits_writesOwn sel) h
  | writeBits sel => exact runCommand_writesOwn (writeBits_writesOwn sel) h
  | decompress sel => exact runCommand_writesOwn (decompress_writesOwn _) h
  | compress sel => exact runCommand_writesOwn (compress_writesOwn _) h
  | decrypt sel => exact runCommand_writesOwn (cipher_writesOwn _ true sel) h
  | encrypt sel => exact runCommand_writesOwn (cipher_writesOwn _ false sel) h
  | decode sel => exact runCommand_writesOwn (decode_writesOwn _) h
  | encode sel => exact runCommand_writesOwn (encode_writesOwn _) h
  | badOp w =>
    obtain rfl := Host.Outcome.next.inj h
    exact writesOwnRegisters_of_frame ⟨SameOperands.refl s, SameBitRegs.refl s⟩ _
  | lit v => cases hi
  | ref e l => cases hi
  | term => cases hi
  | term2 => cases hi

/-- Settles O38: each rule writes its own registers only, and `exec_writesOwn` collects the rules. -/
theorem operandRegistersNeverWritten : Obligations.OperandRegistersNeverWritten := by
  unfold Obligations.OperandRegistersNeverWritten
  exact fun _ _ _ => exec_writesOwn

/-! ## Every command answers -/

/-- A rule answers a state wherever the command's checks pass (60_exceptions.md R242, 20_memory.md R74). -/
def RuleAnswers (check : State → Option FaultCode) (rule : State → Option State) : Prop :=
  ∀ s, check s = none → ∃ u, rule s = some u

theorem readBits_answers : RuleAnswers checkReadBits readBitsRule := by
  intro s hc
  obtain ⟨hsrc, hmask⟩ := bounds_of_checkReadBits hc
  exact ⟨_, readBitsRule_eq hsrc hmask⟩

theorem writeBits_answers : RuleAnswers checkWriteBits writeBitsRule := by
  intro s hc
  obtain ⟨hmask, hwidth, hfit⟩ := bounds_of_checkWriteBits hc
  obtain ⟨mem, e, -⟩ := writeBitsRule_spec hmask rfl hwidth hfit
  exact ⟨_, e⟩

theorem cipher_answers (dec : Bool) (sel : Space) : RuleAnswers (checkCipher sel) (cipherRule dec sel) := by
  intro s hc
  obtain ⟨hB, hlen⟩ := bounds_of_checkCipher hc
  obtain ⟨t, e, -⟩ := cipherRun_spec dec sel s.keyLayer hB hlen
  exact ⟨_, Option.map_eq_some_iff.mpr ⟨t, e, rfl⟩⟩

theorem compress_answers : RuleAnswers checkCompress compressRule := by
  intro s hc
  obtain ⟨hsrc, hcap⟩ := bounds_of_checkCompress hc
  obtain ⟨t, -, e, -⟩ := compressRun_spec hsrc hcap
  exact ⟨_, Option.map_eq_some_iff.mpr ⟨t, e, rfl⟩⟩

theorem decompress_answers : RuleAnswers checkBothLens decompressRule := by
  intro s hc
  obtain ⟨hsrc, hdst⟩ := bounds_of_checkBothLens hc
  obtain ⟨t, e⟩ := decompressRun_total hsrc hdst
  exact ⟨_, Option.map_eq_some_iff.mpr ⟨t, e, rfl⟩⟩

theorem decode_answers : RuleAnswers checkBothLens decodeRule := by
  intro s hc
  obtain ⟨hsrc, hdst⟩ := bounds_of_checkBothLens hc
  obtain ⟨a, b, c, -, -, -, e⟩ := decodeRule_spec hsrc hdst
  exact ⟨_, e⟩

theorem encode_answers : RuleAnswers checkCompress encodeRule := by
  intro s hc
  obtain ⟨hsrc, hcap⟩ := bounds_of_checkCompress hc
  obtain ⟨a, b, c, -, -, -, -, e⟩ := encodeRule_spec hsrc hcap
  exact ⟨_, e⟩

/-- Every command answers a next state, from every state (60_exceptions.md R242). -/
theorem exec_command_total {i : Instr} (hi : i.isCommand = true) (s : State) : ∃ t, exec i s = .next t := by
  cases i with
  | readBits sel => exact runCommand_total (readBits_answers s.issue)
  | writeBits sel => exact runCommand_total (writeBits_answers s.issue)
  | decompress sel => exact runCommand_total (decompress_answers s.issue)
  | compress sel => exact runCommand_total (compress_answers s.issue)
  | decrypt sel => exact runCommand_total (cipher_answers true sel s.issue)
  | encrypt sel => exact runCommand_total (cipher_answers false sel s.issue)
  | decode sel => exact runCommand_total (decode_answers s.issue)
  | encode sel => exact runCommand_total (encode_answers s.issue)
  | badOp w => exact ⟨_, rfl⟩
  | lit v => cases hi
  | ref e l => cases hi
  | term => cases hi
  | term2 => cases hi

/-! ## A host program runs to its end -/

theorem writeReg_host (s : State) (data : Word) (r : Reg) : (s.writeReg data r).host = s.host := by cases r <;> rfl

/-- A host transaction in range answers, and leaves the transactions after it pending (20_memory.md R73). -/
theorem hostAccess_inRange {op : HostOp} {s : State} (h : op.inRange s) :
    ∃ t, hostAccess op s = .next t ∧ t.host = s.host := by
  cases op with
  | wr slot data =>
    by_cases hs : regOfSlot slot = .cmd
    · obtain ⟨t, ht⟩ := exec_command_total (decodeCmd_isCommand data) s
      obtain ⟨⟨-, -, -, -, -, -, hhost, -⟩, -⟩ := exec_writesOwn (decodeCmd_isCommand data) ht
      exact ⟨t, (if_pos hs).trans ht, hhost⟩
    · exact ⟨_, hostAccess_wr hs data s, writeReg_host s data _⟩
  | rd slot => exact ⟨_, rfl, rfl⟩
  | mw sp a v => exact ⟨_, hostAccess_mw v h, State.withMem_host s sp _⟩
  | mr sp a => exact ⟨_, hostAccess_mr h, rfl⟩

theorem inRange_of_launch {op : HostOp} {s t : State} (hl : t.launch = s.launch) (h : op.inRange s) : op.inRange t := by
  have hsize : ∀ sp, t.size sp = s.size sp := fun sp => by cases sp <;> simp [hl]
  cases op with
  | wr slot data => trivial
  | rd slot => trivial
  | mw sp a v => rw [HostOp.inRange, hsize]; exact h
  | mr sp a => rw [HostOp.inRange, hsize]; exact h

/-- The first `k` transactions of a host program in range run, and leave the ones after them pending. -/
theorem run_inRange (k : Nat) : ∀ {s : State}, s.core = .idle → (∀ op, op ∈ s.host → op.inRange s) →
    k ≤ s.host.length → ∃ t, run k s = .next t ∧ t.host = s.host.drop k := by
  induction k with
  | zero => exact fun {s} _ _ _ => ⟨s, run_zero s, rfl⟩
  | succ k ih =>
    intro s hc hr hk
    cases hh : s.host with
    | nil => rw [hh] at hk; cases hk
    | cons op rest =>
      rw [hh] at hr hk
      have hop : op.inRange { s with host := rest } := inRange_of_launch (s := s) rfl (hr op List.mem_cons_self)
      obtain ⟨u, hu, hhost⟩ := hostAccess_inRange hop
      have hhost : u.host = rest := hhost
      rw [← step_idle hc hh] at hu
      have hrest : ∀ op', op' ∈ u.host → op'.inRange u := by
        rw [hhost]
        exact fun op' h' => inRange_of_launch (step_launch hu) (hr op' (List.mem_cons_of_mem op h'))
      obtain ⟨t, ht, hdrop⟩ := ih (step_core_idle hc hu) hrest (by rw [hhost]; exact Nat.le_of_succ_le_succ hk)
      exact ⟨t, (run_succ k hu).trans ht, by rw [hdrop, hhost, List.drop_succ_cons]⟩

/-- Settles O49: the first `k` transactions run by `run_inRange`, and every step keeps the core IDLE and the launch. -/
theorem hostProgramRunsToItsEnd : Obligations.HostProgramRunsToItsEnd := by
  unfold Obligations.HostProgramRunsToItsEnd
  intro s hc hr k hk
  obtain ⟨t, ht, hhost⟩ := run_inRange k hc hr hk
  have hidle : t.core = .idle := run_core_idle hc ht
  exact ⟨t, ht, hidle, hhost, run_launch ht, keepsBusyDuty_of_idle hidle⟩

end Sys2Proof.Machine

/-! HIST over one token (10_state.md R45), and the host's access to the registers (10_state.md R31, R53). -/

namespace Sys2Proof.Machine

/-! ## HIST over one token -/

/-- A token instruction is the token's rule (41_lzss_decompress.md R160; log 11). -/
theorem exec_token (tok : Token) (s : State) : exec tok.instr s = outcome (runToken tok s) := by cases tok <;> rfl

theorem outcome_next {r : Option State} {t : State} (h : outcome r = .next t) : r = some t := by
  cases r with
  | none => cases h
  | some u => exact congrArg some (Host.Outcome.next.inj h)

theorem histHolds_skipToken {s : State} {out : List Byte} (h : HistHolds s out) (n : Nat) :
    HistHolds (s.skipToken n) out := h.congr rfl rfl rfl

theorem termRule_histHolds {s t : State} {out : List Byte} (h : HistHolds s out) (ht : termRule s = some t) :
    HistHolds t (out ++ []) := by
  obtain rfl := Option.some.inj ht
  rw [List.append_nil]
  exact h.congr rfl rfl rfl

/-- A token keeps HIST's invariant, with the bytes it produces. The read position may be any: no byte depends on it. -/
theorem runToken_histHolds {tok : Token} {s t : State} {out : List Byte} (hwf : tok.instr.wellFormed = true)
    (hdst : s.dstLen.toNat ≤ s.launch.dstMem) (hw : Memory.wf s.hist = true) (h : HistHolds s out)
    (ht : runToken tok s = some t) : HistHolds t (out ++ tokenBytes s.launch.histInit out tok) := by
  cases tok with
  | lit v =>
    obtain rfl := Option.some.inj ((litRule_eq (fun hq => hq.trans_le hdst) v).symm.trans ht)
    exact histHolds_produced (histHolds_skipToken h 9) hw [v]
  | ref e l =>
    have he : e ≠ 0#13 := bne_iff_ne.mp hwf
    have hcopy := copyHist_copied (l.toNat + Config.minMatch) (e.toNat - 1) (s.skipToken 18) out hdst
      (histHolds_skipToken h 18) hw
    rw [runToken, refRule, if_neg he, hcopy] at ht
    obtain rfl := Option.some.inj ht
    exact histHolds_produced (histHolds_skipToken h 18) hw _
  | term => exact termRule_histHolds h ht
  | term2 => exact termRule_histHolds h ht

/-- Settles O15: the loop starts with nothing produced, and every token keeps the invariant by `runToken_histHolds`. -/
theorem historyHoldsProducedBytes : Obligations.HistoryHoldsProducedBytes := by
  unfold Obligations.HistoryHoldsProducedBytes
  refine ⟨histHolds_decompressInit, fun tok s t out hwf hdst hw h e => ?_⟩
  rw [exec_token] at e
  exact runToken_histHolds hwf hdst hw h (outcome_next e)

/-! ## Register access -/

/-- A register write, the core IDLE (10_state.md R53). -/
theorem step_wr {s : State} {slot : Fin 16} {data : Word} {rest : List HostOp} (hc : s.core = .idle)
    (h : s.host = .wr slot data :: rest) (hs : regOfSlot slot ≠ .cmd) :
    step s = .next (({ s with host := rest } : State).writeReg data (regOfSlot slot)) := by
  rw [step_idle hc h, hostAccess_wr hs]

/-- A word whose reserved bits are not all 0 is BAD_OP (30_encoding.md R101). -/
theorem decodeCmd_reserved {w : Word} (h : w.extractLsb' 5 27 ≠ 0#27) : decodeCmd w = .badOp w := if_pos h

/-- A write of such a word to CMD takes the fault BAD_OP (60_exceptions.md R245). -/
theorem step_reserved {s : State} {data : Word} {rest : List HostOp} (hc : s.core = .idle)
    (h : s.host = .wr 0 data :: rest) (hw : data.extractLsb' 5 27 ≠ 0#27) :
    step s = .next (afterFault { s with host := rest } .badOp) := by
  rw [step_idle hc h, hostAccess_cmd, decodeCmd_reserved hw, ← takeFault_issue]
  rfl

/-- STATUS, RESULT_LEN and slots 11 to 15 ignore writes (10_state.md R31, R53). -/
theorem regOfSlot_readOnly {slot : Fin 16} (h : slot = 1 ∨ slot = 4 ∨ 11 ≤ slot.val) :
    regOfSlot slot = .status ∨ regOfSlot slot = .resultLen ∨ regOfSlot slot = .reserved := by
  revert slot
  decide

theorem step_wr_readOnly {s : State} {slot : Fin 16} {data : Word} {rest : List HostOp} (hc : s.core = .idle)
    (hslot : slot = 1 ∨ slot = 4 ∨ 11 ≤ slot.val) (h : s.host = .wr slot data :: rest) :
    step s = .next { s with host := rest } := by
  rcases regOfSlot_readOnly hslot with hr | hr | hr <;> rw [step_wr hc h (by rw [hr]; decide), hr] <;> rfl

/-- What each slot reads: the register's bits, its reserved bits 0 (10_state.md R31, R53). -/
def slotValues (s : State) : List (Fin 16 × Word) :=
  [(0, 0#32), (1, s.status), (2, s.srcLen), (3, s.dstLen), (4, s.resultLen), (5, s.ciphBlock), (6, 0#16 ++ s.ciphKey),
    (7, s.bitCursor), (8, 0#24 ++ s.bitMask), (9, 0#27 ++ s.bitN), (10, 0#16 ++ s.bitData), (11, 0#32), (12, 0#32),
    (13, 0#32), (14, 0#32), (15, 0#32)]

theorem readReg_slotValues (s : State) : ∀ x ∈ slotValues s, s.readReg (regOfSlot x.1) = x.2 := by
  have hkey := BitVec.setWidth_eq_append (x := s.ciphKey) (w := 32) (by decide)
  have hmask := BitVec.setWidth_eq_append (x := s.bitMask) (w := 32) (by decide)
  have hwidth := BitVec.setWidth_eq_append (x := s.bitN) (w := 32) (by decide)
  have hbits := BitVec.setWidth_eq_append (x := s.bitData) (w := 32) (by decide)
  simp only [slotValues, List.forall_mem_cons]
  exact ⟨rfl, rfl, rfl, rfl, rfl, rfl, hkey, rfl, hmask, hwidth, hbits, rfl, rfl, rfl, rfl, rfl, by simp⟩

/-- The bits that each writable register has (10_state.md R31). -/
def usedBits : List (Fin 16 × Word) :=
  [(2, 0xFFFFFFFF#32), (3, 0xFFFFFFFF#32), (5, 0xFFFFFFFF#32), (6, 0x0000FFFF#32), (7, 0xFFFFFFFF#32),
    (8, 0x000000FF#32), (9, 0x0000001F#32), (10, 0x0000FFFF#32)]

/-- A register of `n` bits gives a word back without the bits above them. -/
theorem setWidth_setWidth_eq_and (data : Word) (n : Nat) :
    (data.setWidth n).setWidth 32 = data &&& (BitVec.allOnes n).setWidth 32 := by
  ext i hi
  simp [hi, Bool.and_comm]

theorem readReg_writeReg (s : State) (data : Word) :
    ∀ x ∈ usedBits, regOfSlot x.1 ≠ .cmd ∧
      (s.writeReg data (regOfSlot x.1)).readReg (regOfSlot x.1) = data &&& x.2 := by
  have hwhole : data = data &&& 0xFFFFFFFF#32 := (BitVec.and_allOnes (x := data)).symm
  have hused := setWidth_setWidth_eq_and data
  simp only [usedBits, List.forall_mem_cons]
  exact ⟨⟨by decide, hwhole⟩, ⟨by decide, hwhole⟩, ⟨by decide, hwhole⟩, ⟨by decide, hused 16⟩, ⟨by decide, hwhole⟩,
    ⟨by decide, hused 8⟩, ⟨by decide, hused 5⟩, ⟨by decide, hused 16⟩, by simp⟩

theorem writeReg_replies (s : State) (data : Word) (r : Reg) : (s.writeReg data r).replies = s.replies := by
  cases r <;> rfl

theorem step_rd_writeReg {s : State} {slot : Fin 16} {data v : Word} {rest : List HostOp} (hc : s.core = .idle)
    (h : s.host = .rd slot :: rest) (hread : (s.writeReg data (regOfSlot slot)).readReg (regOfSlot slot) = v) :
    step (s.writeReg data (regOfSlot slot)) = .next { s.writeReg data (regOfSlot slot) with
      host := rest
      replies := s.replies ++ [.reg slot v] } := by
  rw [step_rd ((writeReg_core ..).trans hc) ((writeReg_host ..).trans h), hread, writeReg_replies]

/-- What is written reads back without its reserved bits (10_state.md R53). -/
theorem step_wr_rd {s : State} {slot : Fin 16} {data used : Word} {rest : List HostOp} (hc : s.core = .idle)
    (hmem : (slot, used) ∈ usedBits) (h : s.host = .wr slot data :: .rd slot :: rest) :
    ∃ t, step s = .next t ∧
      step t = .next { t with host := rest, replies := s.replies ++ [.reg slot (data &&& used)] } := by
  obtain ⟨hslot, hread⟩ := readReg_writeReg { s with host := .rd slot :: rest } data _ hmem
  exact ⟨_, step_wr hc h hslot, step_rd_writeReg (s := { s with host := .rd slot :: rest }) hc rfl hread⟩

/-- Settles O44: writes by `step_wr`, reads by `step_rd` with the values of `readReg_slotValues`, a write and its read-back
by `step_wr_rd`, and a reserved command word by `step_reserved`. -/
theorem registerAccessRules : Obligations.RegisterAccessRules := by
  unfold Obligations.RegisterAccessRules
  intro s rest data hc
  have hnarrow : ∀ n, n ≤ 32 → data.extractLsb' 0 n = data.setWidth n :=
    fun _ hn => (BitVec.setWidth_eq_extractLsb' hn).symm
  rw [hnarrow 16 (by decide), hnarrow 8 (by decide), hnarrow 5 (by decide)]
  refine ⟨fun h => step_wr hc h (by decide), fun h => step_wr hc h (by decide), fun h => step_wr hc h (by decide),
    fun h => step_wr hc h (by decide), fun h => step_wr hc h (by decide), fun h => step_wr hc h (by decide),
    fun h => step_wr hc h (by decide), fun h => step_wr hc h (by decide),
    fun slot hslot h => step_wr_readOnly hc hslot h, fun slot v hmem h => ?_, fun slot used hmem h => step_wr_rd hc hmem h,
    fun h hw => step_reserved hc h hw⟩
  rw [step_rd hc h, readReg_slotValues s _ hmem]

end Sys2Proof.Machine

/-! The host's access to the memories (20_memory.md R73, R74), and where the model itself stops (logs 1, 13, 14). -/

namespace Sys2Proof.Machine

/-! ## Memory access -/

theorem mem_wf {s : State} (h : MemoriesCanonical s) (sp : Space) : Memory.wf (s.mem sp) = true := by
  obtain ⟨hsrc, hdst, -⟩ := h
  cases sp with
  | src => exact hsrc
  | dst => exact hdst

/-- A byte stored in a space is read back there; every other byte of both spaces reads as before (20_memory.md R74). -/
theorem byteAt_withMem_write {s : State} {sp : Space} (hw : Memory.wf (s.mem sp) = true) (a : Nat) (v : Byte)
    (sp' : Space) (x : Nat) : (s.withMem sp (Memory.write (s.mem sp) a v)).byteAt sp' x =
      if sp' = sp ∧ x = a then v else s.byteAt sp' x := by
  rw [State.byteAt, State.withMem_mem]
  by_cases hsp : sp' = sp
  · subst hsp
    rw [if_pos rfl, Memory.read_write hw]
    simp only [true_and]
    rfl
  · rw [if_neg hsp, if_neg fun h => hsp h.1]
    rfl

/-- Replacing a memory leaves every field but SRC and DST. -/
theorem withMem_frame (s : State) (sp : Space) (mem : Memory) :
    s.withMem sp mem = { s with src := (s.withMem sp mem).src, dst := (s.withMem sp mem).dst } := by
  cases sp <;> rfl

/-- A memory write by the host, the core IDLE (20_memory.md R73). -/
theorem step_mw {s : State} {sp : Space} {a : Nat} {v : Byte} {rest : List HostOp} (hc : s.core = .idle)
    (ha : a < s.size sp) (h : s.host = .mw sp a v :: rest) :
    step s = .next (({ s with host := rest } : State).withMem sp
      (Memory.write (({ s with host := rest } : State).mem sp) a v)) := by
  rw [step_idle hc h, hostAccess_mw v (by rwa [size_with_host])]

/-- A memory read by the host, the core IDLE (20_memory.md R73; the reply is log 2). -/
theorem step_mr {s : State} {sp : Space} {a : Nat} {rest : List HostOp} (hc : s.core = .idle) (ha : a < s.size sp)
    (h : s.host = .mr sp a :: rest) :
    step s = .next { s with host := rest, replies := s.replies ++ [.byte sp a (s.byteAt sp a)] } := by
  rw [step_idle hc h, hostAccess_mr (by rwa [size_with_host]), byteAt_with_host]
  rfl

/-- Settles O45: the write by `step_mw`, its bytes by `byteAt_withMem_write` and its frame by `withMem_frame`; the read by
`step_mr`. -/
theorem hostMemoryAccess : Obligations.HostMemoryAccess := by
  unfold Obligations.HostMemoryAccess
  intro s sp a v rest hc hcan ha
  refine ⟨fun h => ⟨_, step_mw hc ha h, fun sp' x => ?_, withMem_frame _ sp _⟩, fun h => step_mr hc ha h⟩
  rw [byteAt_withMem_write (s := { s with host := rest }) (mem_wf hcan sp), byteAt_with_host]

/-! ## The model's own stops -/

/-- A memory access outside the memory stops (log 13). -/
theorem step_hostOutOfRange {s : State} {sp : Space} {a : Nat} {v : Byte} {rest : List HostOp} (hc : s.core = .idle)
    (ha : s.size sp ≤ a) (h : s.host = .mw sp a v :: rest ∨ s.host = .mr sp a :: rest) :
    step s = .fault .hostOutOfRange := by
  have hout : ({ s with host := rest } : State).size sp ≤ a := by rwa [size_with_host]
  obtain h | h := h
  · rw [step_idle hc h, hostAccess_mw_out v hout]
  · rw [step_idle hc h, hostAccess_mr_out hout]

theorem regOfSlot_eq_status_iff {slot : Fin 16} : regOfSlot slot = .status ↔ slot = 1 := by
  revert slot
  decide

/-- The one transaction that a BUSY core takes is the STATUS read (70_reset_and_hazards.md R281). -/
theorem whileBusy_eq_false {op : HostOp} (h : op ≠ .rd 1) : op.whileBusy = false := by
  cases op with
  | wr slot data => rfl
  | rd slot => exact decide_eq_false fun hs => h (congrArg HostOp.rd (regOfSlot_eq_status_iff.mp hs))
  | mw sp a v => rfl
  | mr sp a => rfl

/-- Settles O46: an access out of range by `step_hostOutOfRange`, a BUSY core by `step_busy` and `step_busy_status`, and no
transaction by `step_nil`. -/
theorem stopsOutsideTheSpec : Obligations.StopsOutsideTheSpec := by
  unfold Obligations.StopsOutsideTheSpec
  exact fun s rest => ⟨fun sp a v hc ha h => step_hostOutOfRange hc ha h,
    fun op hc h hop => step_busy hc h (whileBusy_eq_false hop), fun _ h => step_busy_status h rfl, step_nil⟩

end Sys2Proof.Machine

/-! Decoding and encoding (30_encoding.md): the sixteen command words and the reserved ones, the token at the head of a
stream, and that the decoders undo the encoder. -/

namespace Sys2Proof.Machine

/-! ## Command words -/

/-- The sixteen legal command words, in the order of 30_encoding.md R100. -/
def legalWords : List Word :=
  [0x01#32, 0x02#32, 0x03#32, 0x04#32, 0x05#32, 0x15#32, 0x06#32, 0x16#32, 0x07#32, 0x08#32, 0x11#32, 0x12#32, 0x13#32,
    0x14#32, 0x17#32, 0x18#32]

/-- A word has a reserved bit set, or it is its low five bits. -/
theorem reservedBits_ne_zero_or_low (w : Word) : w.extractLsb' 5 27 ≠ 0#27 ∨ ∃ low : BitVec 5, w = 0#27 ++ low := by
  by_cases h : w.extractLsb' 5 27 = 0#27
  · have hsplit := BitVec.extractLsb'_append_extractLsb'_eq_extractLsb' (x := w) (start₁ := 0) (len₁ := 5) (start₂ := 5)
      (len₂ := 27) rfl
    rw [h, BitVec.extractLsb'_eq_self] at hsplit
    exact .inr ⟨_, hsplit.symm⟩
  · exact .inl h

/-- A word that is not reserved is its low five bits (30_encoding.md R100). -/
theorem low_of_not_reserved {w : Word} (h : Word.reserved w = false) : ∃ low : BitVec 5, w = 0#27 ++ low := by
  refine (reservedBits_ne_zero_or_low w).resolve_left fun hne => ?_
  simp only [Word.reserved, Bool.or_eq_false_iff, bne_eq_false_iff_eq] at h
  obtain ⟨⟨hhigh, -⟩, -⟩ := h
  exact hne hhigh

/-- A word that is not reserved is one of the sixteen legal words (30_encoding.md R100). -/
theorem mem_legalWords_of_not_reserved {w : Word} (h : Word.reserved w = false) : w ∈ legalWords := by
  have hlow : ∀ low : BitVec 5, Word.reserved (0#27 ++ low) = false → 0#27 ++ low ∈ legalWords := by decide
  obtain ⟨low, rfl⟩ := low_of_not_reserved h
  exact hlow low h

/-- A word that is not reserved stands for a well-formed command, and that command is encoded as the word
(30_encoding.md R100). -/
theorem decodeCmd_of_not_reserved {w : Word} (h : Word.reserved w = false) :
    (decodeCmd w).wellFormed = true ∧ encode (decodeCmd w) = .word w ∧ decodeCmd w ≠ .badOp w := by
  have hlow : ∀ low : BitVec 5, Word.reserved (0#27 ++ low) = false → (decodeCmd (0#27 ++ low)).wellFormed = true ∧
      encode (decodeCmd (0#27 ++ low)) = .word (0#27 ++ low) ∧ decodeCmd (0#27 ++ low) ≠ .badOp (0#27 ++ low) := by decide
  obtain ⟨low, rfl⟩ := low_of_not_reserved h
  exact hlow low h

/-- A reserved word is BAD_OP (30_encoding.md R101): a reserved bit is set, or OP is none of 0x1 to 0x8. -/
theorem decodeCmd_of_reserved {w : Word} (h : Word.reserved w = true) : decodeCmd w = .badOp w := by
  have hlow : ∀ low : BitVec 5, Word.reserved (0#27 ++ low) = true → decodeCmd (0#27 ++ low) = .badOp (0#27 ++ low) := by
    decide
  obtain hne | ⟨low, rfl⟩ := reservedBits_ne_zero_or_low w
  · exact decodeCmd_reserved hne
  · exact hlow low h

/-- The command decoder undoes the encoder. -/
theorem decodeCmd_of_encode {i : Instr} {w : Word} (hwf : i.wellFormed = true) (h : encode i = .word w) :
    decodeCmd w = i := by
  cases i with
  | readBits sel | writeBits sel | decompress sel | compress sel | decrypt sel | encrypt sel | decode sel | encode sel =>
    obtain rfl := Encoding.word.inj h
    cases sel <;> rfl
  | badOp v =>
    obtain rfl := Encoding.word.inj h
    exact decodeCmd_of_reserved hwf
  | lit v => cases h
  | ref e l => cases h
  | term => cases h
  | term2 => cases h

/-- BAD_OP is the fault of that name, from every state (60_exceptions.md R241, R245). -/
theorem exec_badOp (w : Word) (s : State) : exec (.badOp w) s = .next (afterFault s .badOp) :=
  congrArg Host.Outcome.next (takeFault_issue s .badOp)

/-! ## Tokens -/

/-- The bits of a concatenation are the bits of its parts, in order (30_encoding.md R107). -/
theorem bitString_append {n m : Nat} (a : BitVec n) (b : BitVec m) :
    bitString (a ++ b).toNat (n + m) = bitString a.toNat n ++ bitString b.toNat m := by
  refine List.ext_getElem (by simp) fun i hi hi' => ?_
  have hlen : i < n + m := by simpa using hi
  simp only [bitString, List.getElem_append, List.getElem_map, List.getElem_range, List.length_map, List.length_range,
    BitVec.testBit_toNat, BitVec.getLsbD_append]
  by_cases hin : i < n
  · rw [dif_pos hin, if_neg (by omega), show n + m - 1 - i - m = n - 1 - i by omega]
  · rw [dif_neg hin, if_pos (by omega), show n + m - 1 - i = m - 1 - (i - n) by omega]

theorem tokenString_lit (v : Byte) : tokenString (.lit v) = bitString (1#1 ++ v).toNat 9 :=
  (bitString_append 1#1 v).symm

theorem tokenString_ref (e : BitVec 13) (l : BitVec 4) :
    tokenString (.ref e l) = bitString (0#1 ++ e ++ l).toNat 18 := by
  rw [bitString_append (0#1 ++ e) l, bitString_append 0#1 e]
  rfl

/-- A packed token is the first token of its bytes, when the token is the one that its bits name (30_encoding.md R107,
R108). -/
theorem decode_packBits {tok : Token} {width val : Nat} (hpos : 0 < width) (hval : tokenString tok = bitString val width)
    (hnames : ∀ bits len, (∀ i, i < width → bits (0 + i) = (tokenString tok).getD i false) → tokenAt bits len 0 = tok) :
    decode (.stream (packBits width val)) = some tok.instr := by
  have hbits : ∀ i, i < width → readableBit (Memory.writeBytes [] 0 (packBits width val)) (packBits width val).length
      (0 + i) = (tokenString tok).getD i false := fun i hi => by
    rw [Nat.zero_add, packBits_bit (by omega), hval, bitString_getD]
  rw [decode, decodeStream_eq (packBits_ne_nil width val hpos), hnames _ _ hbits]
  rfl

/-- The token found at a position is well formed: a REF's index is not zero (30_encoding.md R109). -/
theorem tokenAt_wellFormed (bits : Nat → Bool) (len o : Nat) : (tokenAt bits len o).instr.wellFormed = true := by
  cases h : tokenAt bits len o with
  | lit v => rfl
  | ref e l => exact bne_iff_ne.mpr (tokenAt_ref_ne_zero h)
  | term => rfl
  | term2 => rfl

/-! ## The statements -/

/-- Settles O1: a command's word by `decodeCmd_of_encode`, a LIT and a REF by the bits their bytes spell; the two
terminators are one stream each (log 10). -/
theorem decodeEncodeRoundTrip : Obligations.DecodeEncodeRoundTrip := by
  unfold Obligations.DecodeEncodeRoundTrip
  intro i hwf
  cases i with
  | readBits _ | writeBits _ | decompress _ | compress _ | decrypt _ | encrypt _ | decode _ | encode _ | badOp _ =>
    exact congrArg some (decodeCmd_of_encode hwf rfl)
  | lit v => exact decode_packBits (by decide) (tokenString_lit v) fun _ _ => tokenAt_lit
  | ref e l => exact decode_packBits (by decide) (tokenString_ref e l) fun _ _ => tokenAt_ref (bne_iff_ne.mp hwf)
  | term => decide
  | term2 => decide

/-- Settles O2: a word is reserved, and then BAD_OP, or a word that `decodeCmd_of_not_reserved` covers. -/
theorem commandDecoderTotal : Obligations.CommandDecoderTotal := by
  unfold Obligations.CommandDecoderTotal
  intro w
  refine ⟨decodeCmd_isCommand w, ?_⟩
  cases h : Word.reserved w with
  | true =>
    rw [decodeCmd_of_reserved h]
    exact ⟨h, rfl, iff_of_true rfl rfl⟩
  | false =>
    obtain ⟨hwf, henc, hne⟩ := decodeCmd_of_not_reserved h
    exact ⟨hwf, henc, iff_of_false hne Bool.false_ne_true⟩

/-- Settles O3: the table by evaluation, the ignored SEL by the arms of `exec`, and every other word by
`mem_legalWords_of_not_reserved`. -/
theorem commandWordTable : Obligations.CommandWordTable := by
  unfold Obligations.CommandWordTable
  refine ⟨by decide, fun s => ⟨rfl, rfl, rfl, rfl, rfl, rfl⟩, fun w hw s => ?_⟩
  have hres : Word.reserved w = true := by
    by_contra h
    exact hw (mem_legalWords_of_not_reserved (Bool.eq_false_iff.mpr h))
  rw [decodeCmd_of_reserved hres]
  exact ⟨_, exec_badOp w s, rfl⟩

/-- Settles O5: `decodeStream_eq` finds a token and `tokenAt_wellFormed` says it is well formed. -/
theorem tokenDecoderTotal : Obligations.TokenDecoderTotal := by
  unfold Obligations.TokenDecoderTotal
  exact fun bytes hne => ⟨_, decodeStream_eq hne, tokenAt_wellFormed _ _ _⟩

/-- Settles O4, word by word. -/
theorem knownWordsDecode : Obligations.KnownWordsDecode := by
  unfold Obligations.KnownWordsDecode
  decide

/-- Settles O32: the decoder answers BAD_OP by `decodeCmd_of_reserved`, and its rule is the fault by `exec_badOp`. -/
theorem badOpTakesFault : Obligations.BadOpTakesFault := by
  unfold Obligations.BadOpTakesFault
  exact fun w s h => ⟨decodeCmd_of_reserved h, exec_badOp w s, rfl, fun sp a => by cases sp <;> rfl⟩

/-- A step with a CMD write pending and the core IDLE runs the command its word encodes (60_exceptions.md R240). -/
theorem step_cmd {s : State} {w : Word} {rest : List HostOp} (hc : s.core = .idle) (h : s.host = .wr 0 w :: rest) :
    step s = exec (decodeCmd w) { s with host := rest } := by
  rw [step_idle hc h, hostAccess_cmd]

/-- Settles O43: the step by `step_cmd`, and the decoder gives an encoded command back by `decodeCmd_of_encode`. -/
theorem stepRunsDecodedCommand : Obligations.StepRunsDecodedCommand := by
  unfold Obligations.StepRunsDecodedCommand
  refine ⟨fun s w rest hc h => step_cmd hc h, fun s i w rest hc hwf henc h => ?_⟩
  rw [step_cmd hc h, decodeCmd_of_encode hwf henc]

end Sys2Proof.Machine

/-! The bit engine's reads and writes as one field (40_bitstream.md R148, R149), the commands READ_BITS and WRITE_BITS, and
the string that a sequence of WRITE_BITS leaves in DST (70_reset_and_hazards.md R282). -/

namespace Sys2Proof.Machine

/-! ## Progress and round trip -/

/-- A one-hot position stands at an offset (40_bitstream.md R140). -/
theorem exists_posAt {pos : BitPos} (h : oneHot pos.mask = true) : ∃ o, pos = posAt o := ⟨_, (posAt_bitOffset h).symm⟩

/-- A read whose bits all lie below the end moves on by its width (40_bitstream.md R148). -/
theorem readEnd_inside {len o n : Nat} (h : ∀ i, i < n → (o + i) / 8 < len) : readEnd len o n = posAt (o + n) := by
  cases n with
  | zero =>
    rw [← skipBits_posAt]
    rfl
  | succ n =>
    have hlast := h n n.lt_succ_self
    exact if_pos (by omega)

/-- A write whose bits all lie in the space ORs its field in and moves on by its width (40_bitstream.md R145, R148). -/
theorem writeBits_inside {s : State} {sp : Space} {o n : Nat} (v : Nat) (h : ∀ i, i < n → (o + i) / 8 < s.size sp) :
    ∃ mem, s.writeBits sp v n (posAt o) = some (s.withMem sp mem, posAt (o + n)) ∧
      (Memory.wf (s.mem sp) = true → ∀ i, i < n →
        streamBit mem (o + i) = (streamBit (s.mem sp) (o + i) || v.testBit (n - 1 - i))) := by
  cases n with
  | zero => exact ⟨s.mem sp, by rw [withMem_self]; rfl, fun _ i hi => absurd hi i.not_lt_zero⟩
  | succ n =>
    have hlast := h n n.lt_succ_self
    obtain ⟨mem, hwrite, hbits, -⟩ := writeBits_posAt sp v (n + 1) s o (by omega)
    refine ⟨mem, hwrite, fun hwf i hi => ?_⟩
    have hin : o ≤ o + i ∧ o + i < o + (n + 1) := by omega
    rw [(hbits hwf).2, decide_eq_true hin, Bool.true_and, show o + (n + 1) - 1 - (o + i) = n + 1 - 1 - i by omega]

/-- The field read where `v` has just been written over zeros is `v`, cut to the width (40_bitstream.md R148). -/
theorem bitField_written {before after : Memory} {v n len o : Nat} (hin : ∀ i, i < n → (o + i) / 8 < len)
    (hzero : ∀ i, i < n → streamBit before (o + i) = false)
    (hbits : ∀ i, i < n → streamBit after (o + i) = (streamBit before (o + i) || v.testBit (n - 1 - i))) :
    bitField (readableBit after len) o n = v % 2 ^ n := by
  refine bitField_bitString (Nat.mod_lt _ (Nat.two_pow_pos n)) fun i hi => ?_
  have hend : o + i < 8 * len := by have := hin i hi; omega
  have hplace : n - 1 - i < n := by omega
  rw [readableBit, decide_eq_true hend, Bool.true_and, hbits i hi, hzero i hi, Bool.false_or, Nat.testBit_mod_two_pow,
    decide_eq_true hplace, Bool.true_and]

/-- Settles O6: progress by `readEnd_inside` and `writeBits_inside`, the value read back by `bitField_written`. -/
theorem bitEngineRoundTrip : Obligations.BitEngineRoundTrip := by
  unfold Obligations.BitEngineRoundTrip
  refine ⟨fun s sp len n pos hmask hlen hin => ?_, fun s sp v n pos hmask hin => ?_,
    fun s t sp v n len pos pos' hmask hwf hlen hin hzero hwrite => ?_⟩
  · obtain ⟨o, rfl⟩ := exists_posAt hmask
    rw [bitOffset_posAt] at hin ⊢
    exact ⟨_, _, readBits_memRead hlen n o, oneHot_readEnd _ _ _, by rw [readEnd_inside hin, bitOffset_posAt]⟩
  · obtain ⟨o, rfl⟩ := exists_posAt hmask
    rw [bitOffset_posAt] at hin ⊢
    obtain ⟨mem, hwrite, -⟩ := writeBits_inside v hin
    exact ⟨_, _, hwrite, oneHot_posAt _, bitOffset_posAt _⟩
  · obtain ⟨o, rfl⟩ := exists_posAt hmask
    rw [bitOffset_posAt] at hin hzero
    obtain ⟨mem, hwrite', hbits⟩ := writeBits_inside v fun i hi => (hin i hi).trans_le hlen
    obtain ⟨rfl, rfl⟩ := Prod.mk.inj (Option.some.inj (hwrite'.symm.trans hwrite))
    rw [readBits_memRead (by rwa [State.withMem_size]), State.withMem_mem_self, bitField_written hin hzero (hbits hwf),
      readEnd_inside hin]

/-! ## Concatenation -/

/-- A read of `n1 + n2` bits is a read of `n1` that a read of `n2` goes on with (40_bitstream.md R149). -/
theorem readBitsFrom_append (rd : Nat → Option Byte) (len n1 n2 : Nat) : ∀ (v : Nat) (pos : BitPos),
    readBitsFrom rd len (n1 + n2) v pos =
      (readBitsFrom rd len n1 v pos).bind fun r => readBitsFrom rd len n2 r.1 r.2 := by
  induction n1 with
  | zero => intro v pos; rw [Nat.zero_add]; rfl
  | succ n1 ih =>
    intro v pos
    rw [Nat.succ_add_eq_add_succ, Nat.add_succ]
    simp only [readBitsFrom, Option.bind_assoc, ih]

/-- A bit is read from any position of a buffer whose bytes exist (40_bitstream.md R141, R143). -/
theorem readBit_total {rd : Nat → Option Byte} {len : Nat} (hrd : ∀ a, a < len → (rd a).isSome = true) (pos : BitPos) :
    ∃ bit pos', readBit rd len pos = some (bit, pos') := by
  by_cases hend : len ≤ pos.cur
  · exact ⟨_, _, if_pos hend⟩
  · obtain ⟨byte, hbyte⟩ := Option.isSome_iff_exists.mp (hrd _ (Nat.not_le.mp hend))
    exact ⟨_, _, by rw [readBit, if_neg hend, hbyte, Option.map_some]⟩

/-- A read from any position, one-hot or not, appends an `n`-bit number to the bits read before it
(40_bitstream.md R144). -/
theorem readBitsFrom_field {rd : Nat → Option Byte} {len : Nat} (hrd : ∀ a, a < len → (rd a).isSome = true) (n : Nat) :
    ∀ pos : BitPos, ∃ w pos', w < 2 ^ n ∧ ∀ v, readBitsFrom rd len n v pos = some (v * 2 ^ n + w, pos') := by
  induction n with
  | zero => exact fun pos => ⟨0, pos, by decide, fun v => by rw [readBitsFrom, Nat.pow_zero, Nat.mul_one, Nat.add_zero]⟩
  | succ n ih =>
    intro pos
    obtain ⟨bit, pos1, hbit⟩ := readBit_total hrd pos
    obtain ⟨w, pos', hw, hfield⟩ := ih pos1
    refine ⟨bit.toNat * 2 ^ n + w, pos', ?_, fun v => ?_⟩
    · have := Nat.mul_le_mul_right (2 ^ n) bit.toNat_le
      rw [Nat.pow_succ]
      omega
    · rw [readBitsFrom, hbit, Option.bind_some, hfield]
      congr 2
      ring

/-- A write of `n1 + n2` bits is a write of the upper `n1` and one of the lower `n2` (40_bitstream.md R149). -/
theorem writeBits_append (sp : Space) (v n1 n2 : Nat) : ∀ (s : State) (pos : BitPos),
    s.writeBits sp v (n1 + n2) pos = (s.writeBits sp (v >>> n2) n1 pos).bind fun r => r.1.writeBits sp v n2 r.2 := by
  induction n1 with
  | zero => intro s pos; rw [Nat.zero_add]; rfl
  | succ n1 ih =>
    intro s pos
    rw [Nat.succ_add_eq_add_succ, Nat.add_succ]
    simp only [State.writeBits, Option.bind_assoc, ih, Nat.testBit_shiftRight, Nat.add_comm n2 n1]

/-- A write depends on the bits below its width only (40_bitstream.md R145). -/
theorem writeBits_congr (sp : Space) {v w : Nat} (n : Nat) (h : ∀ i, i < n → v.testBit i = w.testBit i) :
    ∀ (s : State) (pos : BitPos), s.writeBits sp v n pos = s.writeBits sp w n pos := by
  induction n with
  | zero => exact fun _ _ => rfl
  | succ n ih =>
    intro s pos
    have hrest := ih fun i hi => h i (Nat.lt_succ_of_lt hi)
    simp only [State.writeBits, h n n.lt_succ_self, hrest]

/-- Settles O7: reads by `readBitsFrom_append` and `readBitsFrom_field`, writes by `writeBits_append` and
`writeBits_congr`. -/
theorem bitEngineConcatenation : Obligations.BitEngineConcatenation := by
  unfold Obligations.BitEngineConcatenation
  refine ⟨fun s sp len n1 n2 pos hlen => ?_, fun s t u sp v1 v2 n1 n2 pos pos1 pos2 h1 h2 => ?_⟩
  · have hrd : ∀ a, a < len → (s.memRead sp a).isSome = true := fun a ha => by
      rw [memRead_of_lt (ha.trans_le hlen), Option.isSome_some]
    obtain ⟨v1, pos1, -, hread1⟩ := readBitsFrom_field hrd n1 pos
    obtain ⟨v2, pos2, hv2, hread2⟩ := readBitsFrom_field hrd n2 pos1
    refine ⟨v1, v2, pos1, pos2, ?_, ?_, hv2, ?_⟩
    · rw [readBits, hread1, Nat.zero_mul, Nat.zero_add]
    · rw [readBits, hread2, Nat.zero_mul, Nat.zero_add]
    · rw [readBits, readBitsFrom_append, hread1, Nat.zero_mul, Nat.zero_add, Option.bind_some, hread2]
  · have hlow : v2 % 2 ^ n2 < 2 ^ n2 := Nat.mod_lt _ (Nat.two_pow_pos n2)
    have hupper : (v1 * 2 ^ n2 + v2 % 2 ^ n2) >>> n2 = v1 := by
      rw [Nat.shiftRight_eq_div_pow, Nat.mul_comm, Nat.mul_add_div (Nat.two_pow_pos n2), Nat.div_eq_of_lt hlow, Nat.add_zero]
    have hlower : ∀ i, i < n2 → (v1 * 2 ^ n2 + v2 % 2 ^ n2).testBit i = v2.testBit i := fun i hi => by
      rw [Nat.mul_comm, Nat.testBit_two_pow_mul_add _ hlow, if_pos hi, Nat.testBit_mod_two_pow, decide_eq_true hi,
        Bool.true_and]
    rw [writeBits_append, hupper, h1, Option.bind_some, writeBits_congr sp n2 hlower, h2]

/-! ## The commands -/

/-- The checks of READ_BITS pass under their conditions, whatever STATUS was (60_exceptions.md R244). -/
theorem checkReadBits_issue {s : State} (hlen : s.srcLen.toNat ≤ s.launch.srcMem) (hlow : 1 ≤ s.bitN.toNat)
    (hhigh : s.bitN.toNat ≤ 16) (hmask : oneHot s.bitMask = true) : checkReadBits s.issue = none :=
  checkReadBits_none.mpr ⟨decide_eq_true hlen, Bool.and_eq_true_iff.mpr ⟨decide_eq_true hlow, decide_eq_true hhigh⟩, hmask⟩

/-- The checks of WRITE_BITS pass under their conditions, whatever STATUS was (60_exceptions.md R244). -/
theorem checkWriteBits_issue {s : State} (hlow : 1 ≤ s.bitN.toNat) (hhigh : s.bitN.toNat ≤ 16)
    (hmask : oneHot s.bitMask = true) (hfit : (bitOffset s.bitPos + s.bitN.toNat - 1) / 8 < s.launch.dstMem) :
    checkWriteBits s.issue = none :=
  checkWriteBits_none.mpr
    ⟨Bool.and_eq_true_iff.mpr ⟨decide_eq_true hlow, decide_eq_true hhigh⟩, hmask, decide_eq_true hfit⟩

/-- Settles O8: the checks pass, and the rule's result is `readBitsRule_eq`. -/
theorem readBitsReadsField : Obligations.ReadBitsReadsField := by
  unfold Obligations.ReadBitsReadsField
  intro sel s hlen hlow hhigh hmask
  have hrule := readBitsRule_eq (s := s.issue) hlen hmask
  exact ⟨_, runCommand_ok (checkReadBits_issue hlen hlow hhigh hmask) hrule, complete_of_status_zero rfl,
    fun sp a => by cases sp <;> rfl⟩

/-- What WRITE_BITS does once its checks pass: the field is ORed into DST, the position moves on, only DONE is set
(40_bitstream.md R145, R147). -/
theorem exec_writeBits (sel : Space) {s : State} {o : Nat} (hwf : Memory.wf s.dst = true) (hlow : 1 ≤ s.bitN.toNat)
    (hhigh : s.bitN.toNat ≤ 16) (hmask : oneHot s.bitMask = true) (ho : bitOffset s.bitPos = o)
    (hfit : (o + s.bitN.toNat - 1) / 8 < s.launch.dstMem) :
    ∃ mem, exec (.writeBits sel) s = .next { s with
        core := .idle
        status := 0x00000002#32
        bitCursor := BitVec.ofNat 32 ((o + s.bitN.toNat) / 8)
        bitMask := 0x80#8 >>> ((o + s.bitN.toNat) % 8)
        dst := mem } ∧
      Memory.wf mem = true ∧
      ∀ x, streamBit mem x = (streamBit s.dst x ||
        (decide (o ≤ x ∧ x < o + s.bitN.toNat) && s.bitData.toNat.testBit (o + s.bitN.toNat - 1 - x))) := by
  subst ho
  obtain ⟨mem, hrule, hbits, -⟩ := writeBitsRule_spec (s := s.issue) hmask rfl hlow hfit
  obtain ⟨hmem, hbits⟩ := hbits hwf
  have hexec := runCommand_ok (checkWriteBits_issue hlow hhigh hmask hfit) hrule
  rw [complete_of_status_zero rfl] at hexec
  exact ⟨mem, hexec, hmem, hbits⟩

/-- Settles O9: the result and the bits by `exec_writeBits`; a byte outside the field keeps its eight bits. -/
theorem writeBitsOrsField : Obligations.WriteBitsOrsField := by
  unfold Obligations.WriteBitsOrsField
  intro sel s o hwf hlow hhigh hmask ho hfit
  obtain ⟨mem, hexec, -, hbits⟩ := exec_writeBits sel hwf hlow hhigh hmask ho hfit
  refine ⟨_, hexec, rfl, hbits, fun a ha => read_eq_iff_streamBit.mpr fun i hi => ?_, fun a => rfl⟩
  have hout : ¬ (o ≤ 8 * a + i ∧ 8 * a + i < o + s.bitN.toNat) := by omega
  show streamBit mem _ = streamBit s.dst _
  rw [hbits, decide_eq_false hout, Bool.false_and, Bool.or_false]

/-! ## A sequence of WRITE_BITS -/

/-- From `s` to `t` the bits `bits` have been ORed into DST from offset `o` on, and the position stands behind them. -/
structure WritesString (bits : List Bool) (o : Nat) (s t : State) : Prop where
  idle     : t.core = .idle
  launch   : t.launch = s.launch
  faultLog : t.faultLog = s.faultLog
  src      : t.src = s.src
  wf       : Memory.wf t.dst = true
  position : t.bitPos = posAt (o + bits.length)
  dst      : ∀ x, streamBit t.dst x = (streamBit s.dst x || (decide (o ≤ x) && bits.getD (x - o) false))

theorem WritesString.nil {s : State} {o : Nat} (hc : s.core = .idle) (hwf : Memory.wf s.dst = true)
    (hp : s.bitPos = posAt o) : WritesString [] o s s :=
  ⟨hc, rfl, rfl, rfl, hwf, hp, fun x => by simp⟩

/-- Two strings written one behind the other are their concatenation (40_bitstream.md R149). -/
theorem WritesString.append {a b : List Bool} {o : Nat} {s t u : State} (h1 : WritesString a o s t)
    (h2 : WritesString b (o + a.length) t u) : WritesString (a ++ b) o s u where
  idle := h2.idle
  launch := h2.launch.trans h1.launch
  faultLog := h2.faultLog.trans h1.faultLog
  src := h2.src.trans h1.src
  wf := h2.wf
  position := by rw [h2.position, List.length_append, Nat.add_assoc]
  dst x := by
    rw [h2.dst, h1.dst, Bool.or_assoc, getD_append]
    by_cases hlo : o ≤ x
    · by_cases hhi : o + a.length ≤ x
      · rw [if_neg (by omega), List.getD_eq_default _ _ (by omega : a.length ≤ x - o), Nat.sub_add_eq]
        simp [hlo, hhi]
      · rw [if_pos (by omega)]
        simp [hlo, hhi]
    · have hhi : ¬ o + a.length ≤ x := by omega
      simp [hlo, hhi]

theorem fieldString_cons (f : BitVec 5 × BitVec 16) (fields : List (BitVec 5 × BitVec 16)) :
    fieldString (f :: fields) = bitString f.2.toNat f.1.toNat ++ fieldString fields := rfl

theorem fieldString_length_pos {fields : List (BitVec 5 × BitVec 16)} (hne : fields ≠ [])
    (hwidths : ∀ f ∈ fields, 1 ≤ f.1.toNat) : 0 < (fieldString fields).length := by
  cases fields with
  | nil => exact absurd rfl hne
  | cons f fields =>
    have hf := hwidths f List.mem_cons_self
    rw [fieldString_cons, List.length_append, bitString_length]
    omega

/-- A run goes on from where its first steps end. -/
theorem run_add {k : Nat} (m : Nat) {s t : State} (h : run k s = .next t) : run (k + m) s = run m t := by
  induction k generalizing s with
  | zero =>
    obtain rfl := Host.Outcome.next.inj h
    rw [Nat.zero_add]
  | succ k ih =>
    obtain ⟨u, hstep, hrest⟩ := run_succ_next h
    rw [Nat.add_right_comm, run_succ _ hstep, ih hrest]

/-- The operand registers loaded for a field, `rest` still to come (10_state.md R43, R44). -/
def State.loaded (s : State) (f : BitVec 5 × BitVec 16) (rest : List HostOp) : State :=
  { s with bitN := f.1, bitData := f.2, host := rest }

/-- The write of BIT_N before a field's WRITE_BITS (10_state.md R53). -/
theorem step_loadWidth {s : State} (n : BitVec 5) {rest : List HostOp} (hc : s.core = .idle)
    (h : s.host = .wr 9 (n.setWidth 32) :: rest) : step s = .next { s with bitN := n, host := rest } := by
  have hn : (n.setWidth 32).setWidth 5 = n := BitVec.setWidth_setWidth_of_le n (by decide)
  rw [step_wr hc h (by decide)]
  exact congrArg (fun w => Host.Outcome.next { s with bitN := w, host := rest }) hn

/-- The write of BIT_DATA before a field's WRITE_BITS (10_state.md R53). -/
theorem step_loadData {s : State} (v : BitVec 16) {rest : List HostOp} (hc : s.core = .idle)
    (h : s.host = .wr 10 (v.setWidth 32) :: rest) : step s = .next { s with bitData := v, host := rest } := by
  have hv : (v.setWidth 32).setWidth 16 = v := BitVec.setWidth_setWidth_of_le v (by decide)
  rw [step_wr hc h (by decide)]
  exact congrArg (fun w => Host.Outcome.next { s with bitData := w, host := rest }) hv

/-- The two register writes before a WRITE_BITS load its operands (10_state.md R53). -/
theorem run_loads {s : State} {f : BitVec 5 × BitVec 16} {rest : List HostOp} (n : Nat) (hc : s.core = .idle)
    (h : s.host = .wr 9 (f.1.setWidth 32) :: .wr 10 (f.2.setWidth 32) :: rest) :
    run (n + 2) s = run n (s.loaded f rest) := by
  have hwidth := run_succ (n + 1) (step_loadWidth f.1 hc h)
  have hdata := run_succ n
    (step_loadData (s := { s with bitN := f.1, host := .wr 10 (f.2.setWidth 32) :: rest }) f.2 hc rfl)
  exact hwidth.trans hdata

/-- A position that a WRITE_BITS inside DST ends at fits BIT_CURSOR (00_scope.md R8). -/
theorem cursor_fits {s : State} (h : MemSizes s) {o : Nat} (ho : o ≤ 8 * s.launch.dstMem) :
    (BitVec.ofNat 32 (o / 8)).toNat = o / 8 := by
  have hdst : s.launch.dstMem ≤ 2147483648 := h.2
  exact Nat.mod_eq_of_lt (by omega)

/-- The bit of a field's string at a place, as WRITE_BITS places it (40_bitstream.md R145). -/
theorem fieldBit_eq (v n o x : Nat) :
    (decide (o ≤ x ∧ x < o + n) && v.testBit (o + n - 1 - x)) = (decide (o ≤ x) && (bitString v n).getD (x - o) false) := by
  rw [bitString_getD]
  by_cases hlow : o ≤ x
  · rw [show n - 1 - (x - o) = o + n - 1 - x by omega]
    simp only [hlow, true_and, decide_true, Bool.true_and, Nat.sub_lt_iff_lt_add' hlow]
  · simp [hlow]

/-- One field of the sequence: its three transactions write its bits and set only DONE (40_bitstream.md R147). -/
theorem run_field {s : State} {f : BitVec 5 × BitVec 16} {rest : List HostOp} {o : Nat} (hsizes : MemSizes s)
    (hwf : Memory.wf s.dst = true) (hc : s.core = .idle) (hp : s.bitPos = posAt o) (hlow : 1 ≤ f.1.toNat)
    (hhigh : f.1.toNat ≤ 16) (hfit : o + f.1.toNat ≤ 8 * s.launch.dstMem)
    (h : s.host = .wr 9 (f.1.setWidth 32) :: .wr 10 (f.2.setWidth 32) :: .cmd (cmdWord 0x2 .src) :: rest) :
    ∃ t, run 3 s = .next t ∧ t.host = rest ∧ t.status = 0x00000002#32 ∧
      WritesString (bitString f.2.toNat f.1.toNat) o s t := by
  have hmask : oneHot s.bitMask = true := by
    have := oneHot_posAt o
    rwa [← hp] at this
  obtain ⟨mem, hexec, hmem, hbits⟩ := exec_writeBits .src (s := s.loaded f rest) (o := o) hwf hlow hhigh hmask
    ((congrArg bitOffset hp).trans (bitOffset_posAt o)) (show (o + f.1.toNat - 1) / 8 < s.launch.dstMem by omega)
  have hstep := (step_cmd (s := s.loaded f (.cmd (cmdWord 0x2 .src) :: rest)) hc rfl).trans hexec
  refine ⟨_, (run_loads 1 hc h).trans (run_succ 0 hstep), rfl, rfl, rfl, rfl, rfl, rfl, hmem, ?_, fun x => ?_⟩
  · rw [bitString_length]
    exact congrArg (BitPos.mk · _) (cursor_fits hsizes hfit)
  · rw [← fieldBit_eq]
    exact hbits x

/-- A sequence of fields that fits in DST: its transactions write its string, and the last command set only DONE. -/
theorem run_fields (fields : List (BitVec 5 × BitVec 16)) (rest : List HostOp) : ∀ (s : State) (o : Nat), MemSizes s →
    Memory.wf s.dst = true → s.core = .idle → s.bitPos = posAt o → (∀ f ∈ fields, 1 ≤ f.1.toNat ∧ f.1.toNat ≤ 16) →
    s.host = fieldProgram fields ++ rest → o + (fieldString fields).length ≤ 8 * s.launch.dstMem →
    ∃ t, run (3 * fields.length) s = .next t ∧ t.host = rest ∧
      (fields ≠ [] ∨ s.status = 0x00000002#32 → t.status = 0x00000002#32) ∧ WritesString (fieldString fields) o s t := by
  induction fields with
  | nil => exact fun s o _ hwf hc hp _ h _ => ⟨s, rfl, h, fun hst => hst.resolve_left (· rfl), .nil hc hwf hp⟩
  | cons f fields ih =>
    intro s o hsizes hwf hc hp hwidths h hfit
    obtain ⟨⟨hlow, hhigh⟩, hwidths⟩ := List.forall_mem_cons.mp hwidths
    rw [fieldString_cons, List.length_append, bitString_length] at hfit
    obtain ⟨u, hrun, hhost, hstatus, hwrites⟩ := run_field hsizes hwf hc hp hlow hhigh (by omega) h
    obtain ⟨t, hruns, hend, hdone, hstring⟩ := ih u (o + (bitString f.2.toNat f.1.toNat).length)
      (hsizes.of_launch hwrites.launch) hwrites.wf hwrites.idle hwrites.position hwidths hhost
      (by rw [hwrites.launch, bitString_length]; omega)
    refine ⟨t, ?_, hend, fun _ => hdone (.inr hstatus), hwrites.append hstring⟩
    rw [List.length_cons, Nat.mul_succ, Nat.add_comm, run_add _ hrun, hruns]

/-- The bits that a stream reaches read 0 where the host zeroed its bytes (70_reset_and_hazards.md R282). -/
theorem DstZeroed.bit_eq_false {width : Nat} {s : State} {o : Nat} (h : DstZeroed width s) (hp : s.bitPos = posAt o) {x : Nat}
    (hlow : o ≤ x) (hhigh : x < o + width) : streamBit s.dst x = false := by
  have hcur : s.bitCursor.toNat = o / 8 := congrArg BitPos.cur hp
  have hzero : Memory.read s.dst (x / 8) = 0#8 :=
    h (x / 8) (by omega) (by rw [hp, bitOffset_posAt]; omega)
  rw [streamBit, hzero, BitVec.getLsbD_zero]

/-- The host's duty, said where the first WRITE_BITS stands, holds where its operands are not loaded yet: the two register
writes move neither DST nor the position (70_reset_and_hazards.md R282). -/
theorem dstZeroed_of_duties {fields : List (BitVec 5 × BitVec 16)} {rest : List HostOp} {s : State} {width : Nat}
    (hc : s.core = .idle) (h : s.host = fieldProgram fields ++ rest) (hne : fields ≠ [])
    (hduties : HostDuties [{ first := 2, width := width }] s) : DstZeroed width s := by
  cases fields with
  | nil => exact absurd rfl hne
  | cons f fields =>
    obtain ⟨-, hzeroed⟩ := hduties
    have hzero := hzeroed _ (List.mem_singleton_self _) _ (run_loads 0 hc h)
    exact hzero

/-- Settles O51: the run and its string by `run_fields`; what was in DST under the string is 0 by the host's duty. -/
theorem writeBitsSequenceLeavesString : Obligations.WriteBitsSequenceLeavesString := by
  unfold Obligations.WriteBitsSequenceLeavesString
  intro fields rest s o hsizes hwf hc hmask ho hwidths h hne hfit hduties
  have hp : s.bitPos = posAt o := ho ▸ (posAt_bitOffset (pos := s.bitPos) hmask).symm
  have hpos := fieldString_length_pos hne fun f hf => (hwidths f hf).1
  obtain ⟨t, hrun, hhost, hstatus, hstring⟩ := run_fields fields rest s o hsizes hwf hc hp hwidths h (by omega)
  have hzero := dstZeroed_of_duties hc h hne hduties
  refine ⟨t, hrun, hhost, hstatus (.inl hne), hstring.faultLog, by rw [hstring.position, bitOffset_posAt],
    fun i hi => ?_, fun x hx => ?_, fun a => congrArg (Memory.read · a) hstring.src⟩
  · rw [hstring.dst, hzero.bit_eq_false hp (Nat.le_add_right o i) (Nat.add_lt_add_left hi o), Nat.add_sub_cancel_left]
    simp
  · rw [hstring.dst]
    obtain hlow | hhigh := hx
    · rw [decide_eq_false (Nat.not_le.mpr hlow), Bool.false_and, Bool.or_false]
    · rw [List.getD_eq_default _ _ (by omega), Bool.and_false, Bool.or_false]

end Sys2Proof.Machine

/-! The tokens of a stream (41_lzss_decompress.md section 1): where a token leaves the read position, what LIT and REF
emit and copy, and that the token loop runs the token it reads. -/

namespace Sys2Proof.Machine

/-! ## The read position -/

/-- The read engine, from a position that names a bit, ends where `readEnd` says (40_bitstream.md R143). -/
theorem skipToken_eq {s : State} (hmask : oneHot s.rd.mask = true) (n : Nat) :
    s.skipToken n = { s with rd := readEnd s.srcLen.toNat (bitOffset s.rd) n } := by
  rw [← skipBits_posAt, posAt_bitOffset hmask]
  rfl

/-- A position whose byte is below the end stands at a bit below the end (40_bitstream.md R140). -/
theorem bitOffset_lt {pos : BitPos} {len : Nat} (h : pos.cur < len) : bitOffset pos < 8 * len := by
  unfold bitOffset
  omega

/-! ## Bytes emitted -/

/-- A token that emits `out`: the read position moves, `q` counts, `ovr` remembers a byte past DST_LEN, and besides them
only DST and HIST change (41_lzss_decompress.md R160, R165). -/
theorem produced_skipToken {s : State} (hmask : oneHot s.rd.mask = true) (n : Nat) {out : List Byte} (hne : out ≠ []) :
    (s.skipToken n).produced out = { s with
      rd := readEnd s.srcLen.toNat (bitOffset s.rd) n
      ovr := s.ovr || decide (s.dstLen.toNat < s.q + out.length)
      q := s.q + out.length
      dst := ((s.skipToken n).produced out).dst
      hist := ((s.skipToken n).produced out).hist } := by
  have hfoot := produced_footprint (s.skipToken n) out
  have hovr := produced_ovr (s.skipToken n) out
  simp only [hne, ne_eq, not_false_eq_true, and_true] at hovr
  rw [hovr] at hfoot
  rw [skipToken_eq hmask] at hfoot ⊢
  exact hfoot

/-- Where at most 8192 bytes are emitted, no byte overwrites another one's entry of HIST: an entry that an emitted byte
names holds that byte, every other what it held (10_state.md R45). -/
theorem produced_histRead_short {s : State} (hw : Memory.wf s.hist = true) {out : List Byte} (hlen : out.length ≤ 8192)
    (i : Nat) :
    (∀ j, j < out.length → (s.q + j) % 8192 = i % 8192 → out[j]? = some ((s.produced out).histRead i)) ∧
      ((∀ j, j < out.length → (s.q + j) % 8192 ≠ i % 8192) → (s.produced out).histRead i = s.histRead i) := by
  obtain ⟨hnamed, hother⟩ := produced_histRead hw out i
  have hsize : Config.histSize = 8192 := rfl
  rw [hsize] at hnamed hother
  refine ⟨fun j hj hji => ?_, fun hno => hother fun x hlow hhigh => ?_⟩
  · rw [hnamed (s.q + j) (by omega) (by omega) (by omega) hji, Nat.add_sub_cancel_left, List.getElem?_eq_getElem hj]
    rfl
  · have hx := hno (x - s.q) (by omega)
    rwa [Nat.add_sub_cancel' hlow] at hx

/-- Settles O10: LIT emits its one byte (`litRule_eq`). -/
theorem litEmitsByte : Obligations.LitEmitsByte := by
  unfold Obligations.LitEmitsByte
  intro v s hdst hmask hwd hwh
  have hrule : litRule v s = some ((s.skipToken 9).produced [v]) := litRule_eq (fun hq => hq.trans_le hdst) v
  refine ⟨_, congrArg outcome hrule, ?_, fun a => ?_, fun a => rfl, fun i => Memory.read_write hwh _ v _⟩
  · simp only [← Nat.lt_succ_iff]
    exact produced_skipToken hmask 9 (List.cons_ne_nil v [])
  · show Memory.read (if s.q < s.dstLen.toNat then Memory.write s.dst s.q v else s.dst) a = _
    by_cases hq : s.q < s.dstLen.toNat
    · rw [if_pos hq, Memory.read_write hwd]
      exact if_congr (and_iff_left hq).symm rfl rfl
    · rw [if_neg hq, if_neg fun ⟨_, h⟩ => hq h]
      rfl

/-- Everything a REF does (41_lzss_decompress.md R164, R165): it emits `l + 3` bytes, byte `j` being what the bytes
before it left at HIST index `e - 1 + j`, either one of them or an old entry. -/
theorem exec_ref {s : State} (hdst : s.dstLen.toNat ≤ s.launch.dstMem) (hw : Memory.wf s.hist = true) {e : BitVec 13}
    (he : e ≠ 0#13) (l : BitVec 4) :
    ∃ out : List Byte, out.length = l.toNat + 3 ∧ exec (.ref e l) s = .next ((s.skipToken 18).produced out) ∧
      ∀ j, j < l.toNat + 3 →
        (∀ i, i < j → (s.q + i) % 8192 = (e.toNat - 1 + j) % 8192 → out[j]? = out[i]?) ∧
        ((∀ i, i < j → (s.q + i) % 8192 ≠ (e.toNat - 1 + j) % 8192) →
          out[j]? = some (s.histRead (e.toNat - 1 + j))) := by
  obtain ⟨out, hlen, hrule, hcopy⟩ := refRule_eq hdst he l
  refine ⟨out, hlen, congrArg outcome hrule, fun j hj => ?_⟩
  have hl := l.isLt
  have htake : (out.take j).length = j := List.length_take_of_le (by omega)
  obtain ⟨hnamed, hother⟩ := produced_histRead_short (s := s.skipToken 18) hw (out := out.take j) (by omega)
    (e.toNat - 1 + j)
  rw [htake] at hnamed hother
  rw [hcopy j hj]
  refine ⟨fun i hi hres => ?_, fun hno => congrArg some (hother hno)⟩
  rw [← hnamed i hi hres, List.getElem?_take_of_lt hi]

/-- Settles O11: the copied bytes by `exec_ref`, and what they leave in DST and HIST by the rules of emitted bytes. -/
theorem refCopiesHistory : Obligations.RefCopiesHistory := by
  unfold Obligations.RefCopiesHistory
  intro e l s he hdst hmask hwd hwh
  obtain ⟨out, hlen, hexec, hcopy⟩ := exec_ref hdst hwh he l
  have hne : out ≠ [] := List.ne_nil_of_length_pos (by omega)
  have hl := l.isLt
  have hframe := produced_skipToken hmask 18 hne
  have hread := produced_read_dst (s := s.skipToken 18) hwd out
  have hhist := produced_histRead_short (s := s.skipToken 18) hwh (out := out) (by omega)
  rw [hlen] at hframe hread hhist
  refine ⟨_, out, hexec, hlen, hframe, hcopy, fun a => ?_, fun a => ?_, hhist⟩
  · rw [List.getD_eq_getElem?_getD]
    exact hread a
  · exact congrArg (Memory.read · a) (produced_src (s.skipToken 18) out)

/-- Settles O12: at distance `D` byte `j` is read from the entry of byte `j - D`, or from an entry no byte of the copy
names. -/
theorem overlappingCopyRepeats : Obligations.OverlappingCopyRepeats := by
  unfold Obligations.OverlappingCopyRepeats
  intro e l s t D he hdst hwd hwh hD hdist hexec
  obtain ⟨out, hlen, hexec', hcopy⟩ := exec_ref hdst hwh he l
  obtain rfl := Host.Outcome.next.inj (hexec'.symm.trans hexec)
  have hl := l.isLt
  have hhist : ∀ j, j < l.toNat + 3 → out[j]? = some (((s.skipToken 18).produced out).histRead (s.q + j)) := by
    intro j hj
    obtain ⟨hnamed, -⟩ := produced_histRead_short (s := s.skipToken 18) hwh (out := out) (by omega) (s.q + j)
    exact hnamed j (by omega) rfl
  refine ⟨fun j hj hin => ?_, fun hD1 j hj => ⟨fun hjD => ?_, fun hDj => ?_⟩, fun hD0 j hj => ?_⟩
  · refine (produced_read_dst (s := s.skipToken 18) hwd out (s.q + j)).trans ?_
    have hqj : s.q ≤ s.q + j ∧ s.q + j < s.q + out.length ∧ s.q + j < s.dstLen.toNat := by omega
    refine (if_pos hqj).trans ?_
    rw [show s.q + j - (s.skipToken 18).q = j from Nat.add_sub_cancel_left .., hhist j hj, Option.getD_some]
  · obtain ⟨-, hold⟩ := hcopy j hj
    have hold := hold fun i hi => by omega
    exact Option.some.inj ((hhist j hj).symm.trans hold)
  · obtain ⟨hrepeat, -⟩ := hcopy j hj
    have hrepeat := hrepeat (j - D) (by omega) (by omega)
    rw [hhist j hj, hhist (j - D) (by omega)] at hrepeat
    exact Option.some.inj hrepeat
  · obtain ⟨-, hold⟩ := hcopy j hj
    have hold := hold fun i hi => by omega
    have hsame : (e.toNat - 1 + j) % Config.histSize = (s.q + j) % Config.histSize := by
      rw [hD0, Nat.add_zero] at hdist
      exact Nat.ModEq.add_right j hdist
    rw [hhist j hj, ← histRead_mod s, hsame, histRead_mod] at hold
    exact Option.some.inj hold

/-- Settles O13: the three arms are `termRule`, and `skipToken_eq` says where the read position ends. -/
theorem terminatorsEndStream : Obligations.TerminatorsEndStream := by
  unfold Obligations.TerminatorsEndStream
  intro s hmask
  have hrule : outcome (termRule s) =
      .next { s with rd := readEnd s.srcLen.toNat (bitOffset s.rd) 14, term := true } := by
    rw [termRule_eq, skipToken_eq hmask]
    rfl
  exact ⟨hrule, hrule, fun l => hrule⟩

/-! ## The token loop -/

/-- Settles O14: the loop's equation, `exec_token` for the token it runs, and `fetchToken_eq` for the token it reads. -/
theorem tokenLoopRunsDecodedToken : Obligations.TokenLoopRunsDecodedToken := by
  unfold Obligations.TokenLoopRunsDecodedToken
  refine ⟨fun s t tok n hcur hfetch hexec => ?_, fun s n hcur => if_pos hcur, fun s hsrc hmask hcur => ?_⟩
  · rw [exec_token] at hexec
    rw [decompressLoop, if_neg (Nat.not_le.mpr hcur), hfetch, Option.bind_some, outcome_next hexec, Option.bind_some]
  · exact fetchToken_eq hsrc (posAt_bitOffset hmask).symm (bitOffset_lt hcur)

end Sys2Proof.Machine

/-! DECOMPRESS (41_lzss_decompress.md section 2): the command against the reference decoder of plain lists, its bounds,
the fidelity of COMPRESS's stream, and its separation from the BIT_* registers (70_reset_and_hazards.md R287). -/

namespace Sys2Proof.Machine

open Host (Outcome)

/-! ## The command -/

/-- The checks of DECOMPRESS and DECODE pass under their conditions, whatever STATUS was (60_exceptions.md R244). -/
theorem checkBothLens_issue {s : State} (hsrc : s.srcLen.toNat ≤ s.launch.srcMem)
    (hdst : s.dstLen.toNat ≤ s.launch.dstMem) : checkBothLens s.issue = none :=
  checkBothLens_none.mpr ⟨decide_eq_true hsrc, decide_eq_true hdst⟩

/-- The checks of COMPRESS and ENCODE pass under their conditions, whatever STATUS was (60_exceptions.md R244). -/
theorem checkCompress_issue {s : State} (hsrc : s.srcLen.toNat ≤ s.launch.srcMem)
    (hcap : compressCap s.srcLen.toNat ≤ s.launch.dstMem) : checkCompress s.issue = none :=
  checkCompress_none.mpr ⟨decide_eq_true hsrc, decide_eq_true hcap⟩

/-- A command whose checks pass ends as its rule leaves it (60_exceptions.md R242). -/
theorem runCommand_next_of_check {check : State → Option FaultCode} {rule : State → Option State} {s t : State}
    (hc : check s.issue = none) (h : runCommand check rule s = .next t) :
    ∃ u, rule s.issue = some u ∧ t = u.complete := by
  rcases runCommand_cases h with ⟨code, hfault, -⟩ | ⟨-, h⟩
  · exact absurd (hc.symm.trans hfault) (Option.some_ne_none code).symm
  · exact h

/-- The end of DECOMPRESS: RESULT_LEN is `q`, DONE is set, the core is IDLE (41_lzss_decompress.md R171). -/
def State.decompressEnd (u : State) : State := { u with resultLen := BitVec.ofNat 32 u.q }.complete

/-- DECOMPRESS, its checks passing, is its run and its end (41_lzss_decompress.md R171). -/
theorem exec_decompress (sel : Space) {s u : State} (hsrc : s.srcLen.toNat ≤ s.launch.srcMem)
    (hdst : s.dstLen.toNat ≤ s.launch.dstMem) (h : decompressRun s.issue = some u) :
    exec (.decompress sel) s = .next u.decompressEnd :=
  runCommand_ok (checkBothLens_issue hsrc hdst) (congrArg (Option.map _) h)

/-- What DECOMPRESS answers is the end of a run (41_lzss_decompress.md R171). -/
theorem exec_decompress_next {sel : Space} {s t : State} (hsrc : s.srcLen.toNat ≤ s.launch.srcMem)
    (hdst : s.dstLen.toNat ≤ s.launch.dstMem) (h : exec (.decompress sel) s = .next t) :
    ∃ u, decompressRun s.issue = some u ∧ t = u.decompressEnd := by
  obtain ⟨u, hu⟩ := decompressRun_total (s := s.issue) hsrc hdst
  exact ⟨u, hu, Outcome.next.inj (h.symm.trans (exec_decompress sel hsrc hdst hu))⟩

/-- The bytes that 18 for each of `ceil(8 len / 9)` tokens make fit RESULT_LEN, for every SRC that 00_scope.md R8 allows
(41_lzss_decompress.md R172). -/
theorem decompress_count_bound {len : Nat} (h : len ≤ 2 ^ 27) :
    18 * ((8 * len + 8) / 9) ≤ 16 * len + 18 ∧ 16 * len + 18 < 2 ^ 32 := by omega

/-- Settles O16: the run against the reference decoder is `decompressRun_streamOutput`, its frame `decoded_frame`. -/
theorem decompressProducesStream : Obligations.DecompressProducesStream := by
  unfold Obligations.DecompressProducesStream
  rintro sel s ⟨hsize, -⟩ ⟨-, hwd, -, -, hinit⟩ hsrc hdst
  obtain ⟨u, hrun⟩ := decompressRun_total (s := s.issue) hsrc hdst
  obtain ⟨out, ended, hout⟩ : ∃ out ended, streamOutput s.launch.histInit (readableBit s.src s.srcLen.toNat)
      s.srcLen.toNat (8 * s.srcLen.toNat) 0 [] = (out, ended) := ⟨_, _, rfl⟩
  obtain ⟨o, -, hu, hq, hovr, hhist, hcount, hmem, -⟩ :=
    decompressRun_streamOutput (s := s.issue) hsrc hdst hinit hrun hout
  obtain ⟨hops, hbits, hcomp, hciph, hsrcKept, -, hlog, -⟩ := decoded_frame hu
  obtain ⟨-, -, hread⟩ := hmem hwd
  have hterm : u.term = ended := by rw [hu]; rfl
  have hstatus : u.status = decompressStatus 0#32 ended (decide (s.dstLen.toNat < out.length)) := by rw [hu]; rfl
  have hfits : u.q < 2 ^ 32 := by
    have hlen : s.srcLen.toNat ≤ 2 ^ 27 := hsrc.trans hsize
    obtain ⟨hbound, hword⟩ := decompress_count_bound hlen
    have hcount : out.length ≤ 18 * ((8 * s.srcLen.toNat + 8) / 9) := hcount
    omega
  refine ⟨u.decompressEnd, out, ended, exec_decompress sel hsrc hdst hrun, hout, ?_, hq, hterm, hovr, ?_,
    hhist.congr rfl rfl rfl, hread, fun a => congrArg (Memory.read · a) hsrcKept, rfl, hlog, hops, hbits, hcomp, hciph⟩
  · exact (BitVec.toNat_ofNat ..).trans ((Nat.mod_eq_of_lt hfits).trans hq)
  · exact (congrArg (setFlag · flagDone true) hstatus).trans (setDone_decompressStatus _ _)

/-- Settles O17: past `ceil(8 len / 9)` tokens the loop is stable, and `decompressRun_spec` bounds what it leaves. -/
theorem decompressBounded : Obligations.DecompressBounded := by
  unfold Obligations.DecompressBounded
  intro sel s t hmem hsrc hdst hexec
  obtain ⟨u, hrun, rfl⟩ := exec_decompress_next hsrc hdst hexec
  obtain ⟨out, o, ended, -, hspec, ho, hcount, -⟩ := decompressRun_spec (s := s.issue) hsrc hdst
  have hu := Option.some.inj (hrun.symm.trans hspec)
  have hq : u.q = out.length := by
    rw [hu]
    exact (produced_q _ out).trans (Nat.zero_add _)
  have hrd : u.rd = posAt o := by rw [hu]; rfl
  have ho : o ≤ 8 * s.srcLen.toNat := ho
  have hcount : u.q ≤ 18 * ((8 * s.srcLen.toNat + 8) / 9) := hq ▸ hcount
  obtain ⟨hbound, hfits⟩ := decompress_count_bound (hsrc.trans hmem)
  have hlt : u.q < 2 ^ 32 := by omega
  refine ⟨fun k hk => ?_, hcount, hbound, hlt, ?_, (BitVec.toNat_ofNat ..).trans (Nat.mod_eq_of_lt hlt)⟩
  · exact decompressLoop_stable _ (decompressInit s) 0 k hsrc hdst rfl
      (by show 8 * s.srcLen.toNat - 0 ≤ _; omega) hk
  · show u.rd.cur ≤ _
    rw [hrd, posAt_cur]
    omega

/-! ## Fidelity -/

/-- What COMPRESS leaves for a decoder: the canonical stream of its source, all of it within the first RESULT_LEN bytes
of DST (42_lzss_compress.md R187 to R189). -/
theorem exec_compress_stream {sel : Space} {s t : State} (hsize : s.srcLen.toNat ≤ 2 ^ 27)
    (hwd : Memory.wf s.dst = true) (hwh : Memory.wf s.hist = true) (hsrc : s.srcLen.toNat ≤ s.launch.srcMem)
    (hcap : compressCap s.srcLen.toNat ≤ s.launch.dstMem) (h : exec (.compress sel) s = .next t) :
    ∃ toks, CanonicalTokens s.src s.srcLen.toNat 0 toks ∧ t.resultLen.toNat = (canonicalString toks).length / 8 + 1 ∧
      ∀ x, x < 8 * t.resultLen.toNat → streamBit t.dst x = (canonicalString toks).getD x false := by
  obtain ⟨v, hrule, rfl⟩ := runCommand_next_of_check (checkCompress_issue hsrc hcap) h
  obtain ⟨u, hrun, rfl⟩ := Option.map_eq_some_iff.mp hrule
  obtain ⟨toks, htoks, hwr, hbits⟩ := compressRun_canonical (s := s.issue) hsrc hcap hwd hwh hrun
  obtain ⟨u', o, hrun', -, -, -, -, -, hcur, -⟩ := compressRun_spec (s := s.issue) hsrc hcap
  obtain rfl : u' = u := Option.some.inj (hrun'.symm.trans hrun)
  have hcur : u'.wr.cur + 1 ≤ compressCap s.srcLen.toNat := hcur
  have hfits : u'.wr.cur + 1 < 2 ^ 32 := by unfold compressCap at hcur; omega
  have hlen : (BitVec.ofNat 32 (u'.wr.cur + 1)).toNat = u'.wr.cur + 1 :=
    (BitVec.toNat_ofNat ..).trans (Nat.mod_eq_of_lt hfits)
  refine ⟨toks, htoks, hlen.trans (by rw [hwr, posAt_cur]), fun x hx => hbits x ?_⟩
  exact hx.trans_le (Nat.mul_le_mul_left 8 (hlen.trans_le hcur))

/-- Settles O23: the stream is canonical by `exec_compress_stream`, the reference decoder gives its source back by
`streamOutput_of_canonicalString`, and DECOMPRESS is the reference decoder by O16. -/
theorem compressThenDecompressRestores : Obligations.CompressThenDecompressRestores := by
  unfold Obligations.CompressThenDecompressRestores
  rintro sel sel' s t u ⟨hsize, -⟩ hsizesU ⟨-, hwd, hwh, -⟩ hcanonU hsrc hcap hexec hlen hlenU hcopy hdstU hroom
  obtain ⟨toks, htoks, hresult, hbits⟩ := exec_compress_stream (hsrc.trans hsize) hwd hwh hsrc hcap hexec
  rw [← hlen] at hresult hbits hcopy
  have hbitsU : ∀ x, x < 8 * u.srcLen.toNat → streamBit u.src x = (canonicalString toks).getD x false := fun x hx => by
    have hbyte : Memory.read u.src (x / 8) = Memory.read t.dst (x / 8) := hcopy (x / 8) (by omega)
    rw [← hbits x hx, streamBit, streamBit, hbyte]
  obtain ⟨v, out, ended, hexecV, hout, hcount, hq, hterm, hovr, hstatus, -, hread, -⟩ :=
    decompressProducesStream sel' u hsizesU hcanonU hlenU hdstU
  rw [streamOutput_of_canonicalString htoks hresult hbitsU, Prod.mk.injEq] at hout
  obtain ⟨rfl, rfl⟩ := hout
  rw [sourcePrefix_length] at hcount hq hovr hstatus hread
  have hinside : decide (u.dstLen.toNat < s.srcLen.toNat) = false := decide_eq_false (Nat.not_lt.mpr hroom)
  rw [hinside] at hovr hstatus
  refine ⟨v, hexecV, BitVec.eq_of_toNat_eq hcount, hterm, hq, hovr, hstatus, fun a ha => ?_⟩
  rw [hread, if_pos ⟨ha, ha.trans_le hroom⟩, sourcePrefix_getD ha]
  rfl

/-! ## The BIT_* registers -/

/-- The state with other values in the position registers of READ_BITS and WRITE_BITS. -/
def State.withBitRegs (s : State) (cursor : Word) (mask : Byte) : State :=
  { s with bitCursor := cursor, bitMask := mask }

/-- A rule that neither reads nor moves BIT_CURSOR and BIT_MASK: other values in them come out as they went in. -/
def IgnoresBitRegs (rule : State → Option State) : Prop :=
  ∀ (s : State) (cursor : Word) (mask : Byte),
    rule (s.withBitRegs cursor mask) = (rule s).map fun u => u.withBitRegs cursor mask

/-- One rule after another. -/
theorem IgnoresBitRegs.bind {f g : State → Option State} (hf : IgnoresBitRegs f) (hg : IgnoresBitRegs g) :
    IgnoresBitRegs fun s => (f s).bind g := by
  intro s cursor mask
  simp only [hf s cursor mask]
  cases f s with
  | none => rfl
  | some u => exact hg u cursor mask

/-- Emit stores, or remembers the byte past DST_LEN, by `q`, DST_LEN and DST_MEM alone (41_lzss_decompress.md R165). -/
theorem emit_ignoresBitRegs (v : Byte) : IgnoresBitRegs (State.emit · v) := by
  intro s cursor mask
  by_cases hroom : s.q < s.dstLen.toNat → s.q < s.launch.dstMem
  · show (s.withBitRegs cursor mask).emit v = (s.emit v).map _
    rw [emit_eq hroom v]
    exact emit_eq (s := s.withBitRegs cursor mask) hroom v
  · obtain ⟨hq, hm⟩ := Classical.not_imp.mp hroom
    simp [State.emit, State.memWrite, State.withBitRegs, hq, hm]

/-- The copy loop is a row of Emits (41_lzss_decompress.md R164). -/
theorem copyHist_ignoresBitRegs (n : Nat) : ∀ i, IgnoresBitRegs (State.copyHist n i) := by
  induction n with
  | zero => exact fun i s cursor mask => rfl
  | succ n ih =>
    intro i s cursor mask
    exact (emit_ignoresBitRegs (s.histRead i)).bind (ih (i + 1)) s cursor mask

theorem runToken_ignoresBitRegs (tok : Token) : IgnoresBitRegs (runToken tok) := by
  have hterm : IgnoresBitRegs termRule := fun s cursor mask => rfl
  intro s cursor mask
  cases tok with
  | lit v => exact emit_ignoresBitRegs v (s.skipToken 9) cursor mask
  | ref e l =>
    by_cases he : e = 0#13
    · simp only [runToken, refRule, if_pos he]
      exact hterm s cursor mask
    · simp only [runToken, refRule, if_neg he]
      exact copyHist_ignoresBitRegs _ _ (s.skipToken 18) cursor mask
  | term => exact hterm s cursor mask
  | term2 => exact hterm s cursor mask

/-- The token loop fetches through `rd`, not through BIT_CURSOR and BIT_MASK (41_lzss_decompress.md R171). -/
theorem decompressLoop_ignoresBitRegs (n : Nat) : IgnoresBitRegs (decompressLoop n) := by
  induction n with
  | zero => exact fun s cursor mask => rfl
  | succ n ih =>
    intro s cursor mask
    have hnext : IgnoresBitRegs fun u => if u.term then some u else decompressLoop n u := by
      intro u cursor mask
      show (if u.term then some (u.withBitRegs cursor mask) else decompressLoop n (u.withBitRegs cursor mask)) =
        (if u.term then some u else decompressLoop n u).map _
      rw [ih u cursor mask]
      cases u.term with
      | true => rfl
      | false => rfl
    rw [decompressLoop, decompressLoop]
    by_cases hend : s.srcLen.toNat ≤ s.rd.cur
    · rw [if_pos hend]
      exact if_pos hend
    · rw [if_neg hend]
      refine (if_neg hend).trans ?_
      have hfetch : (s.withBitRegs cursor mask).fetchToken = s.fetchToken := rfl
      rw [hfetch]
      cases s.fetchToken with
      | none => rfl
      | some tok => exact (runToken_ignoresBitRegs tok).bind hnext s cursor mask

theorem decompressRun_ignoresBitRegs : IgnoresBitRegs decompressRun := by
  intro s cursor mask
  have hloop := decompressLoop_ignoresBitRegs (8 * s.srcLen.toNat) (decompressInit s) cursor mask
  refine (congrArg (Option.map _) hloop).trans ?_
  rw [decompressRun]
  cases decompressLoop (8 * s.srcLen.toNat) (decompressInit s) with
  | none => rfl
  | some u => rfl

/-- READ_BITS and WRITE_BITS leave the LZSS engines (70_reset_and_hazards.md R287). -/
theorem exec_bitIO_engines {sel : Space} {s t : State}
    (h : exec (.readBits sel) s = .next t ∨ exec (.writeBits sel) s = .next t) : t.rd = s.rd ∧ t.wr = s.wr := by
  rcases h with h | h
  · rcases runCommand_cases h with ⟨code, -, rfl⟩ | ⟨hc, u, hu, rfl⟩
    · exact ⟨rfl, rfl⟩
    · obtain ⟨r, -, rfl⟩ := Option.map_eq_some_iff.mp hu
      exact ⟨rfl, rfl⟩
  · rcases runCommand_cases h with ⟨code, -, rfl⟩ | ⟨hc, u, hu, rfl⟩
    · exact ⟨rfl, rfl⟩
    · obtain ⟨hmask, hwidth, hfit⟩ := bounds_of_checkWriteBits hc
      obtain ⟨mem, hrule, -⟩ := writeBitsRule_spec hmask rfl hwidth hfit
      obtain rfl := Option.some.inj (hrule.symm.trans hu)
      exact ⟨rfl, rfl⟩

/-- DECOMPRESS and COMPRESS leave BIT_CURSOR and BIT_MASK (70_reset_and_hazards.md R287). -/
theorem exec_lzss_bitRegs {sel : Space} {s t : State}
    (h : exec (.decompress sel) s = .next t ∨ exec (.compress sel) s = .next t) :
    t.bitCursor = s.bitCursor ∧ t.bitMask = s.bitMask := by
  rcases h with h | h
  · obtain ⟨-, -, hregs⟩ := exec_writesOwn rfl h
    exact hregs fun _ => ⟨nofun, nofun⟩
  · obtain ⟨-, -, hregs⟩ := exec_writesOwn rfl h
    exact hregs fun _ => ⟨nofun, nofun⟩

/-- Settles O39: who owns which register by `exec_bitIO_engines` and `exec_lzss_bitRegs`, the start at bit 0 by
`fetchToken_eq`, and the last clause by `decompressRun_ignoresBitRegs`, the old `rd` being overwritten. -/
theorem bitRegistersSeparate : Obligations.BitRegistersSeparate := by
  unfold Obligations.BitRegistersSeparate
  refine ⟨fun sel s t => exec_bitIO_engines, fun sel s t => exec_lzss_bitRegs, fun sel s t hsrc hdst hexec => ?_,
    fun sel s t rd cursor mask hsrc hdst hexec => ?_⟩
  · obtain ⟨u, hrun, rfl⟩ := exec_decompress_next hsrc hdst hexec
    obtain ⟨v, hloop, rfl⟩ := Option.map_eq_some_iff.mp hrun
    exact ⟨rfl, fun hpos => fetchToken_eq (s := decompressInit s.issue) hsrc rfl (Nat.mul_pos (by decide) hpos),
      v, hloop, rfl, rfl, rfl, rfl⟩
  · obtain ⟨u, hrun, rfl⟩ := exec_decompress_next hsrc hdst hexec
    have hsame := decompressRun_ignoresBitRegs s.issue cursor mask
    rw [hrun] at hsame
    exact exec_decompress sel (s := { s with rd := rd, bitCursor := cursor, bitMask := mask }) hsrc hdst hsame

end Sys2Proof.Machine

/-! COMPRESS (42_lzss_compress.md): the match search, the references in range, the command against the token list of the
search rules, its worst case, and that it depends on its source alone. -/

namespace Sys2Proof.Machine

open Host (Outcome)

/-! ## The search -/

/-- Settles O18: `searchMatch_spec` with each extent read as a match length, which HIST's mirroring of SRC allows. -/
theorem searchFindsNearestLongest : Obligations.SearchFindsNearestLongest := by
  unfold Obligations.SearchFindsNearestLongest
  intro n s hmirror hn hp
  obtain ⟨t, hsearch, hframe, -, -, -, hlongest, hfound, -⟩ := searchMatch_spec hn hp
  have hlength : ∀ a, IsCandidate s.p a → s.extent n a = matchLength s.src n a s.p :=
    fun a ⟨_, hwindow, _⟩ => extent_eq_matchLength hmirror hwindow
  refine ⟨t, hsearch, hframe, fun hnone a ha => ?_, fun hpos => ?_⟩
  · have := hlongest a ha
    rw [hlength a ha] at this
    omega
  · obtain ⟨hcand, hbest, hnearest⟩ := hfound hpos
    rw [hlength _ hcand] at hbest
    refine ⟨⟨hcand, fun a ha => ?_⟩, hbest⟩
    rw [← hlength a ha, hbest]
    exact ⟨hlongest a ha, hnearest a ha⟩

/-! ## The command -/

/-- The end of COMPRESS: RESULT_LEN is `wr_cur + 1`, DONE is set, the core is IDLE (42_lzss_compress.md R187, R188). -/
def State.compressEnd (u : State) : State := { u with resultLen := BitVec.ofNat 32 (u.wr.cur + 1) }.complete

/-- COMPRESS, its checks passing, is its run and its end (42_lzss_compress.md R187). -/
theorem exec_compress (sel : Space) {s u : State} (hsrc : s.srcLen.toNat ≤ s.launch.srcMem)
    (hcap : compressCap s.srcLen.toNat ≤ s.launch.dstMem) (h : compressRun s.issue = some u) :
    exec (.compress sel) s = .next u.compressEnd :=
  runCommand_ok (checkCompress_issue hsrc hcap) (congrArg (Option.map _) h)

/-- What COMPRESS answers is the end of a run (42_lzss_compress.md R187). -/
theorem exec_compress_next {sel : Space} {s t : State} (hsrc : s.srcLen.toNat ≤ s.launch.srcMem)
    (hcap : compressCap s.srcLen.toNat ≤ s.launch.dstMem) (h : exec (.compress sel) s = .next t) :
    ∃ u, compressRun s.issue = some u ∧ t = u.compressEnd := by
  obtain ⟨u, -, hrun, -⟩ := compressRun_spec (s := s.issue) hsrc hcap
  exact ⟨u, hrun, Outcome.next.inj (h.symm.trans (exec_compress sel hsrc hcap hrun))⟩

/-- RESULT_LEN holds `wr_cur + 1` uncut, for every SRC that 00_scope.md R8 allows (42_lzss_compress.md R188, R189). -/
theorem compressEnd_resultLen {u : State} {n : Nat} (hn : n ≤ 2 ^ 27) (hcur : u.wr.cur + 1 ≤ compressCap n) :
    u.compressEnd.resultLen.toNat = u.wr.cur + 1 := by
  have hfits : u.wr.cur + 1 < 2 ^ 32 := by unfold compressCap at hcur; omega
  exact (BitVec.toNat_ofNat ..).trans (Nat.mod_eq_of_lt hfits)

/-- Settles O20: the stream is `compressRun_canonical`, the bytes from `cap` on `compressRun_spec`, the rest
`compressed_frame`. -/
theorem compressWritesCanonicalStream : Obligations.CompressWritesCanonicalStream := by
  unfold Obligations.CompressWritesCanonicalStream
  rintro sel s ⟨hsize, -⟩ ⟨-, hwd, hwh, -⟩ hsrc hcap
  obtain ⟨u, -, hrun, hframe, -, -, -, -, hcur, -, -, -, -, hmem, -⟩ := compressRun_spec (s := s.issue) hsrc hcap
  obtain ⟨toks, htoks, hwr, hbits⟩ := compressRun_canonical (s := s.issue) hsrc hcap hwd hwh hrun
  obtain ⟨hops, hbitRegs, hdecomp, hciph, hsrcKept, hstatus, -, hlog, -⟩ := compressed_frame hframe
  obtain ⟨-, -, huntouched⟩ := hmem hwd
  have hdone : u.compressEnd.status = 0x00000002#32 :=
    congrArg State.status (complete_of_status_zero (s := { u with resultLen := _ }) hstatus)
  have hresult : u.compressEnd.resultLen.toNat = (canonicalString toks).length / 8 + 1 := by
    rw [compressEnd_resultLen (hsrc.trans hsize) hcur, hwr, posAt_cur]
  exact ⟨u.compressEnd, toks, exec_compress sel hsrc hcap hrun, htoks, hresult, hbits, huntouched,
    fun a => congrArg (Memory.read · a) hsrcKept, hdone, rfl, hlog, hops, hbitRegs, hdecomp, hciph⟩

/-- What a COMPRESS that answers `t` leaves in RESULT_LEN and DST: O20's stream, for the state it answers. -/
theorem exec_compress_canonical {sel : Space} {s t : State} (hsizes : MemSizes s) (hcanon : MemoriesCanonical s)
    (hsrc : s.srcLen.toNat ≤ s.launch.srcMem) (hcap : compressCap s.srcLen.toNat ≤ s.launch.dstMem)
    (h : exec (.compress sel) s = .next t) :
    ∃ toks, CanonicalTokens s.src s.srcLen.toNat 0 toks ∧ t.resultLen.toNat = (canonicalString toks).length / 8 + 1 ∧
      ∀ x, x < 8 * compressCap s.srcLen.toNat → streamBit t.dst x = (canonicalString toks).getD x false := by
  obtain ⟨t', toks, hexec, htoks, hresult, hbits, -⟩ := compressWritesCanonicalStream sel s hsizes hcanon hsrc hcap
  obtain rfl : t' = t := Outcome.next.inj (hexec.symm.trans h)
  exact ⟨toks, htoks, hresult, hbits⟩

/-- Settles O21: the data tokens end at an offset of at most `9 N`, where the terminator's two bits follow
(`compressRun_spec`). -/
theorem compressStaysWithinBound : Obligations.CompressStaysWithinBound := by
  unfold Obligations.CompressStaysWithinBound
  rintro sel s t ⟨hsize, -⟩ ⟨-, hwd, -⟩ hsrc hcap hexec
  obtain ⟨u, hrun, rfl⟩ := exec_compress_next hsrc hcap hexec
  obtain ⟨u', o, hrun', -, hcapReg, hwr, ho, -, hcur, -, -, -, -, hmem, -⟩ := compressRun_spec (s := s.issue) hsrc hcap
  obtain rfl : u' = u := Option.some.inj (hrun'.symm.trans hrun)
  obtain ⟨-, hzero, huntouched⟩ := hmem hwd
  have hresult := compressEnd_resultLen (hsrc.trans hsize) hcur
  have ho : o ≤ 9 * s.srcLen.toNat := ho
  have hoffset : bitOffset u'.wr ≤ 9 * s.srcLen.toNat + 2 := by
    rw [hwr, bitOffset_posAt]
    omega
  have hcursor : u'.wr.cur ≤ (9 * s.srcLen.toNat + 2) / 8 := by
    rw [hwr, posAt_cur]
    omega
  exact ⟨hresult, hcursor, hoffset, hresult.trans_le hcur, hcapReg, fun a ha => hzero a (hresult.symm.trans_le ha),
    huntouched⟩

/-- Settles O22: the first `N` bytes fix the token list (`canonicalTokens_congr`, `canonicalTokens_unique`), and the token
list fixes the length and the output (O20). -/
theorem compressDependsOnSourceOnly : Obligations.CompressDependsOnSourceOnly := by
  unfold Obligations.CompressDependsOnSourceOnly
  intro sel s s' t t' hsizes hsizes' hcanon hcanon' hlen hsame hsrc hsrc' hcap hcap' hexec hexec'
  obtain ⟨toks, htoks, hresult, hbits⟩ := exec_compress_canonical hsizes hcanon hsrc hcap hexec
  obtain ⟨toks', htoks', hresult', hbits'⟩ :=
    exec_compress_canonical hsizes' hcanon' (hlen ▸ hsrc') (hlen ▸ hcap') hexec'
  rw [← hlen] at htoks' hbits'
  obtain rfl : toks = toks' := canonicalTokens_unique toks 0 toks' htoks
    (canonicalTokens_congr (fun a ha => (hsame a ha).symm) toks' 0 htoks')
  refine ⟨BitVec.eq_of_toNat_eq (hresult.trans hresult'.symm), fun a ha => read_eq_iff_streamBit.mpr fun i hi => ?_⟩
  have hx : 8 * a + i < 8 * compressCap s.srcLen.toNat := by unfold compressCap; omega
  exact (hbits _ hx).trans (hbits' _ hx).symm

/-! ## The references of a stream -/

theorem coveredBytes_lit (v : Byte) (toks : List Token) : coveredBytes (.lit v :: toks) = 1 + coveredBytes toks :=
  List.sum_cons

theorem coveredBytes_ref (e : BitVec 13) (l : BitVec 4) (toks : List Token) :
    coveredBytes (.ref e l :: toks) = l.toNat + Config.minMatch + coveredBytes toks :=
  List.sum_cons

/-- The tail of a token list is the token list of the source from where the tokens before it end
(42_lzss_compress.md R180). -/
theorem canonicalTokens_append {src : Memory} {n : Nat} {rest : List Token} (before : List Token) :
    ∀ p, CanonicalTokens src n p (before ++ rest) → CanonicalTokens src n (p + coveredBytes before) rest := by
  induction before with
  | nil => exact fun p h => h
  | cons tok before ih =>
    intro p h
    cases tok with
    | lit v =>
      obtain ⟨-, -, -, htail⟩ := h
      rw [coveredBytes_lit, ← Nat.add_assoc]
      exact ih _ htail
    | ref e l =>
      obtain ⟨-, -, htail⟩ := h
      rw [coveredBytes_ref, ← Nat.add_assoc]
      exact ih _ htail
    | term => exact h.elim
    | term2 => exact h.elim

/-- The start of a candidate is one that a REF can encode: its index is 1 to 8191 (42_lzss_compress.md R182, R185). -/
theorem isCandidate_index {p a : Nat} (h : IsCandidate p a) :
    1 ≤ a % 8192 + 1 ∧ a % 8192 + 1 ≤ 8191 ∧ a % 8192 ≠ 8191 ∧ a < p ∧ p - a ≤ 8192 := by
  obtain ⟨hbehind, hwindow, hresidue⟩ := h
  simp only [Config.histSize, Config.skipPos] at hwindow hresidue
  omega

/-- A match lies within the source (42_lzss_compress.md R183, R190). -/
theorem matchLength_in_source {src : Memory} {n a p : Nat} (hpos : 0 < matchLength src n a p) :
    p + matchLength src n a p ≤ n := by
  obtain ⟨hlast, -⟩ := matchLength_agrees (Nat.sub_lt hpos Nat.one_pos)
  omega

/-- A REF of the token list stands for a match of a candidate (42_lzss_compress.md R185, R190). -/
theorem canonicalTokens_ref {src : Memory} {n p : Nat} {e : BitVec 13} {l : BitVec 4} {rest : List Token}
    (h : CanonicalTokens src n p (.ref e l :: rest)) :
    ∃ a, IsCandidate p a ∧ e.toNat = a % 8192 + 1 ∧ matchLength src n a p = l.toNat + 3 := by
  obtain ⟨-, ⟨a, ⟨hcand, -⟩, hlength, hindex⟩, -⟩ := h
  exact ⟨a, hcand, hindex, hlength⟩

/-- Settles O19: a start that the search or the token list gives is a candidate (`searchMatch_spec`,
`canonicalTokens_ref`), and the stream is O20's. -/
theorem emittedReferencesInRange : Obligations.EmittedReferencesInRange := by
  unfold Obligations.EmittedReferencesInRange
  refine ⟨fun n s t hn hp hsearch hmin => ?_, fun sel s t hsizes hcanon hsrc hcap hexec => ?_⟩
  · obtain ⟨t', hsearch', hframe, hmax, hinside, -, -, hfound, -⟩ := searchMatch_spec hn hp
    obtain rfl : t' = t := Option.some.inj (hsearch'.symm.trans hsearch)
    have hp' : t'.p = s.p := by rw [hframe]
    obtain ⟨hcand, -⟩ := hfound (Nat.lt_of_lt_of_le (by decide) hmin)
    obtain ⟨hlow, hhigh, hresidue, hbehind, hdist⟩ := isCandidate_index hcand
    rw [hp']
    exact ⟨hmax, hlow, hhigh, hresidue, Nat.sub_pos_of_lt hbehind, hdist, hinside⟩
  · obtain ⟨toks, htoks, -, hbits⟩ := exec_compress_canonical hsizes hcanon hsrc hcap hexec
    refine ⟨toks, htoks, hbits, ?_⟩
    rintro before after e l p rfl rfl
    have hrest := canonicalTokens_append before 0 htoks
    rw [Nat.zero_add] at hrest
    obtain ⟨a, hcand, hindex, hlength⟩ := canonicalTokens_ref hrest
    obtain ⟨hlow, hhigh, hresidue, hbehind, hdist⟩ := isCandidate_index hcand
    have hinside : coveredBytes before + (l.toNat + 3) ≤ s.srcLen.toNat :=
      hlength ▸ matchLength_in_source (hlength.symm ▸ Nat.succ_pos _)
    rw [hindex]
    refine ⟨by omega, hlow, hhigh, hinside, a, Nat.add_sub_cancel .., hresidue, hbehind, hdist, fun k hk => ?_⟩
    obtain ⟨-, hagree⟩ := matchLength_agrees (hk.trans_eq hlength.symm)
    exact hagree

end Sys2Proof.Machine

/-! DECRYPT and ENCRYPT (43_cipher.md): the closed form of a command, its processed length, and the inverse law. -/

namespace Sys2Proof.Machine

open Host (Outcome)

/-! ## The operands -/

theorem SameOperands.cipherLen {s t : State} (h : SameOperands s t) (sel : Space) : t.cipherLen sel = s.cipherLen sel := by
  obtain ⟨hsrcLen, hdstLen, -⟩ := h
  cases sel with
  | src => exact congrArg BitVec.toNat hsrcLen
  | dst => exact congrArg BitVec.toNat hdstLen

theorem SameOperands.size {s t : State} (h : SameOperands s t) (sp : Space) : t.size sp = s.size sp := by
  cases sp with
  | src => exact congrArg Launch.srcMem h.launch
  | dst => exact congrArg Launch.dstMem h.launch

theorem SameOperands.keyLayer {s t : State} (h : SameOperands s t) : t.keyLayer = s.keyLayer := by
  obtain ⟨-, -, hblock, hkey, -⟩ := h
  simp only [State.keyLayer, hblock, hkey]

/-- The length operand is a register's value (43_cipher.md R205). -/
theorem cipherLen_lt (s : State) (sel : Space) : s.cipherLen sel < 2 ^ 32 := by
  cases sel with
  | src => exact s.srcLen.isLt
  | dst => exact s.dstLen.isLt

/-- P of a cipher command on a state (43_cipher.md R201, R205). -/
def State.cipherP (s : State) (sel : Space) : Nat := processedLen (s.cipherLen sel) s.ciphBlock.toNat

/-- RESULT_LEN holds P uncut (43_cipher.md R201). -/
theorem cipherP_toNat (s : State) (sel : Space) : (BitVec.ofNat 32 (s.cipherP sel)).toNat = s.cipherP sel :=
  (BitVec.toNat_ofNat ..).trans
    (Nat.mod_eq_of_lt (Nat.lt_of_le_of_lt (processedLen_le ..) (cipherLen_lt s sel)))

/-! ## The command -/

/-- The command of each direction: DECRYPT (43_cipher.md R205) and ENCRYPT (R206). -/
def cipherInstr : Bool → Space → Instr
  | true, sel => .decrypt sel
  | false, sel => .encrypt sel

theorem exec_cipherInstr (dec : Bool) (sel : Space) (s : State) :
    exec (cipherInstr dec sel) s = runCommand (checkCipher sel) (cipherRule dec sel) s := by
  cases dec with
  | true => rfl
  | false => rfl

/-- The checks of DECRYPT and ENCRYPT pass under their conditions, whatever STATUS was (60_exceptions.md R244). -/
theorem checkCipher_issue {sel : Space} {s : State} (hlen : s.cipherLen sel ≤ s.size sel)
    (hblock : s.ciphBlock ≠ 0#32) : checkCipher sel s.issue = none := by
  refine checkCipher_none.mpr ⟨?_, hblock⟩
  cases sel with
  | src => exact hlen
  | dst => exact hlen

theorem issue_mem (s : State) (sp : Space) : s.issue.mem sp = s.mem sp := by cases sp <;> rfl

/-- The end of DECRYPT and ENCRYPT: RESULT_LEN is P, DONE is set, the core is IDLE (43_cipher.md R205, R206). -/
def State.cipherEnd (u : State) : State := { u with resultLen := BitVec.ofNat 32 u.P }.complete

theorem cipherEnd_mem (u : State) (sp : Space) : u.cipherEnd.mem sp = u.mem sp := by cases sp <;> rfl

/-- A cipher command, its checks passing, is its run and its end (43_cipher.md R205, R206). -/
theorem exec_cipherInstr_eq {dec : Bool} {sel : Space} {s u : State} (hcheck : checkCipher sel s.issue = none)
    (hrun : cipherRun dec sel (s.issue.cipherLen sel) s.issue.keyLayer s.issue = some u) :
    exec (cipherInstr dec sel) s = .next u.cipherEnd :=
  (exec_cipherInstr dec sel s).trans (runCommand_ok hcheck (congrArg (Option.map _) hrun))

/-- How a cipher command ends (43_cipher.md R205, R206, R207): the closed form on the selected memory, RESULT_LEN and
STATUS, and its frame. -/
def CipherEnds (dec : Bool) (sel : Space) (s t : State) : Prop :=
  CipherRelates dec s.keyLayer (s.cipherP sel) (s.mem sel) (t.mem sel) ∧
    (∀ sp a, sp ≠ sel → t.byteAt sp a = s.byteAt sp a) ∧ t.resultLen = BitVec.ofNat 32 (s.cipherP sel) ∧
    t.status = 0x00000002#32 ∧ t.core = .idle ∧ t.hist = s.hist ∧ t.faultLog = s.faultLog ∧ SameOperands s t ∧
    SameBitRegs s t ∧ SameDecompressor s t ∧ SameCompressor s t

/-- A cipher command, its checks passing, ends in the closed form and keeps the memory canonical. -/
theorem exec_cipher (dec : Bool) {sel : Space} {s : State} (hwf : Memory.wf (s.mem sel) = true)
    (hlen : s.cipherLen sel ≤ s.size sel) (hblock : s.ciphBlock ≠ 0#32) :
    ∃ t, exec (cipherInstr dec sel) s = .next t ∧ Memory.wf (t.mem sel) = true ∧ CipherEnds dec sel s t := by
  have hcheck := checkCipher_issue hlen hblock
  have hissue : SameOperands s s.issue := SameOperands.refl s
  obtain ⟨hB, hlen'⟩ := bounds_of_checkCipher hcheck
  obtain ⟨u, hrun, hframe, hP, -, -, -, -, hother, -, hclosed, -⟩ :=
    cipherRun_spec dec sel s.issue.keyLayer hB hlen'
  rw [hissue.cipherLen, hissue.keyLayer] at hP
  rw [issue_mem, hissue.keyLayer, hP] at hclosed
  obtain ⟨hwfu, hrelates⟩ := hclosed hwf
  obtain ⟨hops, hbits, hdecomp, hcomp, hhist, hstatus, -, hlog, -⟩ := ciphered_frame hframe
  have hdone : u.cipherEnd.status = 0x00000002#32 :=
    congrArg State.status (complete_of_status_zero (s := { u with resultLen := _ }) hstatus)
  rw [← cipherEnd_mem] at hwfu hrelates
  refine ⟨u.cipherEnd, exec_cipherInstr_eq hcheck hrun, hwfu, hrelates, fun sp a hsp => ?_, congrArg (BitVec.ofNat 32) hP,
    hdone, rfl, hhist, hlog, hops, hbits, hdecomp, hcomp⟩
  rw [State.byteAt, cipherEnd_mem, hother sp hsp, issue_mem]
  rfl

/-- Settles O24: `exec_cipher` in each direction. -/
theorem cipherClosedForm : Obligations.CipherClosedForm := by
  unfold Obligations.CipherClosedForm
  rintro sel s _ _ hcanon hlen hblock rfl rfl
  obtain ⟨t, hdec, -, hends⟩ := exec_cipher true (mem_wf hcanon sel) hlen hblock
  obtain ⟨u, henc, -, hends'⟩ := exec_cipher false (mem_wf hcanon sel) hlen hblock
  exact ⟨⟨t, hdec, hends⟩, u, henc, hends'⟩

/-- Settles O25: RESULT_LEN is `processedLen`, and the closed form leaves the bytes from there on. -/
theorem processedLengthRule : Obligations.ProcessedLengthRule := by
  unfold Obligations.ProcessedLengthRule
  rintro sel i s t _ _ hi hcanon rfl rfl hlen hB hexec
  obtain ⟨dec, rfl⟩ : ∃ dec, i = cipherInstr dec sel := hi.elim (⟨true, ·⟩) (⟨false, ·⟩)
  have hblock : s.ciphBlock ≠ 0#32 := fun h => hB (congrArg BitVec.toNat h)
  obtain ⟨t', hexec', -, ⟨-, hsuffix⟩, -, hresult, -⟩ := exec_cipher dec (mem_wf hcanon sel) hlen hblock
  obtain rfl : t' = t := Outcome.next.inj (hexec'.symm.trans hexec)
  rw [hresult, cipherP_toNat]
  exact ⟨rfl, hsuffix⟩

/-! ## The inverse law -/

theorem positionMapBijective (b : Nat) : PositionMapBijective b :=
  ⟨fun _ => targetOffset_lt, fun _ _ => targetOffset_inj, fun _ => targetOffset_surj⟩

/-- The run of the other direction has the same P, and `relates_inverse` joins the two closed forms (43_cipher.md R208). -/
theorem cipherRun_isUndone (dec : Bool) {sp : Space} {len : Nat} {layer : Layer} {s : State} (hB : 1 ≤ layer.blockSize)
    (hlen : len ≤ s.size sp) (hwf : Memory.wf (s.mem sp) = true) : RunIsUndone dec sp len layer s := by
  obtain ⟨t, hrun, hframe, hP, -, -, -, -, -, -, hclosed, -⟩ := cipherRun_spec dec sp layer hB hlen
  obtain ⟨hwft, hrelates⟩ := hclosed hwf
  obtain ⟨hops, -⟩ := ciphered_frame hframe
  obtain ⟨u, hrun', -, hP', -, -, -, -, -, -, hclosed', -⟩ :=
    cipherRun_spec (!dec) sp layer hB (hlen.trans_eq (hops.size sp).symm)
  obtain ⟨-, hrelates'⟩ := hclosed' hwft
  have hsameP : u.P = t.P := hP'.trans hP.symm
  rw [hsameP] at hrelates'
  exact ⟨t, u, hrun, hrun', hsameP, relates_inverse hB hrelates hrelates'⟩

/-- Two cipher commands one after the other, in any two directions: the second meets the first one's operands, so both
process the same P bytes under the same key. -/
theorem exec_cipher_twice (dec dec' : Bool) {sel : Space} {s : State} (hwf : Memory.wf (s.mem sel) = true)
    (hlen : s.cipherLen sel ≤ s.size sel) (hblock : s.ciphBlock ≠ 0#32) :
    ∃ t u, exec (cipherInstr dec sel) s = .next t ∧ exec (cipherInstr dec' sel) t = .next u ∧
      u.resultLen = t.resultLen ∧ CipherRelates dec s.keyLayer (s.cipherP sel) (s.mem sel) (t.mem sel) ∧
      CipherRelates dec' s.keyLayer (s.cipherP sel) (t.mem sel) (u.mem sel) := by
  obtain ⟨t, hexec, hwft, hrelates, -, hresult, -, -, -, -, hops, -⟩ := exec_cipher dec hwf hlen hblock
  have ⟨_, _, hsameBlock, _⟩ := hops
  have hsameP : t.cipherP sel = s.cipherP sel := by rw [State.cipherP, hops.cipherLen, hsameBlock]; rfl
  have hlen' : t.cipherLen sel ≤ t.size sel := by rwa [hops.cipherLen, hops.size]
  obtain ⟨u, hexec', -, hrelates', -, hresult', -⟩ := exec_cipher dec' hwft hlen' (hsameBlock.trans_ne hblock)
  rw [hops.keyLayer, hsameP] at hrelates'
  rw [hsameP, ← hresult] at hresult'
  exact ⟨t, u, hexec, hexec', hresult', hrelates, hrelates'⟩

/-- A cipher command is undone by the command of the other direction (43_cipher.md R208). -/
theorem exec_cipher_isUndone (dec : Bool) {sel : Space} {s : State} (hwf : Memory.wf (s.mem sel) = true)
    (hlen : s.cipherLen sel ≤ s.size sel) (hblock : s.ciphBlock ≠ 0#32) :
    ∃ t u, exec (cipherInstr dec sel) s = .next t ∧ exec (cipherInstr (!dec) sel) t = .next u ∧
      u.resultLen = t.resultLen ∧ ∀ a, u.byteAt sel a = s.byteAt sel a := by
  obtain ⟨t, u, hexec, hexec', hresult, hrelates, hrelates'⟩ := exec_cipher_twice dec (!dec) hwf hlen hblock
  obtain ⟨hB, -⟩ := bounds_of_checkCipher (checkCipher_issue hlen hblock)
  exact ⟨t, u, hexec, hexec', hresult, relates_inverse hB hrelates hrelates'⟩

/-- DECRYPT's closed form on four bytes with B = 4, M0 = 0, I = 1: `T_4` is 3, 1, 2, 0 (43_cipher.md R204, R207). -/
theorem relates_four {m m' : Memory} {v0 v1 v2 v3 : Byte}
    (h : CipherRelates true { blockSize := 4, baseMask := 0#8, maskInc := 1#8 } 4 m m')
    (hm : (List.range 4).map (Memory.read m) = [v0, v1, v2, v3]) :
    (List.range 4).map (Memory.read m') = [v3 ^^^ 3#8, v1 ^^^ 1#8, v2 ^^^ 2#8, v0 ^^^ 0#8] := by
  obtain ⟨hbytes, -⟩ := h
  have h0 : Memory.read m' 3 = Memory.read m 0 ^^^ 0#8 := hbytes 0 (by decide)
  have h1 : Memory.read m' 1 = Memory.read m 1 ^^^ 1#8 := hbytes 1 (by decide)
  have h2 : Memory.read m' 2 = Memory.read m 2 ^^^ 2#8 := hbytes 2 (by decide)
  have h3 : Memory.read m' 0 = Memory.read m 3 ^^^ 3#8 := hbytes 3 (by decide)
  have hrange : List.range 4 = [0, 1, 2, 3] := rfl
  simp only [hrange, List.map_cons, List.map_nil, List.cons.injEq, and_true] at hm ⊢
  obtain ⟨rfl, rfl, rfl, rfl⟩ := hm
  exact ⟨h3, h1, h2, h0⟩

/-- Settles O26: `cipherRun_isUndone` for the runs, `exec_cipher_isUndone` for the commands, and `relates_four` twice for
the example. -/
theorem cipherInverseLaw : Obligations.CipherInverseLaw := by
  unfold Obligations.CipherInverseLaw
  refine ⟨positionMapBijective, fun dec sp len layer s hB hlen hwf => cipherRun_isUndone dec hB hlen hwf,
    fun sel s hcanon hlen hblock => ?_⟩
  have hwf := mem_wf hcanon sel
  refine ⟨exec_cipher_isUndone false hwf hlen hblock, exec_cipher_isUndone true hwf hlen hblock,
    fun hfour hblockFour hkey hbytes => ?_⟩
  obtain ⟨t, u, hexec, hexec', -, hfirst, hsecond⟩ := exec_cipher_twice true true hwf hlen hblock
  have hlayer : s.keyLayer = { blockSize := 4, baseMask := 0#8, maskInc := 1#8 } := by
    rw [State.keyLayer, hblockFour, hkey]
    rfl
  have hP : s.cipherP sel = 4 := by
    rw [State.cipherP, hfour, hblockFour]
    rfl
  rw [hlayer, hP] at hfirst hsecond
  exact ⟨t, u, hexec, hexec', relates_four hsecond (relates_four hfirst hbytes)⟩

end Sys2Proof.Machine

/-! DECODE and ENCODE (44_pipeline.md): what the two layers leave alone, each pipeline against its units in closed form,
and the round trip. -/

namespace Sys2Proof.Machine

open Host (Outcome)

/-! ## What a layer leaves alone -/

/-- A small trailing remainder is not processed (43_cipher.md R201). -/
theorem processedLen_le_of_remainder {len block : Nat} (h : len % block < block / 4) :
    processedLen len block ≤ len - len % block := by
  rw [processedLen, if_pos h]
  split <;> omega

/-- The last byte of an odd length is not processed (43_cipher.md R201). -/
theorem processedLen_le_of_odd {len block : Nat} (h : len % 2 = 1) : processedLen len block ≤ len - 1 := by
  rw [processedLen, if_pos h]
  split <;> omega

/-- A length below a quarter of the block is a small remainder as a whole (44_pipeline.md R226). -/
theorem processedLen_eq_zero {len block : Nat} (h : len < block / 4) : processedLen len block = 0 := by
  have hwhole : len % block = len := Nat.mod_eq_of_lt (by omega)
  have hle := processedLen_le_of_remainder (hwhole.trans_lt h)
  omega

/-- A run leaves a stream shorter than a quarter of its block, a remainder below that, and the last byte of an odd length
(44_pipeline.md R226). -/
theorem cipherRun_leaves_suffix (dec : Bool) {sp : Space} {len : Nat} {layer : Layer} {s : State}
    (hB : 1 ≤ layer.blockSize) (hcanon : MemoriesCanonical s) (hlen : len ≤ s.size sp) :
    ∃ t, cipherRun dec sp len layer s = some t ∧
      (len < layer.blockSize / 4 → ∀ a, t.byteAt sp a = s.byteAt sp a) ∧
      (len % layer.blockSize < layer.blockSize / 4 →
        ∀ a, len - len % layer.blockSize ≤ a → t.byteAt sp a = s.byteAt sp a) ∧
      (len % 2 = 1 → t.byteAt sp (len - 1) = s.byteAt sp (len - 1)) := by
  obtain ⟨t, hrun, -, hP, -, -, -, -, -, -, hclosed, -⟩ := cipherRun_spec dec sp layer hB hlen
  obtain ⟨-, -, hsuffix⟩ := hclosed (mem_wf hcanon sp)
  rw [hP] at hsuffix
  refine ⟨t, hrun, fun hshort a => hsuffix a ?_, fun hrem a ha => hsuffix a ?_, fun hodd => hsuffix _ ?_⟩
  · exact (processedLen_eq_zero hshort).trans_le (Nat.zero_le a)
  · exact (processedLen_le_of_remainder hrem).trans ha
  · exact processedLen_le_of_odd hodd

/-- Settles O27: `cipherRun_leaves_suffix` with the blocks of layer B and layer A. -/
theorem layersLeaveShortStreams : Obligations.LayersLeaveShortStreams := by
  unfold Obligations.LayersLeaveShortStreams
  intro dec sp L s hcanon hlen
  exact ⟨cipherRun_leaves_suffix (layer := Config.layerB) dec (by decide) hcanon hlen,
    cipherRun_leaves_suffix (layer := Config.layerA) dec (by decide) hcanon hlen⟩

/-! ## A layer inside a pipeline -/

/-- What one layer of a pipeline does from `s` to `t`: the closed form on its memory, the other memory and everything but
the cipher's registers unchanged, the memories canonical for the unit after it (43_cipher.md R203, R207). -/
structure LayerApplied (dec : Bool) (sp : Space) (len : Nat) (layer : Layer) (s t : State) : Prop where
  frame     : t = s.ciphered t
  relates   : CipherRelates dec layer (processedLen len layer.blockSize) (s.mem sp) (t.mem sp)
  other     : ∀ sp', sp' ≠ sp → t.mem sp' = s.mem sp'
  canonical : MemoriesCanonical t

theorem layerApplied_of_cipherRun {dec : Bool} {sp : Space} {len : Nat} {layer : Layer} {s t : State}
    (hB : 1 ≤ layer.blockSize) (hlen : len ≤ s.size sp) (hcanon : MemoriesCanonical s)
    (h : cipherRun dec sp len layer s = some t) : LayerApplied dec sp len layer s t := by
  obtain ⟨t', hrun, hframe, hP, -, -, -, -, hother, -, hclosed, -⟩ := cipherRun_spec dec sp layer hB hlen
  obtain rfl : t' = t := Option.some.inj (hrun.symm.trans h)
  obtain ⟨-, hrelates⟩ := hclosed (mem_wf hcanon sp)
  exact ⟨hframe, hP ▸ hrelates, hother, cipherRun_canonical hB hlen h hcanon⟩

/-- The frames of two cipher runs compose. -/
theorem ciphered_trans {s t u : State} (h1 : t = s.ciphered t) (h2 : u = t.ciphered u) : u = s.ciphered u := by
  rw [h1] at h2
  exact h2

/-! ## DECODE -/

/-- The end of DECODE: RESULT_LEN is `q`, ERR_SIZE says whether it differs from DST_LEN, DONE is set, the core is IDLE
(44_pipeline.md R220, R221). -/
def State.decodeEnd (u : State) : State :=
  { u with
    resultLen := BitVec.ofNat 32 u.q
    status := setFlag u.status flagErrSize (decide (u.q ≠ u.dstLen.toNat)) }.complete

/-- DECODE, its checks passing: both layers applied to SRC, a run of the decompressor, and its end
(44_pipeline.md R220). -/
theorem exec_decode (sel : Space) {s : State} (hcanon : MemoriesCanonical s) (hsrc : s.srcLen.toNat ≤ s.launch.srcMem)
    (hdst : s.dstLen.toNat ≤ s.launch.dstMem) :
    ∃ a b c, exec (.decode sel) s = .next c.decodeEnd ∧
      LayerApplied true .src s.srcLen.toNat Config.layerA s.issue a ∧
      LayerApplied true .src s.srcLen.toNat Config.layerB a b ∧ decompressRun b = some c := by
  obtain ⟨_, _, _, -, -, -, hrule⟩ := decodeRule_spec (s := s.issue) hsrc hdst
  obtain ⟨a, b, c, hrunA, hlenA, hrunB, -, hrunC, hend⟩ := decodeRule_stages (s := s.issue) hsrc hdst hrule
  rw [hend] at hrule
  have hA := layerApplied_of_cipherRun (s := s.issue) (by decide) hsrc hcanon hrunA
  have hB := layerApplied_of_cipherRun (by decide) hlenA hA.canonical hrunB
  exact ⟨a, b, c, runCommand_ok (checkBothLens_issue hsrc hdst) hrule, hA, hB, hrunC⟩

/-- Settles O28: the two layers are `exec_decode`, the decompressor on what they leave is `decompressRun_streamOutput`,
and the frames compose. -/
theorem decodeDeciphersThenDecompresses : Obligations.DecodeDeciphersThenDecompresses := by
  unfold Obligations.DecodeDeciphersThenDecompresses
  rintro sel s ⟨hsize, -⟩ hcanon hsrc hdst
  obtain ⟨a, b, c, hexec, hA, hB, hrun⟩ := exec_decode sel hcanon hsrc hdst
  obtain ⟨-, hwd, -, -, hinit⟩ := hB.canonical
  have hdstKept : b.dst = s.dst := (hB.other .dst (by decide)).trans (hA.other .dst (by decide))
  obtain ⟨hops, hbits, -, hcomp, -, hstatus, -, hlog, -⟩ := ciphered_frame (ciphered_trans hA.frame hB.frame)
  have ⟨hsrcLen, hdstLen, _⟩ := hops
  obtain ⟨out, ended, hout⟩ : ∃ out ended, streamOutput b.launch.histInit (readableBit b.src b.srcLen.toNat)
      b.srcLen.toNat (8 * b.srcLen.toNat) 0 [] = (out, ended) := ⟨_, _, rfl⟩
  obtain ⟨o, -, hc, hq, -, -, hcount, hmem, -⟩ := decompressRun_streamOutput
    (by rw [hsrcLen, hops.launch]; exact hsrc) (by rw [hdstLen, hops.launch]; exact hdst) hinit hrun hout
  obtain ⟨-, -, hread⟩ := hmem hwd
  obtain ⟨hops', hbits', hcomp', -, hsrcKept, -, hlog', -⟩ := decoded_frame hc
  have hstatusC : c.status = decompressStatus 0#32 ended (decide (s.dstLen.toNat < out.length)) := by
    rw [hc, hstatus, hdstLen]
    rfl
  have ⟨_, hdstLenC, _⟩ := hops.trans hops'
  rw [hsrcLen] at hout hcount
  rw [hops.launch, ← hsrcKept] at hout
  rw [hdstLen, hdstKept] at hread
  refine ⟨c.decodeEnd, a.src, out, ended, hexec, hA.relates, hsrcKept ▸ hB.relates, hout, ?_, ?_, hread, rfl,
    hlog'.trans hlog, hops.trans hops', hbits.trans hbits', hcomp.trans hcomp'⟩
  · have hlen : s.srcLen.toNat ≤ 2 ^ 27 := hsrc.trans hsize
    obtain ⟨hbound, hword⟩ := decompress_count_bound hlen
    have hcount : out.length ≤ 18 * ((8 * s.srcLen.toNat + 8) / 9) := hcount
    have hfits : c.q < 2 ^ 32 := by omega
    exact (BitVec.toNat_ofNat ..).trans ((Nat.mod_eq_of_lt hfits).trans hq)
  · show setFlag (setFlag c.status flagErrSize (decide (c.q ≠ c.dstLen.toNat))) flagDone true = _
    rw [hstatusC, hq, hdstLenC]
    exact setDone_decodeStatus _ _ _

/-! ## ENCODE -/

/-- The end of ENCODE: RESULT_LEN is the compressed length, DONE is set, the core is IDLE (44_pipeline.md R222). -/
def State.encodeEnd (u : State) (len : Nat) : State := { u with resultLen := BitVec.ofNat 32 len }.complete

/-- ENCODE, its checks passing: a run of the compressor, both layers applied to the compressed length of DST, and its end
(44_pipeline.md R222). -/
theorem exec_encode (sel : Space) {s : State} (hcanon : MemoriesCanonical s) (hsrc : s.srcLen.toNat ≤ s.launch.srcMem)
    (hcap : compressCap s.srcLen.toNat ≤ s.launch.dstMem) :
    ∃ a b c, exec (.encode sel) s = .next (c.encodeEnd (a.wr.cur + 1)) ∧ compressRun s.issue = some a ∧
      LayerApplied false .dst (a.wr.cur + 1) Config.layerB a b ∧
      LayerApplied false .dst (a.wr.cur + 1) Config.layerA b c := by
  obtain ⟨_, _, _, -, -, -, -, hrule⟩ := encodeRule_spec (s := s.issue) hsrc hcap
  obtain ⟨a, b, c, hrunA, hlenA, hrunB, hlenB, hrunC, hend⟩ := encodeRule_stages (s := s.issue) hsrc hcap hrule
  rw [hend] at hrule
  have hcanonA := compressRun_canonicalForm (s := s.issue) hsrc hcap hrunA hcanon
  have hB := layerApplied_of_cipherRun (by decide) hlenA hcanonA hrunB
  have hA := layerApplied_of_cipherRun (by decide) hlenB hB.canonical hrunC
  exact ⟨a, b, c, runCommand_ok (checkCompress_issue hsrc hcap) hrule, hrunA, hB, hA⟩

/-- Two layers over the same length leave the bytes from there on (43_cipher.md R201). -/
theorem LayerApplied.suffix_trans {dec : Bool} {sp : Space} {len : Nat} {l1 l2 : Layer} {s t u : State}
    (h1 : LayerApplied dec sp len l1 s t) (h2 : LayerApplied dec sp len l2 t u) {x : Nat} (hx : len ≤ x) :
    Memory.read (u.mem sp) x = Memory.read (s.mem sp) x := by
  obtain ⟨-, h1⟩ := h1.relates
  obtain ⟨-, h2⟩ := h2.relates
  exact (h2 x ((processedLen_le ..).trans hx)).trans (h1 x ((processedLen_le ..).trans hx))

/-- Settles O29: the stream is `compressRun_canonical`, its bounds and DST's other bytes `compressRun_spec`, the layers
`exec_encode`, and the frames compose. -/
theorem encodeCompressesThenEnciphers : Obligations.EncodeCompressesThenEnciphers := by
  unfold Obligations.EncodeCompressesThenEnciphers
  rintro sel s ⟨hsize, -⟩ hcanon hsrc hcap
  have ⟨_, hwd, hwh, _⟩ := hcanon
  obtain ⟨a, b, c, hexec, hrun, hB, hA⟩ := exec_encode sel hcanon hsrc hcap
  obtain ⟨a', -, hrun', hframe, -, -, -, -, hcur, -, -, -, -, hmem, -⟩ := compressRun_spec (s := s.issue) hsrc hcap
  obtain rfl : a' = a := Option.some.inj (hrun'.symm.trans hrun)
  obtain ⟨toks, htoks, hwr, hbits⟩ := compressRun_canonical (s := s.issue) hsrc hcap hwd hwh hrun
  obtain ⟨-, hzero, huntouched⟩ := hmem hwd
  obtain ⟨hops, hregs, hdecomp, -, hsrcKept, hstatus, -, hlog, -⟩ := compressed_frame hframe
  obtain ⟨hops', hregs', hdecomp', -, -, hstatus', -, hlog', -⟩ := ciphered_frame (ciphered_trans hB.frame hA.frame)
  have hsrcKept' : c.src = s.src :=
    ((hA.other .src (by decide)).trans (hB.other .src (by decide))).trans hsrcKept
  have hdone : (c.encodeEnd (a'.wr.cur + 1)).status = 0x00000002#32 :=
    congrArg State.status (complete_of_status_zero (s := { c with resultLen := _ }) (hstatus'.trans hstatus))
  have hsuffix : ∀ x, a'.wr.cur + 1 ≤ x → Memory.read c.dst x = Memory.read a'.dst x := fun _ => hB.suffix_trans hA
  refine ⟨c.encodeEnd (a'.wr.cur + 1), toks, a'.dst, b.dst, a'.wr.cur + 1, hexec, htoks, by rw [hwr, posAt_cur], hcur,
    hbits, huntouched, hB.relates, hA.relates, ?_, fun x hlo hhi => ?_, fun x hx => ?_,
    fun x => congrArg (Memory.read · x) hsrcKept', hdone, rfl, hlog'.trans hlog, hops.trans hops', hregs.trans hregs',
    hdecomp.trans hdecomp'⟩
  · exact compressEnd_resultLen (hsrc.trans hsize) hcur
  · exact (hsuffix x hlo).trans (hzero x hlo hhi)
  · exact (hsuffix x (hcur.trans hx)).trans (huntouched x hx)

/-! ## The round trip -/

/-- The closed form of one direction, read backwards, is that of the other (43_cipher.md R207, R208). -/
theorem CipherRelates.symm {dec : Bool} {layer : Layer} {P : Nat} {m n : Memory} (h : CipherRelates dec layer P m n) :
    CipherRelates (!dec) layer P n m := by
  obtain ⟨hbytes, hsuffix⟩ := h
  refine ⟨fun x hx => ?_, fun x hx => (hsuffix x hx).symm⟩
  have hbyte := hbytes x hx
  cases dec with
  | false =>
    show Memory.read m (cipherTarget layer P x) = Memory.read n x ^^^ maskAt layer x
    rw [show Memory.read n x = _ from hbyte, BitVec.xor_assoc, BitVec.xor_self, BitVec.xor_zero]
  | true =>
    show Memory.read m x = Memory.read n (cipherTarget layer P x) ^^^ maskAt layer x
    rw [show Memory.read n (cipherTarget layer P x) = _ from hbyte, BitVec.xor_assoc, BitVec.xor_self, BitVec.xor_zero]

/-- A run over memories that agree below `L` leaves memories that agree below `L`: no processed byte depends on one past
`P`, which is at most `L` (43_cipher.md R207). -/
theorem CipherRelates.agree_below {dec : Bool} {layer : Layer} {P L : Nat} {m m' n n' : Memory}
    (hB : 1 ≤ layer.blockSize) (hP : P ≤ L) (h : CipherRelates dec layer P m n) (h' : CipherRelates dec layer P m' n')
    (hsame : ∀ x, x < L → Memory.read m x = Memory.read m' x) {x : Nat} (hx : x < L) :
    Memory.read n x = Memory.read n' x := by
  obtain ⟨hbytes, hsuffix⟩ := h
  obtain ⟨hbytes', hsuffix'⟩ := h'
  by_cases hxP : x < P
  · cases dec with
    | false =>
      have hbyte : Memory.read n x = _ ^^^ _ := hbytes x hxP
      have hbyte' : Memory.read n' x = _ ^^^ _ := hbytes' x hxP
      rw [hbyte, hbyte', hsame _ ((cipherTarget_lt hB hxP).trans_le hP)]
    | true =>
      obtain ⟨y, hy, rfl⟩ := cipherTarget_surj hB hxP
      have hbyte : Memory.read n (cipherTarget layer P y) = _ ^^^ _ := hbytes y hy
      have hbyte' : Memory.read n' (cipherTarget layer P y) = _ ^^^ _ := hbytes' y hy
      rw [hbyte, hbyte', hsame y (hy.trans_le hP)]
  · rw [hsuffix x (Nat.le_of_not_lt hxP), hsuffix' x (Nat.le_of_not_lt hxP), hsame x hx]

/-- A run is undone by the other direction's run over any memory that agrees with its result below `L`
(43_cipher.md R208). -/
theorem CipherRelates.undone_below {dec : Bool} {layer : Layer} {P L : Nat} {m n n' m' : Memory}
    (hB : 1 ≤ layer.blockSize) (hP : P ≤ L) (h : CipherRelates dec layer P m n)
    (hsame : ∀ x, x < L → Memory.read n' x = Memory.read n x) (h' : CipherRelates (!dec) layer P n' m') :
    ∀ x, x < L → Memory.read m' x = Memory.read m x :=
  fun _ => h'.agree_below hB hP h.symm hsame

/-- Settles O31: DECODE takes off the layers that ENCODE put on (`CipherRelates.undone_below`, A first), so SRC's first
`Lc` bytes are the canonical stream, which decodes to its source (`streamOutput_of_canonicalString`). -/
theorem encodeThenDecodeRestores : Obligations.EncodeThenDecodeRestores := by
  unfold Obligations.EncodeThenDecodeRestores
  intro sel sel' s t u hsizes hsizesU hcanon hcanonU hsrc hcap hexec hlen hlenU hcopy hdstLen hdstU
  obtain ⟨t', toks, plain, mid, Lc, hexec', htoks, hLc, hLcCap, hbits, -, hencB, hencA, hresult, -⟩ :=
    encodeCompressesThenEnciphers sel s hsizes hcanon hsrc hcap
  obtain rfl : t' = t := Outcome.next.inj (hexec'.symm.trans hexec)
  obtain ⟨v, mid', out, ended, hexecV, hdecA, hdecB, hout, hcount, hstatus, hread, -⟩ :=
    decodeDeciphersThenDecompresses sel' u hsizesU hcanonU hlenU hdstU
  obtain rfl : u.srcLen.toNat = Lc := (congrArg BitVec.toNat hlen).trans hresult
  rw [hresult] at hcopy
  have hmid := hencA.undone_below (by decide) (processedLen_le ..) hcopy hdecA
  have hplain := hencB.undone_below (by decide) (processedLen_le ..) hmid hdecB
  have hbitsV : ∀ x, x < 8 * u.srcLen.toNat → streamBit v.src x = (canonicalString toks).getD x false := fun x hx => by
    rw [← hbits x (by omega), streamBit, streamBit, hplain (x / 8) (by omega)]
  rw [streamOutput_of_canonicalString htoks hLc hbitsV, Prod.mk.injEq] at hout
  obtain ⟨rfl, rfl⟩ := hout
  rw [sourcePrefix_length] at hcount hstatus hread
  rw [hdstLen] at hstatus hread
  refine ⟨v, hexecV, BitVec.eq_of_toNat_eq hcount, ?_, fun a ha => ?_⟩
  · rw [hstatus, decide_eq_false (not_not_intro rfl), decide_eq_false (Nat.lt_irrefl _)]
    rfl
  · rw [hread, if_pos ⟨ha, ha⟩, sourcePrefix_getD ha]
    rfl

end Sys2Proof.Machine

/-! Faults and the command life cycle (60_exceptions.md): what a fault and a clean end leave, the issue checks in order,
and the status conditions each command can end with. -/

namespace Sys2Proof.Machine

/-! ## What STATUS shows at the end of a command -/

theorem afterFault_status (s : State) (code : FaultCode) :
    (afterFault s code).status = 0x00000022#32 ||| (faultNumber code <<< 8) := rfl

theorem afterFault_fault (s : State) (code : FaultCode) : getFlag (afterFault s code).status flagFault = true := by
  rw [afterFault_status]
  cases code <;> decide

theorem afterFault_done (s : State) (code : FaultCode) : getFlag (afterFault s code).status flagDone = true := by
  rw [afterFault_status]
  cases code <;> decide

theorem afterFault_fcode (s : State) (code : FaultCode) : getFcode (afterFault s code).status = code.number := by
  rw [afterFault_status]
  cases code <;> decide

theorem afterFault_byteAt (s : State) (code : FaultCode) (sp : Space) (a : Nat) :
    (afterFault s code).byteAt sp a = s.byteAt sp a := by cases sp <;> rfl

theorem endStatus_done (w e o : Bool) : getFlag (endStatus w e o) flagDone = true := by
  revert w e o
  decide

theorem endStatus_fcode (w e o : Bool) : getFcode (endStatus w e o) = 0#4 := by
  revert w e o
  decide

theorem EndsClean.noFault {s t : State} (h : EndsClean s t) : getFlag t.status flagFault = false := by
  obtain ⟨w, e, o, hst⟩ := h.status
  rw [hst, endStatus_noFault]

/-- FAULT at the end of a command tells which way it ended (60_exceptions.md R241, R242). -/
theorem exec_faulted {i : Instr} {s t : State} (hi : i.isCommand = true) (h : exec i s = .next t)
    (hf : getFlag t.status flagFault = true) : ∃ code, t = afterFault s code := by
  rcases exec_ends hi h with hfault | hclean
  · exact hfault
  · rw [hclean.noFault] at hf
    cases hf

theorem exec_unfaulted {i : Instr} {s t : State} (hi : i.isCommand = true) (h : exec i s = .next t)
    (hf : getFlag t.status flagFault = false) : EndsClean s t := by
  rcases exec_ends hi h with ⟨code, rfl⟩ | hclean
  · rw [afterFault_fault] at hf
    cases hf
  · exact hclean

/-- Settles O36: a command answers by `exec_command_total`, IDLE by `exec_idle`, and `exec_ends` gives its two ends. -/
theorem everyCommandCompletes : Obligations.EveryCommandCompletes := by
  unfold Obligations.EveryCommandCompletes
  intro i s hi
  obtain ⟨t, h⟩ := exec_command_total hi s
  refine ⟨t, h, exec_idle hi h, ?_⟩
  rcases exec_ends hi h with ⟨code, rfl⟩ | hclean
  · exact ⟨afterFault_done s code, .inl ⟨code, rfl⟩⟩
  · obtain ⟨w, e, o, hst⟩ := hclean.status
    rw [hst]
    exact ⟨endStatus_done w e o, .inr ⟨endStatus_noFault w e o, endStatus_fcode w e o⟩⟩

/-- Settles O34: a command with FAULT set ended by `afterFault`, which spells out what changes. -/
theorem faultChangesStatusOnly : Obligations.FaultChangesStatusOnly := by
  unfold Obligations.FaultChangesStatusOnly
  intro i s t hi h hf
  obtain ⟨code, rfl⟩ := exec_faulted hi h hf
  exact ⟨code, rfl, afterFault_done s code, afterFault_fcode s code, afterFault_byteAt s code⟩

/-- Settles O35: a clean end keeps the log, and a fault's code goes to the log and to FCODE. -/
theorem faultLogRecordsFaults : Obligations.FaultLogRecordsFaults := by
  unfold Obligations.FaultLogRecordsFaults
  intro i s t hi h
  refine ⟨fun hf => (exec_unfaulted hi h hf).faultLog, fun hf => ?_⟩
  obtain ⟨code, rfl⟩ := exec_faulted hi h hf
  exact ⟨code, rfl, afterFault_fcode s code⟩

/-! ## The issue checks in order -/

/-- How a command whose checks answer this ends: with a code, by that fault; with none, unfaulted. -/
def EndsAs (i : Instr) (s : State) : Option FaultCode → Prop
  | some code => exec i s = .next (afterFault s code)
  | none => EndsByChecks i s []

/-- A command ends as its checks answer: a rule that answers and ends clean raises nothing more (R244). -/
theorem endsAs_of_rule {i : Instr} {check : State → Option FaultCode} {rule : State → Option State}
    (hexec : ∀ s, exec i s = runCommand check rule s) (hclean : RuleEndsClean check rule)
    (htotal : RuleAnswers check rule) (s : State) : EndsAs i s (check s.issue) := by
  cases hc : check s.issue with
  | some code => exact (hexec s).trans ((runCommand_fault hc).trans (congrArg _ (takeFault_issue s code)))
  | none =>
    obtain ⟨u, hu⟩ := htotal s.issue hc
    obtain ⟨-, w, e, o, hst⟩ := hclean s.issue u rfl hc hu
    refine ⟨u.complete, (hexec s).trans (runCommand_ok hc hu), ?_⟩
    rw [State.complete, hst, endStatus_noFault]

/-- One row of the check table against one `unlessFault` of the machine. -/
theorem EndsAs.check {i : Instr} {s : State} {ok : Bool} {p : Prop} {code : FaultCode} {next : Option FaultCode}
    {rest : List (Prop × FaultCode)} (h : EndsAs i s (unlessFault ok code next)) (hp : p ↔ ok = true)
    (hrest : EndsAs i s next → EndsByChecks i s rest) : EndsByChecks i s ((p, code) :: rest) := by
  cases ok with
  | true => exact ⟨fun hn => absurd (hp.mpr rfl) hn, fun _ => hrest h⟩
  | false => exact ⟨fun _ => ⟨_, h, rfl⟩, fun hy => Bool.noConfusion (hp.mp hy)⟩

theorem srcLenOk_iff (s : State) : s.srcLen.toNat ≤ s.launch.srcMem ↔ s.issue.srcLenOk = true :=
  decide_eq_true_iff.symm

theorem dstLenOk_iff (s : State) : s.dstLen.toNat ≤ s.launch.dstMem ↔ s.issue.dstLenOk = true :=
  decide_eq_true_iff.symm

theorem widthOk_iff (s : State) : 1 ≤ s.bitN.toNat ∧ s.bitN.toNat ≤ 16 ↔ s.issue.widthOk = true :=
  (and_congr decide_eq_true_iff decide_eq_true_iff).symm.trans Bool.and_eq_true_iff.symm

theorem capFits_iff (s : State) : (9 * s.srcLen.toNat + 7) / 8 + 2 ≤ s.launch.dstMem ↔ s.issue.capFits = true :=
  decide_eq_true_iff.symm

theorem writeFits_iff (s : State) :
    (8 * s.bitCursor.toNat + (7 - s.bitMask.toNat.log2) + s.bitN.toNat - 1) / 8 < s.launch.dstMem ↔
      s.issue.writeFits = true :=
  decide_eq_true_iff.symm

/-- The table lists the masks from bit 0 up, `oneHot` from bit 7 down. -/
theorem oneHot_iff (mask : Byte) :
    mask ∈ [0x01#8, 0x02#8, 0x04#8, 0x08#8, 0x10#8, 0x20#8, 0x40#8, 0x80#8] ↔ oneHot mask = true :=
  List.mem_reverse.symm.trans decide_eq_true_iff.symm

/-- The table's rows that DECOMPRESS and DECODE share. -/
theorem EndsAs.bothLens {i : Instr} {s : State} (h : EndsAs i s (checkBothLens s.issue)) :
    EndsByChecks i s
      [(s.srcLen.toNat ≤ s.launch.srcMem, .badLen), (s.dstLen.toNat ≤ s.launch.dstMem, .badLen)] :=
  h.check (srcLenOk_iff s) fun h => h.check (dstLenOk_iff s) id

/-- The table's rows that COMPRESS and ENCODE share. -/
theorem EndsAs.compress {i : Instr} {s : State} (h : EndsAs i s (checkCompress s.issue)) :
    EndsByChecks i s
      [(s.srcLen.toNat ≤ s.launch.srcMem, .badLen), ((9 * s.srcLen.toNat + 7) / 8 + 2 ≤ s.launch.dstMem, .noSpace)] :=
  h.check (srcLenOk_iff s) fun h => h.check (capFits_iff s) id

/-- The table's rows that DECRYPT and ENCRYPT share, over the memory SEL names. -/
theorem cipher_endsByChecks (dec : Bool) (sel : Space) (s : State) :
    EndsByChecks (cipherInstr dec sel) s
      [(s.cipherLen sel ≤ s.size sel, .badLen), (s.ciphBlock ≠ 0#32, .badBlock)] := by
  have hlen : s.cipherLen sel ≤ s.size sel ↔ decide (s.issue.cipherLen sel ≤ s.issue.size sel) = true := by
    cases sel <;> exact decide_eq_true_iff.symm
  exact (endsAs_of_rule (exec_cipherInstr dec sel) (cipher_endsClean dec sel) (cipher_answers dec sel) s).check hlen
    fun h => h.check decide_eq_true_iff.symm id

theorem readBits_endsByChecks (sel : Space) (s : State) :
    EndsByChecks (.readBits sel) s
      [(s.srcLen.toNat ≤ s.launch.srcMem, .badLen), (1 ≤ s.bitN.toNat ∧ s.bitN.toNat ≤ 16, .badWidth),
       (s.bitMask ∈ [0x01#8, 0x02#8, 0x04#8, 0x08#8, 0x10#8, 0x20#8, 0x40#8, 0x80#8], .badMask)] :=
  (endsAs_of_rule (fun _ => rfl) readBits_endsClean readBits_answers s).check (srcLenOk_iff s)
    fun h => h.check (widthOk_iff s) fun h => h.check (oneHot_iff s.bitMask) id

theorem writeBits_endsByChecks (sel : Space) (s : State) :
    EndsByChecks (.writeBits sel) s
      [(1 ≤ s.bitN.toNat ∧ s.bitN.toNat ≤ 16, .badWidth),
       (s.bitMask ∈ [0x01#8, 0x02#8, 0x04#8, 0x08#8, 0x10#8, 0x20#8, 0x40#8, 0x80#8], .badMask),
       ((8 * s.bitCursor.toNat + (7 - s.bitMask.toNat.log2) + s.bitN.toNat - 1) / 8 < s.launch.dstMem, .noSpace)] :=
  (endsAs_of_rule (fun _ => rfl) writeBits_endsClean writeBits_answers s).check (widthOk_iff s)
    fun h => h.check (oneHot_iff s.bitMask) fun h => h.check (writeFits_iff s) id

/-- Settles O33: each command's rows follow its `unlessFault` chain (`EndsAs.check`), and past the last one its rule
answers and ends clean (`endsAs_of_rule`). -/
theorem issueChecksInOrder : Obligations.IssueChecksInOrder := by
  unfold Obligations.IssueChecksInOrder
  intro sel s
  exact ⟨readBits_endsByChecks sel s, writeBits_endsByChecks sel s,
    (endsAs_of_rule (fun _ => rfl) decompress_endsClean decompress_answers s).bothLens,
    (endsAs_of_rule (fun _ => rfl) compress_endsClean compress_answers s).compress,
    cipher_endsByChecks true .src s, cipher_endsByChecks false .src s,
    cipher_endsByChecks true .dst s, cipher_endsByChecks false .dst s,
    (endsAs_of_rule (fun _ => rfl) decode_endsClean decode_answers s).bothLens,
    (endsAs_of_rule (fun _ => rfl) encode_endsClean encode_answers s).compress⟩

/-! ## The status conditions of each command -/

/-- The conditions that a command can end with (60_exceptions.md R243): WARN_NOTERM and OVERRUN are DECOMPRESS's and
DECODE's, ERR_SIZE is DECODE's, where OVERRUN brings it along (R246). -/
def CanEndWith (i : Instr) (warn err ovr : Bool) : Prop :=
  ((∀ sel, i ≠ .decompress sel ∧ i ≠ .decode sel) → warn = false ∧ ovr = false) ∧
    ((∀ sel, i ≠ .decode sel) → err = false) ∧
    ((∃ sel, i = .decode sel) → ovr = true → err = true)

/-- The rule of `i`, run from issue, sets only conditions that `i` can end with. -/
def RuleSetsOwnConditions (i : Instr) (check : State → Option FaultCode) (rule : State → Option State) : Prop :=
  ∀ s u, s.status = 0#32 → check s = none → rule s = some u →
    ∃ warn err ovr, setFlag u.status flagDone true = endStatus warn err ovr ∧ CanEndWith i warn err ovr

/-- A rule that does not touch STATUS ends with no condition, whichever command it is the rule of. -/
theorem setsOwn_of_keepsStatus {check : State → Option FaultCode} {rule : State → Option State}
    (h : ∀ s u, check s = none → rule s = some u → u.status = s.status) (i : Instr) :
    RuleSetsOwnConditions i check rule := by
  intro s u hst hc hr
  refine ⟨false, false, false, ?_, fun _ => ⟨rfl, rfl⟩, fun _ => rfl, fun _ hovr => Bool.noConfusion hovr⟩
  rw [h s u hc hr, hst]
  decide

theorem readBitsRule_status {s u : State} (h : readBitsRule s = some u) : u.status = s.status := by
  obtain ⟨r, -, rfl⟩ := Option.map_eq_some_iff.mp h
  rfl

theorem writeBitsRule_status {s u : State} (hc : checkWriteBits s = none) (h : writeBitsRule s = some u) :
    u.status = s.status := by
  obtain ⟨hmask, hwidth, hfit⟩ := bounds_of_checkWriteBits hc
  obtain ⟨mem, e, -⟩ := writeBitsRule_spec hmask rfl hwidth hfit
  obtain rfl := Option.some.inj (e.symm.trans h)
  rfl

theorem cipherRule_status {dec : Bool} {sel : Space} {s u : State} (hc : checkCipher sel s = none)
    (h : cipherRule dec sel s = some u) : u.status = s.status := by
  obtain ⟨hB, hlen⟩ := bounds_of_checkCipher hc
  obtain ⟨v, hv, rfl⟩ := Option.map_eq_some_iff.mp h
  obtain ⟨-, -, hstv⟩ := cipherRun_keeps hB hlen hv
  exact hstv

theorem compressRule_status {s u : State} (hc : checkCompress s = none) (h : compressRule s = some u) :
    u.status = s.status := by
  obtain ⟨hsrc, hcap⟩ := bounds_of_checkCompress hc
  obtain ⟨v, hv, rfl⟩ := Option.map_eq_some_iff.mp h
  obtain ⟨-, hstv⟩ := compressRun_keeps hsrc hcap hv
  exact hstv

theorem encodeRule_status {s u : State} (hc : checkCompress s = none) (h : encodeRule s = some u) :
    u.status = s.status := by
  obtain ⟨hsrc, hcap⟩ := bounds_of_checkCompress hc
  obtain ⟨a, b, c, ea, ha, eb, hb, ec, rfl⟩ := encodeRule_stages hsrc hcap h
  obtain ⟨-, hsta⟩ := compressRun_keeps hsrc hcap ea
  obtain ⟨-, -, hstb⟩ := cipherRun_keeps (by decide) ha eb
  obtain ⟨-, -, hstc⟩ := cipherRun_keeps (by decide) hb ec
  exact hstc.trans (hstb.trans hsta)

/-- The decompressor's conditions, OVERRUN by its count and DST_LEN (41_lzss_decompress.md R171). -/
theorem decompressRun_status {s t : State} (hsrc : s.srcLen.toNat ≤ s.launch.srcMem)
    (hdst : s.dstLen.toNat ≤ s.launch.dstMem) (h : decompressRun s = some t) :
    ∃ ended, t.status = decompressStatus s.status ended (decide (t.dstLen.toNat < t.q)) := by
  obtain ⟨out, o, ended, -, e, -⟩ := decompressRun_spec hsrc hdst
  have ft := Option.some.inj (h.symm.trans e)
  have hq : t.q = out.length := by
    rw [ft]
    exact (produced_q (decompressInit s) out).trans (Nat.zero_add _)
  obtain ⟨⟨-, hlen, -⟩, -⟩ := decoded_frame ft
  exact ⟨ended, by rw [hq, hlen, ft]⟩

theorem decompress_setsOwn (sel : Space) : RuleSetsOwnConditions (.decompress sel) checkBothLens decompressRule := by
  intro s u hst hc hr
  obtain ⟨hsrc, hdst⟩ := bounds_of_checkBothLens hc
  obtain ⟨v, hv, rfl⟩ := Option.map_eq_some_iff.mp hr
  obtain ⟨ended, hstv⟩ := decompressRun_status hsrc hdst hv
  refine ⟨!ended, false, decide (v.dstLen.toNat < v.q), ?_, fun h => absurd rfl (h sel).1, fun _ => rfl, nofun⟩
  rw [hstv, hst, setDone_decompressStatus]

/-- Where DECODE overran, its count is not DST_LEN (44_pipeline.md R221). -/
theorem decode_setsOwn (sel : Space) : RuleSetsOwnConditions (.decode sel) checkBothLens decodeRule := by
  intro s u hst hc hr
  obtain ⟨hsrc, hdst⟩ := bounds_of_checkBothLens hc
  obtain ⟨a, b, c, ea, ha, eb, ⟨hsrcb, hdstb⟩, ec, rfl⟩ := decodeRule_stages hsrc hdst hr
  obtain ⟨-, -, hsta⟩ := cipherRun_keeps (by decide) hsrc ea
  obtain ⟨-, -, hstb⟩ := cipherRun_keeps (by decide) ha eb
  obtain ⟨ended, hstc⟩ := decompressRun_status hsrcb hdstb ec
  refine ⟨!ended, decide (c.q ≠ c.dstLen.toNat), decide (c.dstLen.toNat < c.q), ?_,
    fun h => absurd rfl (h sel).2, fun h => absurd rfl (h sel), fun _ hovr => ?_⟩
  · rw [hstc, hstb, hsta, hst, setDone_decodeStatus]
  · exact decide_eq_true (of_decide_eq_true hovr).ne'

/-- The end of a command as STATUS shows it: a fault's code, or conditions of its own (60_exceptions.md R243, R246). -/
def StatusEnds (i : Instr) (t : State) : Prop :=
  (∃ code, t.status = 0x00000022#32 ||| (faultNumber code <<< 8)) ∨
    ∃ warn err ovr, t.status = endStatus warn err ovr ∧ CanEndWith i warn err ovr

theorem runCommand_statusEnds {i : Instr} {check : State → Option FaultCode} {rule : State → Option State}
    (hrule : RuleSetsOwnConditions i check rule) {s t : State} (h : runCommand check rule s = .next t) :
    StatusEnds i t := by
  rcases runCommand_cases h with ⟨code, -, rfl⟩ | ⟨hc, u, hu, rfl⟩
  · exact .inl ⟨code, rfl⟩
  · exact .inr (hrule s.issue u rfl hc hu)

theorem exec_statusEnds {i : Instr} {s t : State} (hi : i.isCommand = true) (h : exec i s = .next t) :
    StatusEnds i t := by
  cases i with
  | readBits sel => exact runCommand_statusEnds (setsOwn_of_keepsStatus (fun _ _ _ => readBitsRule_status) _) h
  | writeBits sel => exact runCommand_statusEnds (setsOwn_of_keepsStatus (fun _ _ => writeBitsRule_status) _) h
  | decompress sel => exact runCommand_statusEnds (decompress_setsOwn sel) h
  | compress sel => exact runCommand_statusEnds (setsOwn_of_keepsStatus (fun _ _ => compressRule_status) _) h
  | decrypt sel => exact runCommand_statusEnds (setsOwn_of_keepsStatus (fun _ _ => cipherRule_status) _) h
  | encrypt sel => exact runCommand_statusEnds (setsOwn_of_keepsStatus (fun _ _ => cipherRule_status) _) h
  | decode sel => exact runCommand_statusEnds (decode_setsOwn sel) h
  | encode sel => exact runCommand_statusEnds (setsOwn_of_keepsStatus (fun _ _ => encodeRule_status) _) h
  | badOp w =>
    obtain rfl := Host.Outcome.next.inj ((exec_badOp w s).symm.trans h)
    exact .inl ⟨.badOp, rfl⟩
  | lit v => cases hi
  | ref e l => cases hi
  | term => cases hi
  | term2 => cases hi

/-- Settles O37: `exec_statusEnds` collects what each rule sets. -/
theorem statusConditionsByCommand : Obligations.StatusConditionsByCommand := by
  unfold Obligations.StatusConditionsByCommand
  exact fun _ _ _ => exec_statusEnds

end Sys2Proof.Machine

/-! Power-on reset, and the pipelines composed by hand (70_reset_and_hazards.md): a host that writes a layer's key and
issues its cipher command stands, between two commands, where the pipeline stands between two units. -/

namespace Sys2Proof.Machine

/-! ## A layer by hand -/

/-- The host's write of a cipher key: CIPH_BLOCK and CIPH_KEY (10_state.md R39, R40). -/
def State.withKey (s : State) (block : Word) (key : BitVec 16) : State := { s with ciphBlock := block, ciphKey := key }

/-- Between two commands the host's state `s` holds what the pipeline's state `p` holds between two units: the same
memories under the same launch and SRC_LEN. DST_LEN may differ: the host sets it for ENCRYPT (44_pipeline.md R223). -/
structure ByHand (p s : State) : Prop where
  src       : p.src = s.src
  dst       : p.dst = s.dst
  srcLen    : p.srcLen = s.srcLen
  launch    : p.launch = s.launch
  canonical : MemoriesCanonical s

theorem ByHand.mem {p s : State} (h : ByHand p s) (sp : Space) : p.mem sp = s.mem sp := by
  cases sp with
  | src => exact h.src
  | dst => exact h.dst

theorem ByHand.size {p s : State} (h : ByHand p s) (sp : Space) : p.size sp = s.size sp := by
  cases sp with
  | src => exact congrArg Launch.srcMem h.launch
  | dst => exact congrArg Launch.dstMem h.launch

theorem LayerApplied.operands {dec : Bool} {sp : Space} {len : Nat} {layer : Layer} {s t : State}
    (h : LayerApplied dec sp len layer s t) : SameOperands s t := by
  obtain ⟨hops, -⟩ := ciphered_frame h.frame
  exact hops

theorem LayerApplied.status {dec : Bool} {sp : Space} {len : Nat} {layer : Layer} {s t : State}
    (h : LayerApplied dec sp len layer s t) : t.status = s.status := by
  obtain ⟨-, -, -, -, -, hstatus, -⟩ := ciphered_frame h.frame
  exact hstatus

/-- A layer is a function of the memories it starts from (43_cipher.md R207). -/
theorem LayerApplied.mem_unique {dec : Bool} {sp : Space} {len : Nat} {layer : Layer} {s s' t t' : State}
    (hB : 1 ≤ layer.blockSize) (h : LayerApplied dec sp len layer s t) (h' : LayerApplied dec sp len layer s' t')
    (hmem : ∀ sp, s.mem sp = s'.mem sp) (x : Space) : t.mem x = t'.mem x := by
  by_cases hx : x = sp
  · subst hx
    have hrelates' := h'.relates
    rw [← hmem] at hrelates'
    exact Memory.ext (mem_wf h.canonical x) (mem_wf h'.canonical x) (relates_unique hB h.relates hrelates')
  · rw [h.other x hx, h'.other x hx, hmem]

/-- A cipher command whose key registers hold a layer applies that layer (43_cipher.md R205, R206). -/
theorem exec_layer (dec : Bool) {sel : Space} {s : State} (hB : 1 ≤ s.keyLayer.blockSize)
    (hcanon : MemoriesCanonical s) (hlen : s.cipherLen sel ≤ s.size sel) :
    ∃ u, exec (cipherInstr dec sel) s = .next u.cipherEnd ∧
      LayerApplied dec sel (s.cipherLen sel) s.keyLayer s.issue u := by
  have hissue : SameOperands s s.issue := SameOperands.refl s
  have hblock : s.ciphBlock ≠ 0#32 := fun h => absurd (congrArg BitVec.toNat h) (Nat.ne_of_gt hB)
  have hlen' : s.cipherLen sel ≤ s.issue.size sel := hlen.trans_eq (hissue.size sel).symm
  obtain ⟨u, hrun, -⟩ := cipherRun_spec dec sel s.keyLayer hB hlen'
  refine ⟨u, exec_cipherInstr_eq (checkCipher_issue hlen hblock) ?_, layerApplied_of_cipherRun hB hlen' hcanon hrun⟩
  rw [hissue.cipherLen, hissue.keyLayer]
  exact hrun

/-- Where the pipeline applies a layer, the host writes the layer's key and issues the cipher command
(70_reset_and_hazards.md R285). -/
theorem LayerApplied.byHand {dec : Bool} {sel : Space} {len : Nat} {layer : Layer} {p q s : State} {block : Word}
    {key : BitVec 16} (hq : LayerApplied dec sel len layer p q) (h : ByHand p s)
    (hkey : (s.withKey block key).keyLayer = layer) (hB : 1 ≤ layer.blockSize) (hlen : s.cipherLen sel = len)
    (hfits : len ≤ p.size sel) :
    ∃ t, exec (cipherInstr dec sel) (s.withKey block key) = .next t ∧ ByHand q t ∧ t.dstLen = s.dstLen ∧
      t.status = setFlag 0#32 flagDone true := by
  have hlen' : (s.withKey block key).cipherLen sel = len := by cases sel <;> exact hlen
  have hfits' : (s.withKey block key).cipherLen sel ≤ (s.withKey block key).size sel := by
    rw [hlen']
    exact hfits.trans_eq ((h.size sel).trans (by cases sel <;> rfl))
  obtain ⟨u, hexec, hu⟩ := exec_layer dec (hB.trans_eq (congrArg Layer.blockSize hkey).symm) h.canonical hfits'
  rw [hlen', hkey] at hu
  have hmem := hq.mem_unique hB hu fun sp => (h.mem sp).trans (by cases sp <;> rfl)
  obtain ⟨hsrcLenQ, -⟩ := hq.operands
  obtain ⟨hsrcLenU, hdstLenU, -⟩ := hu.operands
  exact ⟨u.cipherEnd, hexec,
    ⟨hmem .src, hmem .dst, (hsrcLenQ.trans h.srcLen).trans hsrcLenU.symm,
      (hq.operands.launch.trans h.launch).trans hu.operands.launch.symm, hu.canonical⟩,
    hdstLenU, congrArg (setFlag · flagDone true) hu.status⟩

/-! ## DECOMPRESS by hand -/

/-- Where the pipeline runs the decompressor, the host issues DECOMPRESS (70_reset_and_hazards.md R285). -/
theorem decompressRun_byHand {p q s : State} (h : ByHand p s) (hdstLen : p.dstLen = s.dstLen)
    (hstatus : p.status = 0#32) (hcanon : MemoriesCanonical p) (hsize : p.launch.srcMem ≤ 2 ^ 27)
    (hsrc : p.srcLen.toNat ≤ p.launch.srcMem) (hdst : p.dstLen.toNat ≤ p.launch.dstMem)
    (hrun : decompressRun p = some q) :
    ∃ u : State, exec (.decompress .src) s = .next u.decompressEnd ∧ q.src = u.src ∧ q.dst = u.dst ∧
      q.status = u.status ∧ q.q = u.q ∧ u.decompressEnd.resultLen.toNat = q.q := by
  have hsrc' : s.srcLen.toNat ≤ s.launch.srcMem := by rwa [← h.srcLen, ← h.launch]
  have hdst' : s.dstLen.toNat ≤ s.launch.dstMem := by rwa [← hdstLen, ← h.launch]
  obtain ⟨u, hrun'⟩ := decompressRun_total (s := s.issue) hsrc' hdst'
  obtain ⟨out, ended, hout⟩ : ∃ out ended, streamOutput p.launch.histInit (readableBit p.src p.srcLen.toNat)
      p.srcLen.toNat (8 * p.srcLen.toNat) 0 [] = (out, ended) := ⟨_, _, rfl⟩
  have hout' := hout
  rw [h.launch, h.src, h.srcLen] at hout'
  have ⟨_, hwd, _, _, hinit⟩ := hcanon
  have ⟨_, hwd', _, _, hinit'⟩ := h.canonical
  obtain ⟨o, -, hq, hcount, -, -, -, hmem, -⟩ := decompressRun_streamOutput hsrc hdst hinit hrun hout
  obtain ⟨o', -, hu, hcount', -, -, -, hmem', -⟩ :=
    decompressRun_streamOutput (s := s.issue) hsrc' hdst' hinit' hrun' hout'
  obtain ⟨-, -, -, -, hsrcQ, -⟩ := decoded_frame hq
  obtain ⟨-, -, -, -, hsrcU, -⟩ := decoded_frame hu
  obtain ⟨hwq, -, hread⟩ := hmem hwd
  obtain ⟨hwu, -, hread'⟩ := hmem' hwd'
  have hexec := exec_decompress .src hsrc' hdst' hrun'
  obtain ⟨-, -, -, -, -, hresult⟩ := decompressBounded .src s _ (h.launch ▸ hsize) hsrc' hdst' hexec
  have hcounts : q.q = u.q := hcount.trans hcount'.symm
  refine ⟨u, hexec, (hsrcQ.trans h.src).trans hsrcU.symm, Memory.ext hwq hwu fun a => ?_, ?_, hcounts,
    hresult.trans hcounts.symm⟩
  · rw [hread, hread', hdstLen, h.dst]
    rfl
  · rw [hq, hu, hstatus, hdstLen]
    rfl

/-- DECODE's STATUS is DECOMPRESS's with ERR_SIZE beside it (44_pipeline.md R221). -/
theorem setErrSize_decompressStatus (ended ovr err : Bool) :
    setFlag (setFlag (decompressStatus 0#32 ended ovr) flagErrSize err) flagDone true =
      setFlag (decompressStatus 0#32 ended ovr) flagDone true ||| (if err then 0x00000008#32 else 0#32) := by
  revert ended ovr err
  decide

/-- DECODE's STATUS from its decompressor's, by a word that holds the count (44_pipeline.md R221). -/
theorem decodeEnd_status {q r : State} {count : Word} (hsrc : q.srcLen.toNat ≤ q.launch.srcMem)
    (hdst : q.dstLen.toNat ≤ q.launch.dstMem) (hstatus : q.status = 0#32) (hrun : decompressRun q = some r)
    (hcount : count.toNat = r.q) :
    r.decodeEnd.status =
      setFlag r.status flagDone true ||| (if count ≠ q.dstLen then 0x00000008#32 else 0#32) := by
  obtain ⟨⟨-, hdstLen, -⟩, -⟩ := decompressRun_frame hsrc hdst hrun
  obtain ⟨ended, hstatusR⟩ := decompressRun_status hsrc hdst hrun
  have herr : count ≠ q.dstLen ↔ decide (r.q ≠ r.dstLen.toNat) = true := by
    rw [decide_eq_true_iff, hdstLen, ← hcount, ne_eq, ne_eq, BitVec.toNat_inj]
  show setFlag (setFlag r.status flagErrSize (decide (r.q ≠ r.dstLen.toNat))) flagDone true = _
  rw [if_congr herr rfl rfl, hstatusR, hstatus, setErrSize_decompressStatus]

/-! ## The two pipelines -/

/-- The layer that a written key selects (43_cipher.md R205). -/
theorem keyLayer_withKey (s : State) (block : Word) (key : BitVec 16) : (s.withKey block key).keyLayer =
    { blockSize := block.toNat, baseMask := key.extractLsb' 0 8, maskInc := key.extractLsb' 8 8 } := rfl

/-- Layer A's key, as the host writes it (70_reset_and_hazards.md R285). -/
theorem keyLayer_withKey_layerA (s : State) : (s.withKey 0x800#32 0xE75E#16).keyLayer = Config.layerA :=
  (keyLayer_withKey ..).trans (by decide)

/-- Layer B's key, as the host writes it (70_reset_and_hazards.md R285). -/
theorem keyLayer_withKey_layerB (s : State) : (s.withKey 0x80#32 0x367D#16).keyLayer = Config.layerB :=
  (keyLayer_withKey ..).trans (by decide)

/-- DECODE by hand: DECRYPT with layer A, DECRYPT with layer B, DECOMPRESS (70_reset_and_hazards.md R285). -/
theorem decode_byHand (sel : Space) {s : State} (hsizes : MemSizes s) (hcanon : MemoriesCanonical s)
    (hsrc : s.srcLen.toNat ≤ s.launch.srcMem) (hdst : s.dstLen.toNat ≤ s.launch.dstMem) :
    ∃ t a b c, exec (.decode sel) s = .next t ∧ exec (.decrypt .src) (s.withKey 0x800#32 0xE75E#16) = .next a ∧
      exec (.decrypt .src) (a.withKey 0x80#32 0x367D#16) = .next b ∧ exec (.decompress .src) b = .next c ∧
      t.src = c.src ∧ t.dst = c.dst ∧ t.resultLen = c.resultLen ∧
      t.status = c.status ||| (if c.resultLen ≠ s.dstLen then 0x00000008#32 else 0#32) := by
  obtain ⟨hsrcMem, -⟩ := hsizes
  obtain ⟨p, q, r, hexec, hA, hB, hrun⟩ := exec_decode sel hcanon hsrc hdst
  have ⟨hsrcLenP, _⟩ := hA.operands
  obtain ⟨hsrcLenQ, hdstLenQ, -, -, -, hlaunchQ, -⟩ := hA.operands.trans hB.operands
  have hsrcQ : q.srcLen.toNat ≤ q.launch.srcMem := by rw [hsrcLenQ, hlaunchQ]; exact hsrc
  have hdstQ : q.dstLen.toNat ≤ q.launch.dstMem := by rw [hdstLenQ, hlaunchQ]; exact hdst
  have hstart : ByHand s.issue s := ⟨rfl, rfl, rfl, rfl, hcanon⟩
  obtain ⟨a, hexecA, hp, hdstLenA, -⟩ := hA.byHand hstart (keyLayer_withKey_layerA s) (by decide) rfl hsrc
  obtain ⟨b, hexecB, hq, hdstLenB, -⟩ := hB.byHand hp (keyLayer_withKey_layerB a) (by decide)
    (congrArg BitVec.toNat (hp.srcLen.symm.trans hsrcLenP)) (hsrc.trans_eq (hA.operands.size .src).symm)
  have hstatusQ : q.status = 0#32 := hB.status.trans hA.status
  obtain ⟨u, hexecC, hsrcEq, hdstEq, hstatusEq, hcountEq, hcount⟩ := decompressRun_byHand hq
    (hdstLenQ.trans (hdstLenB.trans hdstLenA).symm) hstatusQ hB.canonical (by rw [hlaunchQ]; exact hsrcMem) hsrcQ hdstQ
    hrun
  have hstatus := decodeEnd_status hsrcQ hdstQ hstatusQ hrun hcount
  rw [hstatusEq, hdstLenQ] at hstatus
  exact ⟨_, a, b, _, hexec, hexecA, hexecB, hexecC, hsrcEq, hdstEq, congrArg (BitVec.ofNat 32) hcountEq, hstatus⟩

/-- ENCODE by hand: COMPRESS, DST_LEN from RESULT_LEN, ENCRYPT with layer B, ENCRYPT with layer A
(70_reset_and_hazards.md R285). -/
theorem encode_byHand (sel : Space) {s : State} (hsizes : MemSizes s) (hcanon : MemoriesCanonical s)
    (hsrc : s.srcLen.toNat ≤ s.launch.srcMem) (hcap : compressCap s.srcLen.toNat ≤ s.launch.dstMem) :
    ∃ t a b c, exec (.encode sel) s = .next t ∧ exec (.compress .src) s = .next a ∧
      exec (.encrypt .dst) ({ a with dstLen := a.resultLen }.withKey 0x80#32 0x367D#16) = .next b ∧
      exec (.encrypt .dst) (b.withKey 0x800#32 0xE75E#16) = .next c ∧
      t.src = c.src ∧ t.dst = c.dst ∧ t.resultLen = a.resultLen ∧ t.status = c.status := by
  obtain ⟨hsrcMem, -⟩ := hsizes
  obtain ⟨p, q, r, hexec, hrun, hB, hA⟩ := exec_encode sel hcanon hsrc hcap
  obtain ⟨_, -, hrun', hframe, -, -, -, -, hcur, -⟩ := compressRun_spec (s := s.issue) hsrc hcap
  obtain rfl := Option.some.inj (hrun.symm.trans hrun')
  obtain ⟨hops, -, -, -, -, hstatus, -⟩ := compressed_frame hframe
  have hfits : p.wr.cur + 1 ≤ p.launch.dstMem := by
    rw [hops.launch]
    exact hcur.trans hcap
  have hresult : p.compressEnd.resultLen.toNat = p.wr.cur + 1 := compressEnd_resultLen (hsrc.trans hsrcMem) hcur
  have hcanonP : MemoriesCanonical p := compressRun_canonicalForm (s := s.issue) hsrc hcap hrun hcanon
  have hstart : ByHand p { p.compressEnd with dstLen := p.compressEnd.resultLen } := ⟨rfl, rfl, rfl, rfl, hcanonP⟩
  obtain ⟨b, hexecB, hq, hdstLenB, -⟩ := hB.byHand hstart (keyLayer_withKey_layerB _) (by decide) hresult hfits
  obtain ⟨c, hexecC, hr, -, hstatusC⟩ := hA.byHand hq (keyLayer_withKey_layerA b) (by decide)
    ((congrArg BitVec.toNat hdstLenB).trans hresult) (hfits.trans_eq (hB.operands.size .dst).symm)
  have hstatusR : r.status = 0#32 := hA.status.trans (hB.status.trans hstatus)
  exact ⟨_, _, b, c, hexec, exec_compress .src hsrc hcap hrun, hexecB, hexecC, hr.src, hr.dst, rfl,
    (congrArg (setFlag · flagDone true) hstatusR).trans hstatusC.symm⟩

/-- Settles O30: `decode_byHand` and `encode_byHand`. -/
theorem pipelinesEqualByHand : Obligations.PipelinesEqualByHand := by
  unfold Obligations.PipelinesEqualByHand
  exact ⟨fun sel _ hsizes hcanon hsrc hdst => decode_byHand sel hsizes hcanon hsrc hdst,
    fun sel _ hsizes hcanon hsrc hcap => encode_byHand sel hsizes hcanon hsrc hcap⟩

/-! ## Reset -/

/-- The registers at reset, and the core IDLE (70_reset_and_hazards.md R270). -/
theorem reset_powerOnReset : PowerOnReset State.reset :=
  ⟨rfl, rfl, rfl, rfl, rfl, rfl, rfl, rfl, rfl, rfl, rfl⟩

/-- Settles O47: the registers by `reset_powerOnReset`, and the sixteen slots read one by one. -/
theorem resetValues : Obligations.ResetValues := by
  unfold Obligations.ResetValues
  exact ⟨reset_powerOnReset, by decide, by decide⟩

/-- Every counter is 0 at reset (log 7). -/
theorem reset_countersFit : CountersFit State.reset := by
  unfold CountersFit
  decide

/-- Settles O42: the memories are empty, STATUS is 0, the engines stand at bit 7 of byte 0 and the counters at 0. -/
theorem resetMeetsInvariant : Obligations.ResetMeetsInvariant where
  memSizes  := ⟨Nat.le_refl _, Nat.le_refl _⟩
  canonical := ⟨rfl, rfl, rfl, rfl, rfl⟩
  inRange   := ⟨rfl, rfl, rfl, rfl⟩
  idle      := rfl
  status    := rfl
  masks     := ⟨rfl, rfl⟩
  counters  := reset_countersFit

/-- Settles O48: the core is IDLE at reset, so the step runs the command (`step_cmd`), and every command, BAD_OP among
them, answers with the core IDLE and DONE set (`everyCommandCompletes`). -/
theorem acceptsCommandAfterReset : Obligations.AcceptsCommandAfterReset := by
  unfold Obligations.AcceptsCommandAfterReset
  rintro s w rest ⟨hidle, -⟩ hhost
  obtain ⟨t, hexec, hidle', hdone, -⟩ :=
    everyCommandCompletes (decodeCmd w) { s with host := rest } (decodeCmd_isCommand w)
  exact ⟨t, (step_cmd hidle hhost).trans hexec, hidle', hdone⟩

end Sys2Proof.Machine
